-- ==== Sys2Proof/Word.lean ====
section
/-! DEFINITION. The word types of the block (00_scope.md R6, R10, R11): bit 0 is the least significant bit of a value, and
every value is unsigned. -/

namespace Sys2Proof

/-- A byte of `SECBUF`, or a TXN header (30_encoding.md R73). -/
abbrev Byte := BitVec 8

/-- A logical word, a checksum word or a timing class: 16 bits (00_scope.md R6, R8). -/
abbrev Word16 := BitVec 16

/-- A host register, a position or a 32-cell group: 32 bits (00_scope.md R10, 30_encoding.md R70). -/
abbrev Word32 := BitVec 32

end Sys2Proof
end

