-- ==== Sys2Proof/Config.lean ====
section
/-! DEFINITION. What the spec leaves to an implementation (00_scope.md R8: parameters a model must not assume a value for),
the fixed geometry (R6, R7), and the one free value of the model. -/

namespace Sys2Proof

namespace Config

/-- `NSEC`, the number of sectors (00_scope.md R6). -/
abbrev nsec : Nat := 6
/-- `SECBYTES`, the bytes of a sector body (00_scope.md R6). -/
abbrev secBytes : Nat := 1024
/-- `WPS`, the data words of a sector (00_scope.md R6). -/
abbrev wps : Nat := 512
/-- `GW`, the words of a sector with its checksum word (00_scope.md R6). -/
abbrev gw : Nat := 513
/-- `TW`, the words after the mark (00_scope.md R6). -/
abbrev tw : Nat := 3078
/-- `BUFLEN`, the bytes of `SECBUF` (00_scope.md R6). -/
abbrev bufLen : Nat := 6144
/-- `CPW`, the cells of one logical word (00_scope.md R7). -/
abbrev cpw : Nat := 32
/-- The TXNs of one ENCODE (44_remodulator.md R135). -/
abbrev txnCount : Nat := 6160

end Config

/-- The four sentinel bytes `S[0..3]` (00_scope.md R8, 43_checksum_validator.md R110). -/
structure Sentinel where
  s0 : Byte
  s1 : Byte
  s2 : Byte
  s3 : Byte
deriving DecidableEq, Repr, Inhabited

/-- The OPEN parameters of 00_scope.md R8, fixed for the life of a model instance (70_reset_and_hazards.md R164).
`blockBase` is a platform address: the spec gives it no width (log 22). -/
structure Params where
  mark1     : Word16
  mark2     : Word32
  sentinel  : Sentinel
  speed     : Word16
  trackLen  : Word32
  blockBase : Nat
deriving DecidableEq, Repr, Inhabited

/-- The parameters of the instance that `State.reset` describes: no value is assumed (00_scope.md R8; log 1). -/
opaque Config.params : Params

/-- The free cells: what a bit of an EMIT's `VALUE` above bit 31 reads as, which the spec does not state (log 15). -/
opaque Config.freeCell : Nat → Bool

end Sys2Proof
end

