-- ==== Sys2Proof/Syntax.lean ====
section
/-! DEFINITION. The nine rows of spec/opcode_table.json: the three host commands (30_encoding.md R67) and the six emission
transactions (TXNs, R73), and the two forms they are encoded in. -/

namespace Sys2Proof

/-- One constructor per row of the opcode table. The commands carry no operand (R75); a TXN carries its payload fields. -/
inductive Instr where
  /-- NOP, command word 0x00000000 (40_commands.md R83). -/
  | nop
  /-- DECODE, command word 0x00000001 (40_commands.md R84). -/
  | decode
  /-- ENCODE, command word 0x00000002 (40_commands.md R87). -/
  | encode
  /-- SETUP, header 0x00 (45_flux_encoder.md R137). -/
  | setup (start len : Word32)
  /-- EMIT.RAW, header 0x40 (45_flux_encoder.md R138). -/
  | emitRaw (nbits : BitVec 6) (speed : Word16) (value : Word32)
  /-- EMIT.EVEN, header 0x50 (45_flux_encoder.md R139). -/
  | emitEven (nbits : BitVec 6) (speed : Word16) (value : Word32)
  /-- EMIT.ODD, header 0x60 (45_flux_encoder.md R140). -/
  | emitOdd (nbits : BitVec 6) (speed : Word16) (value : Word32)
  /-- EMIT.ALL, header 0x70 (45_flux_encoder.md R141). -/
  | emitAll (nbits : BitVec 6) (speed : Word16) (value : Word32)
  /-- FINALIZE, header 0x80 (45_flux_encoder.md R142). -/
  | finalize
deriving DecidableEq, Repr

/-- A TXN as the spec gives it: "a record with an 8-bit header `H` and kind-specific payload fields" (30_encoding.md R73).
The spec packs the payload into no bits (log 13); a field that the header's kind does not have is no part of the TXN, is
not read, and is 0 in a record the block makes. -/
structure TxnRecord where
  header : Byte
  start  : Word32
  len    : Word32
  nbits  : BitVec 6
  speed  : Word16
  value  : Word32
deriving DecidableEq, Repr

/-- The record of a header alone, every payload field 0. -/
def TxnRecord.ofHeader (h : Byte) : TxnRecord := ⟨h, 0, 0, 0, 0, 0⟩

/-- What an instruction is encoded as: the word written to `CMD`, or a TXN record. -/
inductive Encoding where
  | command (w : Word32)
  | transaction (r : TxnRecord)
deriving DecidableEq, Repr

end Sys2Proof
end

