-- ==== Sys2Proof/WellFormed.lean ====
section
/-! DEFINITION. Which instructions are well formed: an EMIT's `NBITS` is 1 to 32 (30_encoding.md R73). -/

namespace Sys2Proof

/-- `NBITS` is at least 1 (30_encoding.md R73: "6 bits, 1..32"). -/
def nbitsPositive (nbits : BitVec 6) : Bool := decide (1 ≤ nbits.toNat)

/-- `NBITS` is at most 32, the width of `VALUE` (30_encoding.md R73). -/
def nbitsInValue (nbits : BitVec 6) : Bool := decide (nbits.toNat ≤ 32)

/-- The legal values of `NBITS`. -/
def nbitsOk (nbits : BitVec 6) : Bool := nbitsPositive nbits && nbitsInValue nbits

/-- The operands of the instruction lie in the ranges the spec gives them. -/
def Instr.wellFormed : Instr → Bool
  | .nop => true
  | .decode => true
  | .encode => true
  | .setup _ _ => true
  | .emitRaw n _ _ => nbitsOk n
  | .emitEven n _ _ => nbitsOk n
  | .emitOdd n _ _ => nbitsOk n
  | .emitAll n _ _ => nbitsOk n
  | .finalize => true

end Sys2Proof
end

