-- ==== Sys2Proof/Decode.lean ====
section
/-! DEFINITION. The decoder of command words (30_encoding.md R67) and of TXN headers (R73, R74), total and rejecting by
name, and the encoder, written from the same tables. -/

namespace Sys2Proof

/-- Why a word or a record is no instruction. -/
inductive DecodeError where
  /-- A command word with `RSV` not 0 (30_encoding.md R67). -/
  | reservedBits (w : Word32)
  /-- A command word with `OP` in 0x3 to 0xF (30_encoding.md R67). -/
  | reservedOp (w : Word32)
  /-- A header with `H[3:0]` not 0 (30_encoding.md R74). -/
  | headerLowBits (h : Byte)
  /-- A header with `KIND` = 0b11 (30_encoding.md R74). -/
  | reservedKind (h : Byte)
  /-- SETUP or FINALIZE with `TAG` not 0 (30_encoding.md R74). -/
  | nonzeroTag (h : Byte)
deriving DecidableEq, Repr

/-- `OP` = bits 3:0 of a command word (30_encoding.md R67). -/
def commandOp (w : Word32) : BitVec 4 := w.extractLsb' 0 4

/-- `RSV` = bits 31:4 of a command word (30_encoding.md R67). -/
def commandRsv (w : Word32) : BitVec 28 := w.extractLsb' 4 28

/-- `KIND` = `H[7:6]` (30_encoding.md R73). -/
def headerKind (h : Byte) : BitVec 2 := h.extractLsb' 6 2

/-- `TAG` = `H[5:4]` (30_encoding.md R73). -/
def headerTag (h : Byte) : BitVec 2 := h.extractLsb' 4 2

/-- `H[3:0]`, which is 0 in every defined header (30_encoding.md R73). -/
def headerLow (h : Byte) : BitVec 4 := h.extractLsb' 0 4

/-- The command a word written to `CMD` encodes (30_encoding.md R67). -/
def decodeCommand (w : Word32) : Except DecodeError Instr :=
  if commandRsv w ≠ 0 then .error (.reservedBits w)
  else if commandOp w = 0x0 then .ok .nop
  else if commandOp w = 0x1 then .ok .decode
  else if commandOp w = 0x2 then .ok .encode
  else .error (.reservedOp w)

/-- The TXN a record is: the header alone determines which payload fields it has (30_encoding.md R73, R81). -/
def decodeTxn (r : TxnRecord) : Except DecodeError Instr :=
  if headerLow r.header ≠ 0 then .error (.headerLowBits r.header)
  else if headerKind r.header = 0b00 then
    if headerTag r.header = 0b00 then .ok (.setup r.start r.len) else .error (.nonzeroTag r.header)
  else if headerKind r.header = 0b01 then
    if headerTag r.header = 0b00 then .ok (.emitRaw r.nbits r.speed r.value)
    else if headerTag r.header = 0b01 then .ok (.emitEven r.nbits r.speed r.value)
    else if headerTag r.header = 0b10 then .ok (.emitOdd r.nbits r.speed r.value)
    else .ok (.emitAll r.nbits r.speed r.value)
  else if headerKind r.header = 0b10 then
    if headerTag r.header = 0b00 then .ok .finalize else .error (.nonzeroTag r.header)
  else .error (.reservedKind r.header)

/-- The instruction an encoding stands for. -/
def decode : Encoding → Except DecodeError Instr
  | .command w => decodeCommand w
  | .transaction r => decodeTxn r

/-- The record of an EMIT with the header `h` (30_encoding.md R73). -/
def emitRecord (h : Byte) (nbits : BitVec 6) (speed : Word16) (value : Word32) : TxnRecord :=
  ⟨h, 0, 0, nbits, speed, value⟩

/-- The record of a SETUP (30_encoding.md R73). -/
def setupRecord (start len : Word32) : TxnRecord := ⟨0x00, start, len, 0, 0, 0⟩

/-- The record of a FINALIZE (30_encoding.md R73). -/
def finalizeRecord : TxnRecord := TxnRecord.ofHeader 0x80

/-- The encoding of an instruction, by the tables of 30_encoding.md R67 and R73. -/
def encode : Instr → Encoding
  | .nop => .command 0x00000000
  | .decode => .command 0x00000001
  | .encode => .command 0x00000002
  | .setup start len => .transaction (setupRecord start len)
  | .emitRaw n sp v => .transaction (emitRecord 0x40 n sp v)
  | .emitEven n sp v => .transaction (emitRecord 0x50 n sp v)
  | .emitOdd n sp v => .transaction (emitRecord 0x60 n sp v)
  | .emitAll n sp v => .transaction (emitRecord 0x70 n sp v)
  | .finalize => .transaction finalizeRecord

/-- The encoding that `nbits` bits `w` of a row of spec/opcode_table.json lay out: a 32-bit command word, or an 8-bit TXN
header with every payload field 0. -/
def tableEncoding (nbits w : Nat) : Option Encoding :=
  if nbits = 32 then some (.command (BitVec.ofNat 32 w))
  else if nbits = 8 then some (.transaction (TxnRecord.ofHeader (BitVec.ofNat 8 w)))
  else none

/-- What the decoder reads from an instruction whose bits are `w`, numbered as the opcode table numbers them. -/
def decodeTableWord (nbits w : Nat) : Option Instr :=
  match tableEncoding nbits w with
  | none => none
  | some e =>
    match decode e with
    | .ok i => some i
    | .error _ => none

end Sys2Proof
end

