-- ==== Sys2Proof/Machine/State.lean ====
section
/-! DEFINITION. The state of the block as 10_state.md gives it, the data of the other agents beside it (00_scope.md R18),
and the reasons a step stops. -/

namespace Sys2Proof.Machine

/-- Bytes by buffer offset. Canonical form: offsets strictly rising and below 6144. An unlisted byte is unwritten
(10_state.md R27): it has no value, so no entry can equal what an unlisted byte reads as. -/
abbrev Memory := List Host.Cell

/-- Words of `WB` by index, in the same form: indices strictly rising and below 3078 (10_state.md R34). -/
abbrev WordBuffer := List (Nat × Word16)

/-- The sequencing state `phase` (10_state.md R33). -/
inductive Phase where
  | idle
  | dScan
  | dConfirm
  | dDemod
  | dValidate
  | dFinish
  | eEmit
deriving DecidableEq, Repr

/-- `STATUS.RESULT` (10_state.md R22); 0b11 is never produced. -/
inductive Result where
  | none
  | ok
  | noData
deriving DecidableEq, Repr

/-- `STATUS.LASTCMD` (10_state.md R22); 0b11 is never produced. -/
inductive LastCmd where
  | none
  | decode
  | encode
deriving DecidableEq, Repr

/-- The state of the block: all of 10_state.md R22 to R37. `STATUS.BUSY` is `phase` not IDLE (R33), computed by
`Block.busy`. -/
structure Block where
  /-- `STATUS.RESULT`, bits 2:1 (R22). -/
  result     : Result
  /-- `STATUS.CMDERR`, bit 3 (R22). -/
  cmdErr     : Bool
  /-- `STATUS.LASTCMD`, bits 5:4 (R22). -/
  lastCmd    : LastCmd
  /-- `VALID_MASK[5:0]` (R23). -/
  validMask  : BitVec 6
  /-- `DATA_BITOFF` (R24). -/
  dataBitoff : Word32
  /-- `START_POS` (R25). -/
  startPos   : Word32
  /-- `HDR_SECSIZE` (R26). -/
  hdrSecsize : Word32
  /-- `HDR_NSEC` (R26). -/
  hdrNsec    : Word32
  /-- `HDR_LEN` (R26). -/
  hdrLen     : Word32
  /-- `SECBUF` by buffer offset (R27). -/
  secbuf     : Memory
  /-- `W`, the last 32 cells read (R28). -/
  w          : Word32
  /-- `POS`, the position of the next input cell (R29). -/
  pos        : Word32
  /-- `FILL`, 0 to 16 (R30). -/
  fill       : Nat
  /-- `CAND_OFF` (R31). -/
  candOff    : Word32
  /-- `CNT`, 0 to 32 (R32). -/
  cnt        : Nat
  /-- `WI`, 0 to 3078 (R32). -/
  wi         : Nat
  /-- `NEW`, 0 to 6 (R32). -/
  new        : Nat
  /-- `phase` (R33). -/
  phase      : Phase
  /-- `WB` (R34). -/
  wb         : WordBuffer
  /-- `TI`, 0 to 6160 (R35). -/
  ti         : Nat
  /-- `PREV` (R36). -/
  prev       : Bool
  /-- `OPOS` (R36). -/
  opos       : Word32
  /-- `EMASK` (R37). -/
  emask      : BitVec 6
  /-- `EOFF` (R37). -/
  eoff       : Word32
deriving DecidableEq, Repr

/-- The block after reset: every value as 10_state.md R41 states it. -/
def Block.reset : Block where
  result := .none
  cmdErr := false
  lastCmd := .none
  validMask := 0
  dataBitoff := 0
  startPos := 0
  hdrSecsize := 0
  hdrNsec := 0
  hdrLen := 0
  secbuf := []
  w := 0
  pos := 0
  fill := 0
  candOff := 0
  cnt := 0
  wi := 0
  new := 0
  phase := .idle
  wb := []
  ti := 0
  prev := false
  opos := 0
  emask := 0
  eoff := 0

/-- The direction of a host access (30_encoding.md R79). -/
inductive Direction where
  | read
  | write
deriving DecidableEq, Repr

/-- The faults of 60_exceptions.md R154, each with what the table says it records. Raising one is no stop of the machine:
it is recorded (`State.faults`), the block's state does not change and the run goes on (R154, 20_memory.md R51). -/
inductive RecordedFault where
  /-- Raised by any host access while BUSY = 1 but a 32-bit STATUS read and a 32-bit CMD write (10_state.md R40). -/
  | busyAccess (offset : BitVec 16) (width : Nat) (dir : Direction)
  /-- Raised by an access to offsets 0x0020..0x0FFF or 0x2800..0xFFFF (20_memory.md R49). -/
  | busUnmapped (offset : BitVec 16) (width : Nat) (dir : Direction)
  /-- Raised by a register access not of width 4, or a SECBUF access not of width 1, 2 or 4 (20_memory.md R47, R48). -/
  | busWidth (offset : BitVec 16) (width : Nat)
  /-- Raised by an access whose offset is not a multiple of its width (20_memory.md R47, R48). -/
  | busAlign (offset : BitVec 16) (width : Nat)
  /-- Raised by a host read of a SECBUF byte never written (20_memory.md R50). -/
  | uninitRead (offset : BitVec 16) (width : Nat)
  /-- Raised by an ENCODE issued while some SECBUF byte is unwritten; records the lowest (44_remodulator.md R132). -/
  | uninitEncode (bufferOffset : Nat)
deriving DecidableEq, Repr

/-- The value a legal host read returned (30_encoding.md R82). -/
structure ReadRecord where
  offset : BitVec 16
  width  : Nat
  value  : Word32
deriving DecidableEq, Repr

/-- A cell record `(P, C, S)` of the output cell port (30_encoding.md R78). -/
structure CellRecord where
  pos   : Word32
  cell  : Bool
  speed : Word16
deriving DecidableEq, Repr

/-- One answer of the stream source to a `ReadCell()` (20_memory.md R58, R59). The end of the list of answers is `EOS`. -/
inductive SourceAnswer where
  /-- The next cell. -/
  | cell (c : Bool)
  /-- Not ready this time: the block holds (R59). -/
  | notReady
  /-- A source that never answers: the block holds for ever (93_implementation_defined.md I10). -/
  | never
deriving DecidableEq, Repr

/-- Whether the track sink is ready when the block has output (20_memory.md R60). The end of the list means ready. -/
inductive SinkAnswer where
  /-- It accepts what the step emits. -/
  | accept
  /-- Not ready this time: the block holds (R60). -/
  | notReady
  /-- A sink that never accepts: the block holds for ever (93_implementation_defined.md I11). -/
  | never
deriving DecidableEq, Repr

/-- One operation of the host's script (30_encoding.md R82), or who moves next (log 3). -/
inductive HostOp where
  /-- A bus read of `width` bytes at a window offset (R79). -/
  | read (offset : BitVec 16) (width : Nat)
  /-- A bus write of `width` bytes at a window offset (R79); the value's low bytes are written (log 8). -/
  | write (offset : BitVec 16) (width : Nat) (value : Word32)
  /-- `STREAM`: the source holds this sequence for the next DECODE (R82). -/
  | stream (answers : List SourceAnswer)
  /-- `WAIT`: the block moves until BUSY reads 0 (R82; log 2). -/
  | wait
  /-- The block takes one step before the host's next operation (20_memory.md R54; log 3). -/
  | run
  /-- The reset input is asserted (70_reset_and_hazards.md R164, R165; log 9). -/
  | reset
deriving DecidableEq, Repr

/-- The block, the parameters of the run, and the other agents' data. Plain data. -/
structure State where
  /-- The block's own state (10_state.md). -/
  block       : Block
  /-- The OPEN parameters (00_scope.md R8); no step changes them (70_reset_and_hazards.md R164). -/
  params      : Params
  /-- The host's pending operations (log 3). -/
  script      : List HostOp
  /-- What legal host reads returned, newest first (log 21). -/
  reads       : List ReadRecord
  /-- The faults recorded, newest first, never cleared (60_exceptions.md R154). -/
  faults      : List RecordedFault
  /-- The sequence the source holds for the next DECODE (30_encoding.md R82). -/
  nextStream  : List SourceAnswer
  /-- What is left of the sequence fixed when the last DECODE was issued (20_memory.md R58). -/
  stream      : List SourceAnswer
  /-- The sink's readiness at the next emissions (20_memory.md R60). -/
  sinkAnswers : List SinkAnswer
  /-- The TXNs emitted, newest first (30_encoding.md R77). -/
  sinkTxns    : List TxnRecord
  /-- The cell records emitted, newest first (30_encoding.md R78). -/
  sinkCells   : List CellRecord
  /-- TXN records put to the flux encoder taken alone (30_encoding.md R74; log 17). -/
  fluxIn      : List TxnRecord
  /-- The model's own counter of free cells taken (log 16). -/
  freeCount   : Nat
deriving DecidableEq, Repr

/-- The machine right after reset: the block as 10_state.md R41 says, nothing pending at any port, nothing recorded. -/
def State.reset : State where
  block := Block.reset
  params := Config.params
  script := []
  reads := []
  faults := []
  nextStream := []
  stream := []
  sinkAnswers := []
  sinkTxns := []
  sinkCells := []
  fluxIn := []
  freeCount := 0

/-- Why the machine stops with a fault. These are the model's own guards, not the faults of 60_exceptions.md R154 (those
are recorded, `RecordedFault`): no run from reset reaches one (log 18). -/
inductive Fault where
  /-- Raised by the VALIDATE step over an unwritten `WB` entry of the sector. Safe: 10_state.md R34 says it is never read. -/
  | wordBufferUnwritten (sector : Nat)
  /-- Raised by the E_EMIT step over an unwritten `SECBUF` byte. Safe: 44_remodulator.md R132 checks them all at issue. -/
  | sectorBufferUnwritten (ti : Nat)
  /-- Raised by the E_EMIT step at a `TI` with no transaction. Safe: 44_remodulator.md R124 gives TXNs 0 to 6159 only. -/
  | noTransaction (ti : Nat)
deriving DecidableEq, Repr

/-- Why the machine refuses an instruction. -/
inductive Refusal where
  /-- Raised by `exec` for an instruction without a meaning; none is left. Safe. -/
  | notModelled (mnemonic : String)
  /-- Raised by EMIT.ALL: the spec gives it no cells and says to refuse it (45_flux_encoder.md R141). Safe. -/
  | emitAllHasNoCellRule
  /-- Raised by the flux encoder for a header the spec says to refuse (30_encoding.md R74, 45_flux_encoder.md R141). Safe. -/
  | headerNeverProduced (reason : DecodeError)
deriving DecidableEq, Repr

end Sys2Proof.Machine
end

