-- ==== Sys2Proof/Machine/Flags.lean ====
section
/-! DEFINITION. The status flags: `BUSY`, the fields of `STATUS`, its write-one-to-clear bit, and the bits of
`VALID_MASK` (10_state.md R22, R23, R33). The block has no condition flags (R19). -/

namespace Sys2Proof.Machine

/-- `STATUS.BUSY`: 1 exactly when `phase` is not IDLE (10_state.md R33). -/
def Block.busy (b : Block) : Bool := decide (b.phase ≠ .idle)

/-- The code of `STATUS.RESULT` (10_state.md R22). -/
def Result.bits : Result → BitVec 2
  | .none => 0b00
  | .ok => 0b01
  | .noData => 0b10

/-- The code of `STATUS.LASTCMD` (10_state.md R22). -/
def LastCmd.bits : LastCmd → BitVec 2
  | .none => 0b00
  | .decode => 0b01
  | .encode => 0b10

/-- The value a read of `STATUS` returns: LASTCMD 5:4, CMDERR 3, RESULT 2:1, BUSY 0, the rest 0 (10_state.md R22). -/
def statusWord (b : Block) : Word32 :=
  (0#26) ++ b.lastCmd.bits ++ BitVec.ofBool b.cmdErr ++ b.result.bits ++ BitVec.ofBool b.busy

/-- `CMDERR` after a host write of `v` to `STATUS`: a 1 in bit 3 clears it, a 0 leaves it (10_state.md R22). -/
def cmdErrAfterWrite (cmdErr : Bool) (v : Word32) : Bool := cmdErr && !v.getLsbD 3

/-- `VALID[s]`, bit `s` of a mask (10_state.md R23). -/
def validBit (mask : BitVec 6) (s : Nat) : Bool := mask.getLsbD s

/-- `VALID[s] <- 1` (43_checksum_validator.md R112). -/
def setValid (mask : BitVec 6) (s : Nat) : BitVec 6 := mask ||| (1#6 <<< s)

end Sys2Proof.Machine
end

