-- ==== Sys2Proof/Machine/Operands.lean ====
section
/-! DEFINITION. How operands are put together from bits, cells and bytes: the shift register, the two planes of a group,
the big-endian composition of bytes, the sentinel pattern and the checksum sum. -/

namespace Sys2Proof.Machine

/-- `{W[30:0], c}`: a cell shifted into the raw word, earlier cells more significant (10_state.md R28). -/
def shiftIn (w : Word32) (c : Bool) : Word32 := (w.setWidth 31).concat c

/-- `W[15:0]`, the last 16 cells read (10_state.md R28). -/
def lastHalf (w : Word32) : Word16 := w.setWidth 16

/-- `Demod(G) = ((G >> 15) & 0xAAAA) | (G & 0x5555)` (42_demodulator.md R104). -/
def demod (g : Word32) : Word16 := ((g >>> 15).setWidth 16 &&& 0xAAAA) ||| (g.setWidth 16 &&& 0x5555)

/-- Eight bits, the first the most significant. -/
def byteOfBits (b7 b6 b5 b4 b3 b2 b1 b0 : Bool) : BitVec 8 :=
  (((((((BitVec.ofBool b7).concat b6).concat b5).concat b4).concat b3).concat b2).concat b1).concat b0

/-- The even plane of a word: `e[k] = w[2k+1]` (42_demodulator.md R108). -/
def evenPlane (w : Word16) : BitVec 8 :=
  byteOfBits (w.getLsbD 15) (w.getLsbD 13) (w.getLsbD 11) (w.getLsbD 9)
    (w.getLsbD 7) (w.getLsbD 5) (w.getLsbD 3) (w.getLsbD 1)

/-- The odd plane of a word: `o[k] = w[2k]` (42_demodulator.md R108). -/
def oddPlane (w : Word16) : BitVec 8 :=
  byteOfBits (w.getLsbD 14) (w.getLsbD 12) (w.getLsbD 10) (w.getLsbD 8)
    (w.getLsbD 6) (w.getLsbD 4) (w.getLsbD 2) (w.getLsbD 0)

/-- The data cells of a 16-cell half, at its even positions (30_encoding.md R71): `h[2k]`, k = 0 .. 7. -/
def dataCells (half : Word16) : BitVec 8 := oddPlane half

/-- The even-plane half `G[31:16]` of a group (30_encoding.md R70). -/
def evenHalf (g : Word32) : Word16 := g.extractLsb' 16 16

/-- The odd-plane half `G[15:0]` of a group (30_encoding.md R70). -/
def oddHalf (g : Word32) : Word16 := g.extractLsb' 0 16

/-- The clock cell before a data cell `d`: `NOT (PREV OR d)` (45_flux_encoder.md R143). -/
def clockCell (prev d : Bool) : Bool := !(prev || d)

/-- Bytes composed big-endian, the first the most significant (20_memory.md R45, R52). -/
def bytesBE (bytes : List Byte) : Word32 :=
  bytes.foldl (fun acc b => (acc <<< 8) ||| b.setWidth 32) 0

/-- Byte `i` (0 the most significant) of an `n`-byte value (20_memory.md R45, R52). -/
def byteBE (n i : Nat) (v : Word32) : Byte := (v >>> (8 * (n - 1 - i))).setWidth 8

/-- Byte `i` of the repeating sentinel: `S[i mod 4]` (43_checksum_validator.md R110). -/
def sentinelByte (t : Sentinel) (i : Nat) : Byte :=
  match i % 4 with
  | 0 => t.s0
  | 1 => t.s1
  | 2 => t.s2
  | _ => t.s3

/-- The 16-bit wraparound sum of words (43_checksum_validator.md R111, 44_remodulator.md R127). -/
def csum (words : List Word16) : Word16 := words.foldl (· + ·) 0

/-- The host address of a window offset (20_memory.md R43); the block decodes only the offset. -/
def hostAddress (p : Params) (offset : BitVec 16) : Nat := p.blockBase + offset.toNat

end Sys2Proof.Machine
end

