-- ==== Sys2Proof/Machine/Ops.lean ====
section
/-! DEFINITION. The named operations over memory, registers and ports that every meaning is written with: sparse reads
and writes, `MemRead` and `MemWrite` (20_memory.md R52), the registers (10_state.md section 2), raising a fault
(60_exceptions.md R154), `ReadCell` (20_memory.md R58, R59), `EmitTxn` and `EmitCell` (30_encoding.md R77, R78). -/

namespace Sys2Proof.Machine

/-! ## Sparse lists by key, shared by `SECBUF` and `WB` -/

/-- What is stored at key `i`; `none` where nothing is. -/
def sparseRead {α : Type} : List (Nat × α) → Nat → Option α
  | [], _ => none
  | (a, v) :: m, i => if a = i then some v else sparseRead m i

/-- Store `v` at key `i`, keeping the keys strictly rising. -/
def sparseWrite {α : Type} : List (Nat × α) → Nat → α → List (Nat × α)
  | [], i, v => [(i, v)]
  | (a, x) :: m, i, v =>
    if i < a then (i, v) :: (a, x) :: m
    else if i = a then (i, v) :: m
    else (a, x) :: sparseWrite m i v

/-- The keys are strictly rising, all at least `lo` and below `hi`. -/
def sparseWf {α : Type} : (lo hi : Nat) → List (Nat × α) → Bool
  | _, _, [] => true
  | lo, hi, (a, _) :: m => decide (lo ≤ a) && decide (a < hi) && sparseWf (a + 1) hi m

/-- The `n` values at keys `i`, `i + 1`, …; `none` if one of them is not stored. -/
def sparseRun {α : Type} (m : List (Nat × α)) : (i n : Nat) → Option (List α)
  | _, 0 => some []
  | i, n + 1 =>
    match sparseRead m i, sparseRun m (i + 1) n with
    | some v, some vs => some (v :: vs)
    | _, _ => none

/-! ## The sector buffer -/

/-- The canonical form of `SECBUF`: offsets strictly rising, all below 6144 (20_memory.md R42). An unlisted byte is
unwritten and reads as no value, so no entry can equal it. -/
def Memory.wf (m : Memory) : Bool := sparseWf 0 Config.bufLen m

/-- The canonical form of `WB`: indices strictly rising, all below 3078 (10_state.md R34). -/
def WordBuffer.wf (m : WordBuffer) : Bool := sparseWf 0 Config.tw m

/-- The byte at buffer offset `i`; `none` where it is unwritten (10_state.md R27). -/
def memByte (m : Memory) (i : Nat) : Option Byte := sparseRead m i

/-- `MemRead(off, n)`, big-endian (20_memory.md R52, R45); `none` if one of the bytes is unwritten. -/
def memRead (m : Memory) (off n : Nat) : Option Word32 := (sparseRun m off n).map bytesBE

/-- `MemWrite(off, n, v)`, big-endian (20_memory.md R52, R45): it makes the bytes written. -/
def memWrite (m : Memory) (off n : Nat) (v : Word32) : Memory :=
  (List.range n).foldl (fun m i => sparseWrite m (off + i) (byteBE n i v)) m

/-- `sec_word(s, k) = MemRead(1024*s + 2*k, 2)` (20_memory.md R53). -/
def secWord (m : Memory) (s k : Nat) : Option Word16 :=
  (memRead m (Config.secBytes * s + 2 * k) 2).map (BitVec.setWidth 16)

/-- The words `k`, `k + 1`, … of sector `s`, `n` of them. -/
def secWordsFrom (m : Memory) (s : Nat) : (k n : Nat) → Option (List Word16)
  | _, 0 => some []
  | k, n + 1 =>
    match secWord m s k, secWordsFrom m s (k + 1) n with
    | some v, some vs => some (v :: vs)
    | _, _ => none

/-- The 512 data words of sector `s` (20_memory.md R53). -/
def secWords (m : Memory) (s : Nat) : Option (List Word16) := secWordsFrom m s 0 Config.wps

/-- The body words written in order to slot `s`, word `k` at buffer offset `1024*s + 2*k`
(43_checksum_validator.md R114). -/
def writeSlot (m : Memory) (s : Nat) (body : List Word16) : Memory :=
  body.zipIdx.foldl (fun m wk => memWrite m (Config.secBytes * s + 2 * wk.2) 2 (wk.1.setWidth 32)) m

/-- The sentinel at buffer offsets `i`, `i + 1`, …, `n` of them (43_checksum_validator.md R110). -/
def sentinelFrom (t : Sentinel) : (i n : Nat) → Memory
  | _, 0 => []
  | i, n + 1 => (i, sentinelByte t i) :: sentinelFrom t (i + 1) n

/-- `SentinelFill()`: byte i of all 6144 is `S[i mod 4]`, and every byte is written (43_checksum_validator.md R110). -/
def sentinelFill (t : Sentinel) : Memory := sentinelFrom t 0 Config.bufLen

/-- The lowest unwritten buffer offset among `i`, `i + 1`, …, `n` of them, if there is one. -/
def firstUnwrittenFrom (m : Memory) : (i n : Nat) → Option Nat
  | _, 0 => none
  | i, n + 1 => if (memByte m i).isNone then some i else firstUnwrittenFrom m (i + 1) n

/-- The lowest unwritten buffer offset, if there is one (44_remodulator.md R132, 60_exceptions.md R154). -/
def firstUnwritten (m : Memory) : Option Nat := firstUnwrittenFrom m 0 Config.bufLen

/-- Every `SECBUF` byte is written. -/
def allWritten (m : Memory) : Bool := (firstUnwritten m).isNone

/-! ## The registers (10_state.md section 2; the window offsets of 92_eei_decisions.md D18) -/

/-- The registers of the window, by offset 0x0000, 0x0004, …, 0x001C. -/
inductive Register where
  | cmd
  | status
  | validMask
  | dataBitoff
  | startPos
  | hdrSecsize
  | hdrNsec
  | hdrLen
deriving DecidableEq, Repr

/-- The register at a window offset (10_state.md section 2). -/
def registerAt (offset : BitVec 16) : Option Register :=
  if offset = 0x0000 then some .cmd
  else if offset = 0x0004 then some .status
  else if offset = 0x0008 then some .validMask
  else if offset = 0x000C then some .dataBitoff
  else if offset = 0x0010 then some .startPos
  else if offset = 0x0014 then some .hdrSecsize
  else if offset = 0x0018 then some .hdrNsec
  else if offset = 0x001C then some .hdrLen
  else none

/-- The value a host read of a register returns (10_state.md R21 to R26): `CMD` reads 0, and `VALID_MASK[31:6]` reads 0. -/
def Block.readRegister (b : Block) : Register → Word32
  | .cmd => 0
  | .status => statusWord b
  | .validMask => b.validMask.setWidth 32
  | .dataBitoff => b.dataBitoff
  | .startPos => b.startPos
  | .hdrSecsize => b.hdrSecsize
  | .hdrNsec => b.hdrNsec
  | .hdrLen => b.hdrLen

/-- A host write of a register other than `CMD` (10_state.md R22 to R26): `STATUS` clears `CMDERR` only,
`VALID_MASK[31:6]` and the `HDR_*` ignore the write. `CMD` holds nothing (R21): a write to it issues a command, which is
not this operation's. -/
def Block.writeRegister (b : Block) (r : Register) (v : Word32) : Block :=
  match r with
  | .cmd => b
  | .status => { b with cmdErr := cmdErrAfterWrite b.cmdErr v }
  | .validMask => { b with validMask := v.setWidth 6 }
  | .dataBitoff => { b with dataBitoff := v }
  | .startPos => { b with startPos := v }
  | .hdrSecsize => b
  | .hdrNsec => b
  | .hdrLen => b

/-! ## Updates of the state -/

/-- `phase <- P` (10_state.md R33). -/
def State.setPhase (s : State) (p : Phase) : State := { s with block := { s.block with phase := p } }

/-- `CMDERR <- 1` and nothing else: a dropped command (40_commands.md R91, R92). -/
def State.dropCommand (s : State) : State := { s with block := { s.block with cmdErr := true } }

/-- `raise Fault(reason)` (60_exceptions.md R154): the fault is recorded, no state of the block changes, the run goes on.
This is the one operation by which every fault of R154 is taken; there is no return from it (R158). -/
def State.raise (s : State) (f : RecordedFault) : State := { s with faults := f :: s.faults }

/-- A legal read returns `v` to the host (30_encoding.md R82). -/
def State.recordRead (s : State) (offset : BitVec 16) (width : Nat) (v : Word32) : State :=
  { s with reads := ⟨offset, width, v⟩ :: s.reads }

/-- `EmitTxn(t)` (30_encoding.md R77). -/
def State.emitTxn (s : State) (r : TxnRecord) : State := { s with sinkTxns := r :: s.sinkTxns }

/-- `EmitCell(OPOS, c, S); OPOS <- OPOS +32 1` (30_encoding.md R78, 45_flux_encoder.md R138). -/
def State.emitCell (s : State) (c : Bool) (speed : Word16) : State :=
  { s with
    sinkCells := ⟨s.block.opos, c, speed⟩ :: s.sinkCells
    block := { s.block with opos := s.block.opos + 1 } }

/-- `PREV <- d` (45_flux_encoder.md R138, R139). -/
def State.setPrev (s : State) (d : Bool) : State := { s with block := { s.block with prev := d } }

/-- The next free cell is taken (log 15). -/
def State.takeFree (s : State) : State := { s with freeCount := s.freeCount + 1 }

/-! ## The input cell port -/

/-- What one `ReadCell()` does (30_encoding.md R76, 20_memory.md R59). -/
inductive CellAnswer where
  /-- The source was not ready: the block holds; the state is the given one. -/
  | hold (s : State)
  /-- `EOS`. -/
  | eos
  /-- The cell, and the state with it taken from the stream. -/
  | cell (c : Bool) (s : State)
deriving DecidableEq, Repr

/-- `ReadCell()`: the next answer of the source; at its end `EOS` (20_memory.md R58, R59). -/
def readCell (s : State) : CellAnswer :=
  match s.stream with
  | [] => .eos
  | .cell c :: rest => .cell c { s with stream := rest }
  | .notReady :: rest => .hold { s with stream := rest }
  | .never :: _ => .hold s

/-- What every cell-reading step does with its cell: `POS`, `W` and `FILL` (41_sync_detector.md R94, R95,
42_demodulator.md R103). -/
def Block.takeCell (b : Block) (c : Bool) : Block :=
  { b with pos := b.pos + 1, w := shiftIn b.w c, fill := min (b.fill + 1) 16 }

/-! ## The sink's readiness -/

/-- What the sink answers when the block has output (20_memory.md R60). -/
inductive SinkReply where
  /-- Not ready: the block holds; the state is the given one. -/
  | hold (s : State)
  /-- Ready; the state with the answer used. -/
  | ready (s : State)
deriving DecidableEq, Repr

/-- Ask the sink (20_memory.md R60); the end of its answers means ready (log 12). -/
def askSink (s : State) : SinkReply :=
  match s.sinkAnswers with
  | [] => .ready s
  | .accept :: rest => .ready { s with sinkAnswers := rest }
  | .notReady :: rest => .hold { s with sinkAnswers := rest }
  | .never :: _ => .hold s

end Sys2Proof.Machine
end

