-- ==== Sys2Proof/Machine/Demodulator.lean ====
section
/-! DEFINITION. The two-plane demodulator (42_demodulator.md): the step of phase D_DEMOD. -/

namespace Sys2Proof.Machine

/-- The DEMOD step on the block once its cell is read (42_demodulator.md R103): every 32nd cell completes a group, whose
word goes to `WB[WI]`; the 3078th ends the attempt's reading (R105). -/
def Block.demodCell (b : Block) (c : Bool) : Block :=
  let b' := { b.takeCell c with cnt := b.cnt + 1 }
  if b'.cnt = Config.cpw then
    let b'' := { b' with wb := sparseWrite b'.wb b'.wi (demod b'.w), wi := b'.wi + 1, cnt := 0 }
    if b''.wi = Config.tw then { b'' with phase := .dValidate } else b''
  else b'

/-- The DEMOD step (42_demodulator.md R103); `EOS` abandons the attempt (R106). -/
def demodStep (s : State) : State :=
  match readCell s with
  | .hold s' => s'
  | .eos => s.setPhase .dFinish
  | .cell c s' => { s' with block := s'.block.demodCell c }

end Sys2Proof.Machine
end

