-- ==== Sys2Proof/Machine/Commands.lean ====
section
/-! DEFINITION. The host commands NOP, DECODE and ENCODE (40_commands.md): what the write of their word to `CMD` does.
A command written while BUSY = 1 is dropped with `CMDERR` whatever it is (R91). -/

namespace Sys2Proof.Machine

/-- DECODE's start step on the block (40_commands.md R84). `RESULT` keeps its value until the run ends (R86). -/
def Block.startDecode (b : Block) (t : Sentinel) : Block :=
  { b with
    lastCmd := .decode
    validMask := 0
    dataBitoff := 0
    hdrSecsize := 0
    hdrNsec := 0
    hdrLen := 0
    secbuf := sentinelFill t
    w := 0
    pos := b.startPos
    fill := 0
    cnt := 0
    wi := 0
    new := 0
    phase := .dScan }

/-- ENCODE's start step on the block, when every `SECBUF` byte is written (40_commands.md R87). -/
def Block.startEncode (b : Block) : Block :=
  { b with
    lastCmd := .encode
    emask := b.validMask
    eoff := b.dataBitoff
    ti := 0
    phase := .eEmit }

/-- NOP (40_commands.md R83, R91). -/
def execNop (s : State) : Host.Outcome State Fault Refusal :=
  if s.block.busy then .next s.dropCommand else .next s

/-- DECODE (40_commands.md R84, R91). The cell sequence is fixed at issue (00_scope.md R18, 70_reset_and_hazards.md R172):
it is the one the source holds for the next DECODE, which is then used up (log 10). -/
def execDecode (s : State) : Host.Outcome State Fault Refusal :=
  if s.block.busy then .next s.dropCommand
  else .next { s with
    block := s.block.startDecode s.params.sentinel
    stream := s.nextStream
    nextStream := [] }

/-- ENCODE (40_commands.md R87, R91). An unwritten `SECBUF` byte raises UNINIT_ENCODE before anything changes
(44_remodulator.md R132, 60_exceptions.md R156). -/
def execEncode (s : State) : Host.Outcome State Fault Refusal :=
  if s.block.busy then .next s.dropCommand
  else
    match firstUnwritten s.block.secbuf with
    | some off => .next (s.raise (.uninitEncode off))
    | none => .next { s with block := s.block.startEncode }

end Sys2Proof.Machine
end

