-- ==== Sys2Proof/Machine/FluxEncoder.lean ====
section
/-! DEFINITION. The flux bitstream encoder (45_flux_encoder.md): what rendering each kind of TXN does. -/

namespace Sys2Proof.Machine

/-- Bit `i` of `VALUE`, and the state after reading it. Above bit 31 the spec states no value (`NBITS` is 1 to 32,
30_encoding.md R73): the bit is the next free cell (log 15). -/
def valueBit (value : Word32) (i : Nat) (s : State) : Bool × State :=
  if i < 32 then (value.getLsbD i, s) else (Config.freeCell s.freeCount, s.takeFree)

/-- One cell of an EMIT.RAW: `c <- VALUE[i]`, emitted as it is, and `PREV <- c` (45_flux_encoder.md R138). -/
def emitRawBit (speed : Word16) (value : Word32) (i : Nat) (s : State) : State :=
  let (c, s) := valueBit value i s
  (s.emitCell c speed).setPrev c

/-- EMIT.RAW's loop, `for i in n-1 downto 0` (45_flux_encoder.md R138). -/
def emitRawBits (speed : Word16) (value : Word32) : Nat → State → State
  | 0, s => s
  | i + 1, s => emitRawBits speed value i (emitRawBit speed value i s)

/-- One clock cell and one data cell of an EMIT.EVEN or EMIT.ODD whose data bit is `VALUE[i]`
(45_flux_encoder.md R139, R140, R143). -/
def emitPlaneBit (speed : Word16) (value : Word32) (i : Nat) (s : State) : State :=
  let (d, s) := valueBit value i s
  (((s.emitCell (clockCell s.block.prev d) speed).emitCell d speed)).setPrev d

/-- The loop of EMIT.EVEN (`odd` = 1) and EMIT.ODD (`odd` = 0), `for k in n-1 downto 0` with data bit `VALUE[2k + odd]`
(45_flux_encoder.md R139, R140). -/
def emitPlaneBits (speed : Word16) (value : Word32) (odd : Nat) : Nat → State → State
  | 0, s => s
  | k + 1, s => emitPlaneBits speed value odd k (emitPlaneBit speed value (2 * k + odd) s)

/-- SETUP (45_flux_encoder.md R137): `OPOS <- START; PREV <- 0`. `LEN` goes to the sink with the TXN and is not used. -/
def execSetup (start _len : Word32) (s : State) : Host.Outcome State Fault Refusal :=
  .next { s with block := { s.block with opos := start, prev := false } }

/-- EMIT.RAW (45_flux_encoder.md R138). -/
def execEmitRaw (nbits : BitVec 6) (speed : Word16) (value : Word32) (s : State) : Host.Outcome State Fault Refusal :=
  .next (emitRawBits speed value nbits.toNat s)

/-- EMIT.EVEN (45_flux_encoder.md R139): the bits at odd positions. -/
def execEmitEven (nbits : BitVec 6) (speed : Word16) (value : Word32) (s : State) : Host.Outcome State Fault Refusal :=
  .next (emitPlaneBits speed value 1 (nbits.toNat / 2) s)

/-- EMIT.ODD (45_flux_encoder.md R140): the bits at even positions. -/
def execEmitOdd (nbits : BitVec 6) (speed : Word16) (value : Word32) (s : State) : Host.Outcome State Fault Refusal :=
  .next (emitPlaneBits speed value 0 (nbits.toNat / 2) s)

/-- EMIT.ALL (45_flux_encoder.md R141): "A model of the flux encoder taken alone shall refuse an EMIT.ALL TXN". -/
def execEmitAll (_nbits : BitVec 6) (_speed : Word16) (_value : Word32) (_s : State) :
    Host.Outcome State Fault Refusal :=
  .refused .emitAllHasNoCellRule

/-- FINALIZE (45_flux_encoder.md R142): no cell is emitted, `OPOS` and `PREV` keep their values. -/
def execFinalize (s : State) : Host.Outcome State Fault Refusal := .next s

end Sys2Proof.Machine
end

