-- ==== Sys2Proof/Machine/Dispatch.lean ====
section
/-! DEFINITION. The meaning of every instruction, one arm per constructor. -/

namespace Sys2Proof.Machine

def exec (i : Instr) (s : State) : Host.Outcome State Fault Refusal :=
  match i with
  -- the host commands (40_commands.md)
  | .nop => Sys2Proof.Machine.execNop s
  | .decode => Sys2Proof.Machine.execDecode s
  | .encode => Sys2Proof.Machine.execEncode s
  -- the emission transactions (45_flux_encoder.md R136)
  | .setup start len => Sys2Proof.Machine.execSetup start len s
  | .emitRaw nbits speed value => Sys2Proof.Machine.execEmitRaw nbits speed value s
  | .emitEven nbits speed value => Sys2Proof.Machine.execEmitEven nbits speed value s
  | .emitOdd nbits speed value => Sys2Proof.Machine.execEmitOdd nbits speed value s
  | .emitAll nbits speed value => Sys2Proof.Machine.execEmitAll nbits speed value s
  | .finalize => Sys2Proof.Machine.execFinalize s

end Sys2Proof.Machine
end

