-- ==== Sys2Proof/Machine/Remodulator.lean ====
section
/-! DEFINITION. The interleaved-plane remodulator (44_remodulator.md): the sequence of emission transactions of an ENCODE. -/

namespace Sys2Proof.Machine

/-- `TrueCsum(s)` (44_remodulator.md R127); `none` if a byte of the sector is unwritten. -/
def trueCsum (m : Memory) (s : Nat) : Option Word16 := (secWords m s).map csum

/-- `EncCsum(s)`: the sum, complemented when `EMASK[s]` = 0 (44_remodulator.md R128). -/
def encCsum (m : Memory) (emask : BitVec 6) (s : Nat) : Option Word16 :=
  (trueCsum m s).map fun c => if validBit emask s then c else ~~~c

/-- The logical word of group `g`: sector `g div 513`'s checksum, or its data word `g mod 513 - 1`
(44_remodulator.md R124). -/
def groupWord (m : Memory) (emask : BitVec 6) (g : Nat) : Option Word16 :=
  if g % Config.gw = 0 then encCsum m emask (g / Config.gw)
  else secWord m (g / Config.gw) (g % Config.gw - 1)

/-- `Txn(i)` for i = 3 .. 6158, with j = i - 3: group j div 2, EVEN when j is even and ODD when it is odd
(44_remodulator.md R124, R129, R130). -/
def planeTxn (p : Params) (b : Block) (j : Nat) : Option TxnRecord :=
  (groupWord b.secbuf b.emask (j / 2)).map fun v =>
    if j % 2 = 0 then emitRecord 0x50 16 p.speed (v.setWidth 32) else emitRecord 0x60 16 p.speed (v.setWidth 32)

/-- `Txn(i)` for i = 0 .. 6159 (44_remodulator.md R124 to R131). -/
def txnAt (p : Params) (b : Block) (i : Nat) : Except Fault TxnRecord :=
  if i = 0 then .ok (setupRecord b.eoff p.trackLen)
  else if i = 1 then .ok (emitRecord 0x40 16 p.speed (p.mark1.setWidth 32))
  else if i = 2 then .ok (emitRecord 0x40 32 p.speed p.mark2)
  else if i < 6159 then
    match planeTxn p b (i - 3) with
    | some r => .ok r
    | none => .error (.sectorBufferUnwritten i)
  else if i = 6159 then .ok finalizeRecord
  else .error (.noTransaction i)

/-- The end of the EMIT step: `TI` advances, and after TXN 6159 the ENCODE ends with OK (44_remodulator.md R123,
40_commands.md R89). -/
def Block.advanceTxn (b : Block) : Block :=
  if b.ti + 1 = Config.txnCount then { b with ti := b.ti + 1, result := .ok, phase := .idle }
  else { b with ti := b.ti + 1 }

end Sys2Proof.Machine
end

