-- ==== Sys2Proof/Machine/SyncDetector.lean ====
section
/-! DEFINITION. The sync detector (41_sync_detector.md): the steps of phases D_SCAN and D_CONFIRM. -/

namespace Sys2Proof.Machine

/-- The SCAN step on the block once its cell is read (41_sync_detector.md R94, R96). -/
def Block.scanCell (b : Block) (mark1 : Word16) (c : Bool) : Block :=
  let b' := b.takeCell c
  if b'.fill = 16 ∧ lastHalf b'.w = mark1 then
    { b' with candOff := b.pos - 15, cnt := 0, phase := .dConfirm }
  else b'

/-- The CONFIRM step on the block once its cell is read (41_sync_detector.md R95). A mismatch resumes the scan at the next
unread cell (R97). -/
def Block.confirmCell (b : Block) (mark2 : Word32) (c : Bool) : Block :=
  let b' := { b.takeCell c with cnt := b.cnt + 1 }
  if b'.cnt = 32 then
    if b'.w = mark2 then { b' with cnt := 0, wi := 0, new := 0, phase := .dDemod }
    else { b' with cnt := 0, phase := .dScan }
  else b'

/-- The SCAN step (41_sync_detector.md R94); `EOS` ends the DECODE through D_FINISH (R99). -/
def scanStep (s : State) : State :=
  match readCell s with
  | .hold s' => s'
  | .eos => s.setPhase .dFinish
  | .cell c s' => { s' with block := s'.block.scanCell s'.params.mark1 c }

/-- The CONFIRM step (41_sync_detector.md R95); `EOS` abandons the attempt (R99). -/
def confirmStep (s : State) : State :=
  match readCell s with
  | .hold s' => s'
  | .eos => s.setPhase .dFinish
  | .cell c s' => { s' with block := s'.block.confirmCell s'.params.mark2 c }

end Sys2Proof.Machine
end

