-- ==== Sys2Proof/Machine/Validator.lean ====
section
/-! DEFINITION. The sector checksum validator (43_checksum_validator.md): the steps of phases D_VALIDATE and D_FINISH. -/

namespace Sys2Proof.Machine

/-- The checksum word `WB[513*s]` and the 512 body words of sector `s` (10_state.md R34, 43_checksum_validator.md R111);
`none` if one of them is unwritten. -/
def wbSector (wb : WordBuffer) (s : Nat) : Option (Word16 × List Word16) :=
  match sparseRead wb (Config.gw * s), sparseRun wb (Config.gw * s + 1) Config.wps with
  | some c, some body => some (c, body)
  | _, _ => none

/-- VALIDATE's treatment of one sector (43_checksum_validator.md R112 to R115): a valid sector is skipped; a sector whose
sum equals its checksum word becomes valid and its body is copied; any other is left as it is. -/
def Block.validateSector (b : Block) (s : Nat) : Except Fault Block :=
  if validBit b.validMask s then .ok b
  else
    match wbSector b.wb s with
    | none => .error (.wordBufferUnwritten s)
    | some (c, body) =>
      if csum body = c then
        .ok { b with
          validMask := setValid b.validMask s
          secbuf := writeSlot b.secbuf s body
          new := b.new + 1 }
      else .ok b

/-- Sectors `s`, `s + 1`, …, `n` of them, in index order (43_checksum_validator.md R112). -/
def Block.validateFrom : (s n : Nat) → Block → Except Fault Block
  | _, 0, b => .ok b
  | s, n + 1, b =>
    match b.validateSector s with
    | .error f => .error f
    | .ok b' => Block.validateFrom (s + 1) n b'

/-- The end of the VALIDATE step: the offset commit (43_checksum_validator.md R116) and the next phase (R117,
41_sync_detector.md R100). -/
def Block.endAttempt (b : Block) : Block :=
  { b with
    dataBitoff := if b.new > 0 then b.candOff else b.dataBitoff
    phase := if b.validMask = 0x3F then .dFinish else .dScan }

/-- The VALIDATE step (43_checksum_validator.md R112). -/
def validateStep (s : State) : Host.Outcome State Fault Refusal :=
  match Block.validateFrom 0 Config.nsec s.block with
  | .error f => .fault f
  | .ok b => .next { s with block := b.endAttempt }

/-- The FINISH step on the block (43_checksum_validator.md R119). -/
def Block.finish (b : Block) : Block :=
  if b.validMask ≠ 0 then
    { b with hdrSecsize := 1024, hdrNsec := 6, hdrLen := 6144, result := .ok, phase := .idle }
  else { b with result := .noData, phase := .idle }

/-- The FINISH step (43_checksum_validator.md R119). -/
def finishStep (s : State) : State := { s with block := s.block.finish }

end Sys2Proof.Machine
end

