-- ==== Sys2Proof/Machine/BlockStep.lean ====
section
/-! DEFINITION. One step of the block (10_state.md R33, 40_commands.md R85, R88): the step of its phase. -/

namespace Sys2Proof.Machine

/-- `FluxRender(t)`: a TXN rendered according to its header (45_flux_encoder.md R136); a header the block never produces is
refused (30_encoding.md R74). -/
def renderTxn (r : TxnRecord) (s : State) : Host.Outcome State Fault Refusal :=
  match decodeTxn r with
  | .ok i => exec i s
  | .error e => .refused (.headerNeverProduced e)

/-- The EMIT step (44_remodulator.md R123): `EmitTxn(t)`, then `FluxRender(t)`, then `TI`. The step is held whole while the
sink is not ready (20_memory.md R60; log 12). -/
def emitStep (s : State) : Host.Outcome State Fault Refusal :=
  match askSink s with
  | .hold s' => .next s'
  | .ready s' =>
    match txnAt s'.params s'.block s'.block.ti with
    | .error f => .fault f
    | .ok r =>
      match renderTxn r (s'.emitTxn r) with
      | .next t => .next { t with block := t.block.advanceTxn }
      | .fault f => .fault f
      | .refused e => .refused e

/-- One step of the block. While IDLE it takes no step (20_memory.md R54; log 4). -/
def blockStep (s : State) : Host.Outcome State Fault Refusal :=
  match s.block.phase with
  | .idle => .next s
  | .dScan => .next (scanStep s)
  | .dConfirm => .next (confirmStep s)
  | .dDemod => .next (demodStep s)
  | .dValidate => validateStep s
  | .dFinish => .next (finishStep s)
  | .eEmit => emitStep s

/-- The flux encoder taken alone renders the record at the head of its port (30_encoding.md R74, 45_flux_encoder.md R141;
log 17), when the sink is ready (20_memory.md R60). -/
def fluxPortStep (r : TxnRecord) (rest : List TxnRecord) (s : State) : Host.Outcome State Fault Refusal :=
  match askSink s with
  | .hold s' => .next s'
  | .ready s' => renderTxn r { s' with fluxIn := rest }

end Sys2Proof.Machine
end

