-- ==== Sys2Proof/Machine/HostBus.lean ====
section
/-! DEFINITION. The host bus (20_memory.md sections 3 and 5, 10_state.md R39, R40): the legality of an access, and what a
legal read or write does. A write to `CMD` issues the command its value encodes. -/

namespace Sys2Proof.Machine

/-- The parts of the register window (20_memory.md R42, R47 to R49). Offsets 0x001D to 0x001F are bytes of `HDR_LEN`'s
word: they are in the register part (log 7). -/
inductive Region where
  | registers
  | secbuf
  | none
deriving DecidableEq, Repr

/-- The part of the window an offset lies in; `none` where it is reserved or unmapped (20_memory.md R49). -/
def regionOf (offset : BitVec 16) : Region :=
  if offset.toNat < 0x0020 then .registers
  else if offset.toNat < 0x1000 then .none
  else if offset.toNat < 0x2800 then .secbuf
  else .none

/-- The buffer offset of a window offset in `SECBUF` (20_memory.md R52). -/
def bufferOffset (offset : BitVec 16) : Nat := offset.toNat - 0x1000

/-- The two accesses allowed while BUSY = 1: a 32-bit read of `STATUS`, a 32-bit write of `CMD` (10_state.md R40). -/
def allowedWhileBusy (offset : BitVec 16) (width : Nat) (dir : Direction) : Bool :=
  match dir with
  | .read => decide (offset = 0x0004 ∧ width = 4)
  | .write => decide (offset = 0x0000 ∧ width = 4)

/-- Whether the part of the window takes accesses of this width (20_memory.md R47, R48). -/
def widthOk (r : Region) (width : Nat) : Bool :=
  match r with
  | .registers => decide (width = 4)
  | .secbuf => decide (width = 1 ∨ width = 2 ∨ width = 4)
  | .none => false

/-- The first fault that applies to an access, apart from UNINIT_READ: BUSY_ACCESS, then BUS_UNMAPPED, then BUS_WIDTH,
then BUS_ALIGN (20_memory.md R51, 60_exceptions.md R156). -/
def accessFault (b : Block) (offset : BitVec 16) (width : Nat) (dir : Direction) : Option RecordedFault :=
  if b.busy && !allowedWhileBusy offset width dir then some (.busyAccess offset width dir)
  else if regionOf offset = .none then some (.busUnmapped offset width dir)
  else if !widthOk (regionOf offset) width then some (.busWidth offset width)
  else if offset.toNat % width ≠ 0 then some (.busAlign offset width)
  else none

/-- A write of the word `w` to `CMD` (10_state.md R21, 30_encoding.md R67): the command it encodes; any other word is
dropped with `CMDERR` (40_commands.md R91, R92). -/
def issueCommand (w : Word32) (s : State) : Host.Outcome State Fault Refusal :=
  match decodeCommand w with
  | .ok i => exec i s
  | .error _ => .next s.dropCommand

/-- A read whose access raises none of the first four faults: a register's value, or `SECBUF` bytes composed big-endian
(20_memory.md R45); an unwritten byte raises UNINIT_READ and returns no value (R50). No read has a side effect (R55). -/
def legalRead (offset : BitVec 16) (width : Nat) (s : State) : State :=
  match registerAt offset with
  | some r => s.recordRead offset width (s.block.readRegister r)
  | none =>
    match memRead s.block.secbuf (bufferOffset offset) width with
    | some v => s.recordRead offset width v
    | none => s.raise (.uninitRead offset width)

/-- A write whose access raises no fault: `CMD` issues a command, another register takes the value as it does, `SECBUF`
takes the value's low bytes big-endian (20_memory.md R45, R50, R55; log 8). -/
def legalWrite (offset : BitVec 16) (width : Nat) (v : Word32) (s : State) : Host.Outcome State Fault Refusal :=
  match registerAt offset with
  | some .cmd => issueCommand v s
  | some r => .next { s with block := s.block.writeRegister r v }
  | none => .next { s with block := { s.block with secbuf := memWrite s.block.secbuf (bufferOffset offset) width v } }

/-- A host read (30_encoding.md R79). -/
def hostRead (offset : BitVec 16) (width : Nat) (s : State) : State :=
  match accessFault s.block offset width .read with
  | some f => s.raise f
  | none => legalRead offset width s

/-- A host write (30_encoding.md R79). -/
def hostWrite (offset : BitVec 16) (width : Nat) (v : Word32) (s : State) : Host.Outcome State Fault Refusal :=
  match accessFault s.block offset width .write with
  | some f => .next (s.raise f)
  | none => legalWrite offset width v s

end Sys2Proof.Machine
end

