-- ==== Sys2Proof/Machine/HostScript.lean ====
section
/-! DEFINITION. The host's script (30_encoding.md R82): what its next operation does, and the pseudo-instructions and
their expansions. -/

namespace Sys2Proof.Machine

/-- The reset input (70_reset_and_hazards.md R164, R165): every state element of the block takes its reset value, a running
command ends at once, and what the sink holds stays with it (log 9). -/
def assertReset (s : State) : State := { s with block := Block.reset }

/-- The host's next operation `op`, with `rest` after it. -/
def scriptStep (op : HostOp) (rest : List HostOp) (s : State) : Host.Outcome State Fault Refusal :=
  match op with
  | .read offset width => .next (hostRead offset width { s with script := rest })
  | .write offset width v => hostWrite offset width v { s with script := rest }
  | .stream answers => .next { s with script := rest, nextStream := answers }
  | .wait =>
    if s.block.busy then blockStep s
    else .next (hostRead 0x0004 4 { s with script := rest })
  | .run => blockStep { s with script := rest }
  | .reset => .next (assertReset { s with script := rest })

/-- `NOP` = `W32 0x0000, 0x00000000` (30_encoding.md R82). -/
def scriptNop : HostOp := .write 0x0000 4 0x00000000

/-- `DECODE` = `W32 0x0000, 0x00000001` (30_encoding.md R82). -/
def scriptDecode : HostOp := .write 0x0000 4 0x00000001

/-- `ENCODE` = `W32 0x0000, 0x00000002` (30_encoding.md R82). -/
def scriptEncode : HostOp := .write 0x0000 4 0x00000002

/-- `CLRERR` = `W32 0x0004, 0x00000008` (30_encoding.md R82). -/
def scriptClrErr : HostOp := .write 0x0004 4 0x00000008

/-- `FILL off, n, w16`: `n` consecutive `W16` writes (30_encoding.md R82). -/
def scriptFill (offset : BitVec 16) (n : Nat) (w16 : Word16) : List HostOp :=
  (List.range n).map fun k => .write (offset + BitVec.ofNat 16 (2 * k)) 2 (w16.setWidth 32)

/-- `STREAM cells`: a source that is always ready with these cells (30_encoding.md R82). -/
def scriptStream (cells : List Bool) : HostOp := .stream (cells.map .cell)

/-- The record the host's script makes of an encoding: a command is a 32-bit write of its word to `CMD`
(30_encoding.md R67); a TXN is put to the flux encoder's port (log 17). The sink is made ready for the TXN. -/
def State.place (s : State) : Encoding → State
  | .command w => { s with script := .write 0x0000 4 w :: s.script, fluxIn := [] }
  | .transaction r => { s with fluxIn := r :: s.fluxIn, sinkAnswers := [] }

end Sys2Proof.Machine
end

