-- ==== Sys2Proof/Machine/Step.lean ====
section
/-! DEFINITION. One step of the machine: one action of one agent (00_scope.md R18, 20_memory.md R54, R61). Which agent
moves is data in the state (log 3). -/

namespace Sys2Proof.Machine

/-- The flux encoder's port if a record stands there; else the host's next operation; else the block. -/
def step (s : State) : Host.Outcome State Fault Refusal :=
  match s.fluxIn with
  | r :: rest => fluxPortStep r rest s
  | [] =>
    match s.script with
    | op :: rest => scriptStep op rest s
    | [] => blockStep s

/-- `s` with the instruction whose bits the opcode table numbers `w` placed where `step` takes its next one from: the
host's next operation for a command word, the flux encoder's port for a TXN header (log 20). -/
def State.withFetchWord (s : State) (nbits w : Nat) : State :=
  match tableEncoding nbits w with
  | some e => s.place e
  | none => s

end Sys2Proof.Machine
end

