-- ==== Sys2Proof/Safety.lean ====
section
/-! DEFINITION. The terms claims are made in: a run without recorded faults, the invariant every step keeps, and the
reading of a track image. -/

namespace Sys2Proof.Machine

/-- No fault is recorded: "a run that records a fault has no meaning for a claim" (60_exceptions.md R154). -/
def State.noFault (s : State) : Prop := s.faults = []

/-- Nothing but the block is left to move: no record at the flux port, no host operation. -/
def State.quiet (s : State) : Prop := s.fluxIn = [] ∧ s.script = []

/-- A phase of the decoder (10_state.md R33). -/
def Phase.decoding (p : Phase) : Prop := p ≠ .idle ∧ p ≠ .eEmit

/-- The source answers every `ReadCell()` in the end (70_reset_and_hazards.md R177). -/
def SourceAnswers (l : List SourceAnswer) : Prop := SourceAnswer.never ∉ l

/-- The sink is ready for the next emission, and `rest` is what it answers to the ones after (20_memory.md R60): it accepts
in so many words, or its answers have ended, which means ready (log 12). -/
def SinkReady (answers rest : List SinkAnswer) : Prop := (answers = [] ∧ rest = []) ∨ answers = .accept :: rest

/-- The answers without the ones that only hold the block. -/
def withoutHolds (l : List SourceAnswer) : List SourceAnswer := l.filter (· ≠ .notReady)

/-- The header fields are all 0, or 1024, 6 and 6144 (10_state.md R26). -/
def Block.headerLegal (b : Block) : Prop :=
  (b.hdrSecsize = 0 ∧ b.hdrNsec = 0 ∧ b.hdrLen = 0) ∨ (b.hdrSecsize = 1024 ∧ b.hdrNsec = 6 ∧ b.hdrLen = 6144)

/-- Every slot whose `VALID` bit is 0 holds the sentinel bytes (43_checksum_validator.md R118). -/
def Block.sentinelSlots (t : Sentinel) (b : Block) : Prop :=
  ∀ i < Config.bufLen, validBit b.validMask (i / Config.secBytes) = false → memByte b.secbuf i = some (sentinelByte t i)

/-- Entries 0 .. n-1 of `WB` are written. -/
def wordsWritten (wb : WordBuffer) (n : Nat) : Prop := ∀ i < n, (sparseRead wb i).isSome = true

/-- What holds in every decoder phase: DECODE is the last command, the headers are cleared (40_commands.md R84), every
`SECBUF` byte is written, the slots without a valid sector hold the sentinel (43_checksum_validator.md R118), and no
offset is committed before a sector is valid (R116, R121). -/
def Block.decodeRunning (t : Sentinel) (b : Block) : Prop :=
  b.lastCmd = .decode ∧ (b.hdrSecsize = 0 ∧ b.hdrNsec = 0 ∧ b.hdrLen = 0) ∧ allWritten b.secbuf = true ∧
    b.sentinelSlots t ∧ (b.validMask = 0 → b.dataBitoff = 0)

/-- The cells an ENCODE has emitted before TXN `i` (44_remodulator.md R124): 16 and 32 for the marks, then 16 a TXN. -/
def cellsBefore (i : Nat) : Nat :=
  if i ≤ 1 then 0 else if i = 2 then 16 else 48 + 16 * (min i 6159 - 3)

/-- What holds in each phase (10_state.md R33), the candidate offset among it (41_sync_detector.md R96) and the position of
the next output cell (45_flux_encoder.md R144). -/
def Block.phaseInv (t : Sentinel) (b : Block) : Prop :=
  match b.phase with
  | .idle => True
  | .dScan => b.decodeRunning t
  | .dConfirm => b.decodeRunning t ∧ b.candOff = b.pos - BitVec.ofNat 32 (16 + b.cnt)
  | .dDemod =>
    b.decodeRunning t ∧ b.wi < Config.tw ∧ b.new = 0 ∧ wordsWritten b.wb b.wi ∧
      b.candOff = b.pos - BitVec.ofNat 32 (48 + 32 * b.wi + b.cnt)
  | .dValidate =>
    b.decodeRunning t ∧ b.new = 0 ∧ wordsWritten b.wb Config.tw ∧ b.candOff = b.pos - BitVec.ofNat 32 98544
  | .dFinish => b.decodeRunning t
  | .eEmit =>
    b.lastCmd = .encode ∧ allWritten b.secbuf = true ∧ b.ti < Config.txnCount ∧
      (1 ≤ b.ti → b.opos = b.eoff + BitVec.ofNat 32 (cellsBefore b.ti))

/-- The invariant of the block under the parameters `t`: memories in canonical form, counters in their ranges
(10_state.md R30, R32, R35), legal headers, and what the phase asks. -/
structure Block.Inv (t : Sentinel) (b : Block) : Prop where
  secbuf_wf : Memory.wf b.secbuf = true
  wb_wf : WordBuffer.wf b.wb = true
  fill_le : b.fill ≤ 16
  cnt_lt : b.cnt < 32
  wi_le : b.wi ≤ Config.tw
  new_le : b.new ≤ Config.nsec
  ti_le : b.ti ≤ Config.txnCount
  header : b.headerLegal
  phase_inv : b.phaseInv t

/-- The invariant of the machine: the block's, and no record at the flux encoder's port, which only the outside fills
(30_encoding.md R74). -/
def State.Inv (s : State) : Prop := Block.Inv s.params.sentinel s.block ∧ s.fluxIn = []

/-- The data bit `k` of a plane of `VALUE`: `VALUE[2k + odd]`, `odd` = 1 for EMIT.EVEN and 0 for EMIT.ODD
(45_flux_encoder.md R139, R140). -/
def planeBit (value : Word32) (odd k : Nat) : Bool := value.getLsbD (2 * k + odd)

/-- Cell `j` of the `2n` that an EMIT of `n` data bits of a plane emits after a data bit or cell `prev`: data bit
k = n - 1 - j/2 when `j` is odd, and before it its clock cell, 1 exactly when both that bit and the one before are 0
(45_flux_encoder.md R139, R143). -/
def planeCell (prev : Bool) (value : Word32) (odd n j : Nat) : Bool :=
  let k := n - 1 - j / 2
  let before := if k + 1 = n then prev else planeBit value odd (k + 1)
  if j % 2 = 1 then planeBit value odd k else decide (before = false ∧ planeBit value odd k = false)

/-- The records of the cells `f 0` … `f (n-1)` at positions from `pos` on, newest first (30_encoding.md R78). -/
def cellRecords (pos : Word32) (speed : Word16) (n : Nat) (f : Nat → Bool) : List CellRecord :=
  ((List.range n).map fun j => ⟨pos + BitVec.ofNat 32 j, f j, speed⟩).reverse

/-- Entry `i` of `WB`, 0 where it is unwritten. -/
def wbWord (wb : WordBuffer) (i : Nat) : Word16 := (sparseRead wb i).getD 0

/-- `Csum(s)` of 43_checksum_validator.md R111. -/
def wbSum (wb : WordBuffer) (s : Nat) : Word16 := ((List.range 512).map fun k => wbWord wb (513 * s + 1 + k)).sum

/-- The sector is not yet valid and its sum equals its checksum word (43_checksum_validator.md R112, R113). -/
def newlyValid (b : Block) (s : Nat) : Bool := !validBit b.validMask s && decide (wbSum b.wb s = wbWord b.wb (513 * s))

/-- The last 32 of some cells as a value, the first cell in time the most significant (00_scope.md R14). -/
def collect (cells : List Bool) : Word32 := cells.foldl shiftIn 0

/-- The cells the sink holds, in the order they were emitted. -/
def State.emittedCells (s : State) : List Bool := (s.sinkCells.map (·.cell)).reverse

/-- Cells `a` to `a + n - 1`. -/
def slice (cells : List Bool) (a n : Nat) : List Bool := (cells.drop a).take n

end Sys2Proof.Machine
end

