-- ==== Sys2Proof/Certificates/Slice0/Obligations.lean ====
section
/-! DEFINITION. The statements for the provers. Each docstring says which rule of spec/ it formalises, or that it is the
model's own. A next state written as `{ s with … }` says the whole frame: every field not named is unchanged. -/

open Sys2Proof Sys2Proof.Machine

/-! ## Reset -/

/-- 10_state.md R41: every element of the block's state at its stated reset value; every register reads 0, every `SECBUF`
byte and every `WB` entry is unwritten. -/
def Obligations.ResetLeavesStatedValues : Prop :=
  let b := State.reset.block
  statusWord b = 0 ∧ b.busy = false ∧ b.result = .none ∧ b.cmdErr = false ∧ b.lastCmd = .none ∧
  (∀ r, b.readRegister r = 0) ∧ b.validMask = 0 ∧ b.phase = .idle ∧
  (∀ i, memByte b.secbuf i = none) ∧ (∀ i, sparseRead b.wb i = none) ∧
  b.w = 0 ∧ b.pos = 0 ∧ b.candOff = 0 ∧ b.fill = 0 ∧ b.cnt = 0 ∧ b.wi = 0 ∧ b.new = 0 ∧ b.ti = 0 ∧
  b.prev = false ∧ b.opos = 0 ∧ b.emask = 0 ∧ b.eoff = 0

/-- 70_reset_and_hazards.md R164: at any moment the reset input puts the whole block in its reset values and changes no
parameter. That the source, the sink and the logs are left as they are is the model's reading (log 9). -/
def Obligations.ResetInputRestoresBlock : Prop :=
  ∀ (s : State) (rest : List HostOp), s.fluxIn = [] → s.script = .reset :: rest →
    step s = .next { s with script := rest, block := State.reset.block }

/-! ## Encodings -/

/-- 30_encoding.md R67, R73: the words and headers of the opcode table stand for their instructions; 0x00000011 and the
header 0xC0 stand for none. -/
def Obligations.TableWordsDecode : Prop :=
  decodeTableWord 32 0x00000000 = some .nop ∧ decodeTableWord 32 0x00000001 = some .decode ∧
  decodeTableWord 32 0x00000002 = some .encode ∧ decodeTableWord 32 0x00000011 = none ∧
  decodeTableWord 8 0x00 = some (.setup 0 0) ∧ decodeTableWord 8 0x40 = some (.emitRaw 0 0 0) ∧
  decodeTableWord 8 0x50 = some (.emitEven 0 0 0) ∧ decodeTableWord 8 0x60 = some (.emitOdd 0 0 0) ∧
  decodeTableWord 8 0x70 = some (.emitAll 0 0 0) ∧ decodeTableWord 8 0x80 = some .finalize ∧
  decodeTableWord 8 0xC0 = none

/-- 30_encoding.md R67: a command word is a command exactly when it is one of the three words of the table. -/
def Obligations.CommandWordsAreThree : Prop :=
  ∀ (w : Word32) (i : Instr), decodeCommand w = .ok i ↔
    (w = 0x00000000 ∧ i = .nop) ∨ (w = 0x00000001 ∧ i = .decode) ∨ (w = 0x00000002 ∧ i = .encode)

/-- 30_encoding.md R73, R74: a record has a kind exactly when its header is one of the six of the table, and the header
alone determines which payload fields it has (R81). -/
def Obligations.TxnHeadersAreSix : Prop :=
  ∀ (r : TxnRecord) (i : Instr), decodeTxn r = .ok i ↔
    (r.header = 0x00 ∧ i = .setup r.start r.len) ∨ (r.header = 0x40 ∧ i = .emitRaw r.nbits r.speed r.value) ∨
    (r.header = 0x50 ∧ i = .emitEven r.nbits r.speed r.value) ∨ (r.header = 0x60 ∧ i = .emitOdd r.nbits r.speed r.value) ∨
    (r.header = 0x70 ∧ i = .emitAll r.nbits r.speed r.value) ∨ (r.header = 0x80 ∧ i = .finalize)

/-- Decode and encode agree. Every well-formed instruction, with every operand, decodes from its encoding. Each encoding has
one meaning: a command word that decodes is the encoding of what it decodes to, and so is a record, apart from the payload
fields that its kind does not have. -/
def Obligations.DecodeAndEncodeAgree : Prop :=
  (∀ i : Instr, i.wellFormed = true → Sys2Proof.decode (Sys2Proof.encode i) = .ok i) ∧
  (∀ (w : Word32) (i : Instr), Sys2Proof.decode (.command w) = .ok i → Sys2Proof.encode i = .command w) ∧
  (∀ (r : TxnRecord) (i : Instr), Sys2Proof.decode (.transaction r) = .ok i →
    ∃ r', Sys2Proof.encode i = .transaction r' ∧ r'.header = r.header ∧ decodeTxn r' = decodeTxn r)

/-! ## A step runs the decoded instruction -/

/-- A host write of a command's word to `CMD` is that command, at the state without the operation (40_commands.md R90:
the start step takes effect at the `CMD` write). -/
def Obligations.CommandWriteRunsDecodedCommand : Prop :=
  ∀ (s : State) (rest : List HostOp) (w : Word32) (i : Instr),
    s.fluxIn = [] → s.script = .write 0x0000 4 w :: rest → decodeCommand w = .ok i →
    step s = exec i { s with script := rest }

/-- A record at the flux encoder's port, with the sink ready (20_memory.md R60, log 12), is the TXN it decodes to, at the
state without the record and with the sink's answer used up. The port is the model's (log 17). -/
def Obligations.FluxPortRunsDecodedTxn : Prop :=
  ∀ (s : State) (r : TxnRecord) (rest : List TxnRecord) (answers : List SinkAnswer) (i : Instr),
    s.fluxIn = r :: rest → SinkReady s.sinkAnswers answers → decodeTxn r = .ok i →
    step s = exec i { s with fluxIn := rest, sinkAnswers := answers }

/-- 44_remodulator.md R123: an EMIT step with the sink ready (20_memory.md R60, log 12) uses up the sink's answer, takes the
TXN of `TI`, emits it, renders it as the instruction it decodes to, and advances `TI`; after TXN 6159 it ends the ENCODE
with OK. -/
def Obligations.EmitStepRunsTransaction : Prop :=
  ∀ (s t : State) (r : TxnRecord) (answers : List SinkAnswer) (i : Instr),
    s.quiet → SinkReady s.sinkAnswers answers → s.block.phase = .eEmit →
    txnAt s.params s.block s.block.ti = .ok r → decodeTxn r = .ok i →
    exec i { s with sinkAnswers := answers, sinkTxns := r :: s.sinkTxns } = .next t →
    step s = .next { t with
      block := { t.block with
        ti := t.block.ti + 1
        result := if t.block.ti + 1 = 6160 then .ok else t.block.result
        phase := if t.block.ti + 1 = 6160 then .idle else t.block.phase } }

/-! ## The host commands -/

/-- 40_commands.md R83: a NOP changes nothing while `BUSY` = 0, and is dropped with `CMDERR` while it is 1. -/
def Obligations.NopChangesNothing : Prop :=
  ∀ s : State,
    (s.block.phase = .idle → exec .nop s = .next s) ∧
    (s.block.phase ≠ .idle → exec .nop s = .next { s with block := { s.block with cmdErr := true } })

/-- 40_commands.md R91: any word written to `CMD` while `BUSY` = 1, defined or reserved, sets `CMDERR` and nothing else. -/
def Obligations.CommandWhileBusyDropped : Prop :=
  ∀ (s : State) (rest : List HostOp) (w : Word32),
    s.fluxIn = [] → s.block.phase ≠ .idle → s.script = .write 0x0000 4 w :: rest →
    step s = .next { s with script := rest, block := { s.block with cmdErr := true } }

/-- 40_commands.md R92: a reserved word written to `CMD` while `BUSY` = 0 sets `CMDERR` and nothing else. -/
def Obligations.ReservedCommandDropped : Prop :=
  ∀ (s : State) (rest : List HostOp) (w : Word32),
    s.fluxIn = [] → s.block.phase = .idle → s.script = .write 0x0000 4 w :: rest →
    w ≠ 0x00000000 → w ≠ 0x00000001 → w ≠ 0x00000002 →
    step s = .next { s with script := rest, block := { s.block with cmdErr := true } }

/-- 40_commands.md R84, 43_checksum_validator.md R110: DECODE's start step while `BUSY` = 0. The sequence the source held
for this DECODE is now the one being read; what the source holds for the one after is left open here (log 10). -/
def Obligations.DecodeStart : Prop :=
  ∀ s : State, s.block.phase = .idle →
    ∃ (m : Memory) (held : List SourceAnswer),
      (∀ i, memByte m i = if i < 6144 then
        some (if i % 4 = 0 then s.params.sentinel.s0 else if i % 4 = 1 then s.params.sentinel.s1
          else if i % 4 = 2 then s.params.sentinel.s2 else s.params.sentinel.s3) else none) ∧
      exec .decode s = .next { s with
        block := { s.block with
          lastCmd := .decode
          validMask := 0
          dataBitoff := 0
          hdrSecsize := 0
          hdrNsec := 0
          hdrLen := 0
          secbuf := m
          w := 0
          pos := s.block.startPos
          fill := 0
          cnt := 0
          wi := 0
          new := 0
          phase := .dScan }
        stream := s.nextStream
        nextStream := held }

/-- 40_commands.md R87, 44_remodulator.md R132: ENCODE's start step while `BUSY` = 0. With an unwritten `SECBUF` byte it records
UNINIT_ENCODE with the lowest one's offset and changes nothing else. -/
def Obligations.EncodeStart : Prop :=
  ∀ s : State, s.block.phase = .idle →
    ((∀ i < 6144, (memByte s.block.secbuf i).isSome = true) →
      exec .encode s = .next { s with
        block := { s.block with
          lastCmd := .encode
          emask := s.block.validMask
          eoff := s.block.dataBitoff
          ti := 0
          phase := .eEmit } }) ∧
    (∀ off < 6144, memByte s.block.secbuf off = none → (∀ i < off, (memByte s.block.secbuf i).isSome = true) →
      exec .encode s = .next { s with faults := .uninitEncode off :: s.faults })

/-! ## The flux encoder -/

/-- 45_flux_encoder.md R137: SETUP sets `OPOS` to `START` and `PREV` to 0. -/
def Obligations.SetupSetsPosition : Prop :=
  ∀ (s : State) (start len : Word32),
    exec (.setup start len) s = .next { s with block := { s.block with opos := start, prev := false } }

/-- 45_flux_encoder.md R138: EMIT.RAW emits `VALUE[NBITS-1]` down to `VALUE[0]` at consecutive positions, and `PREV` is the
last cell. -/
def Obligations.RawEmitsValueBits : Prop :=
  ∀ (s : State) (nbits : BitVec 6) (speed : Word16) (value : Word32), 1 ≤ nbits.toNat → nbits.toNat ≤ 32 →
    exec (.emitRaw nbits speed value) s = .next { s with
      sinkCells := cellRecords s.block.opos speed nbits.toNat (fun j => value.getLsbD (nbits.toNat - 1 - j)) ++ s.sinkCells
      block := { s.block with opos := s.block.opos + BitVec.ofNat 32 nbits.toNat, prev := value.getLsbD 0 } }

/-- 45_flux_encoder.md R139, R143: EMIT.EVEN of `NBITS` = 2m emits, for each odd-position bit of the value from high to
low, its clock cell and the bit; `PREV` is the last bit. -/
def Obligations.EvenEmitsOddPositionBits : Prop :=
  ∀ (s : State) (nbits : BitVec 6) (speed : Word16) (value : Word32) (m : Nat),
    nbits.toNat = 2 * m → 1 ≤ m → m ≤ 16 →
    exec (.emitEven nbits speed value) s = .next { s with
      sinkCells := cellRecords s.block.opos speed (2 * m) (planeCell s.block.prev value 1 m) ++ s.sinkCells
      block := { s.block with opos := s.block.opos + BitVec.ofNat 32 (2 * m), prev := value.getLsbD 1 } }

/-- 45_flux_encoder.md R140, R143: EMIT.ODD of `NBITS` = 2m, the same for the even-position bits. -/
def Obligations.OddEmitsEvenPositionBits : Prop :=
  ∀ (s : State) (nbits : BitVec 6) (speed : Word16) (value : Word32) (m : Nat),
    nbits.toNat = 2 * m → 1 ≤ m → m ≤ 16 →
    exec (.emitOdd nbits speed value) s = .next { s with
      sinkCells := cellRecords s.block.opos speed (2 * m) (planeCell s.block.prev value 0 m) ++ s.sinkCells
      block := { s.block with opos := s.block.opos + BitVec.ofNat 32 (2 * m), prev := value.getLsbD 0 } }

/-- The model's choices for the other values of `NBITS` (log 14, log 15): 0 emits nothing; an odd `NBITS` of a plane EMIT
counts `NBITS/2` data bits; a RAW EMIT of more than 32 bits emits a free cell for every bit that `VALUE` does not have, then
the 32 it has; a plane EMIT of more than 32 bits takes its data bits from `VALUE` where it has them, any others are free,
and its clock cells and `PREV` follow from the data bits as always. -/
def Obligations.OtherNbitsEmit : Prop :=
  ∀ (s : State) (nbits : BitVec 6) (speed : Word16) (value : Word32),
    (nbits = 0 → exec (.emitRaw nbits speed value) s = .next s ∧ exec (.emitEven nbits speed value) s = .next s ∧
      exec (.emitOdd nbits speed value) s = .next s) ∧
    (∀ m, nbits.toNat = 2 * m + 1 →
      exec (.emitEven nbits speed value) s = exec (.emitEven (BitVec.ofNat 6 (2 * m)) speed value) s ∧
      exec (.emitOdd nbits speed value) s = exec (.emitOdd (BitVec.ofNat 6 (2 * m)) speed value) s) ∧
    (32 < nbits.toNat → ∃ (f : Nat → Bool) (free : Nat),
      (∀ j, nbits.toNat - 32 ≤ j → j < nbits.toNat → f j = value.getLsbD (nbits.toNat - 1 - j)) ∧
      exec (.emitRaw nbits speed value) s = .next { s with
        sinkCells := cellRecords s.block.opos speed nbits.toNat f ++ s.sinkCells
        block := { s.block with opos := s.block.opos + BitVec.ofNat 32 nbits.toNat, prev := value.getLsbD 0 }
        freeCount := free }) ∧
    (32 < nbits.toNat → ∀ (i : Instr) (odd : Nat),
      (i = .emitEven nbits speed value ∧ odd = 1) ∨ (i = .emitOdd nbits speed value ∧ odd = 0) →
      ∃ (f : Nat → Bool) (free : Nat),
        (∀ k < nbits.toNat / 2, 2 * k + odd < 32 → f (2 * (nbits.toNat / 2 - 1 - k) + 1) = value.getLsbD (2 * k + odd)) ∧
        (∀ k < nbits.toNat / 2,
          f (2 * k) = !((if k = 0 then s.block.prev else f (2 * k - 1)) || f (2 * k + 1))) ∧
        exec i s = .next { s with
          sinkCells := cellRecords s.block.opos speed (2 * (nbits.toNat / 2)) f ++ s.sinkCells
          block := { s.block with
            opos := s.block.opos + BitVec.ofNat 32 (2 * (nbits.toNat / 2)), prev := f (2 * (nbits.toNat / 2) - 1) }
          freeCount := free })

/-- 30_encoding.md R74, 45_flux_encoder.md R141: EMIT.ALL is refused rather than given cells, and so is every header that is
no TXN's; the block never produces one of them. -/
def Obligations.EmitAllAndUnproducedHeadersRefused : Prop :=
  let unproduced (h : Byte) : Prop :=
    h.extractLsb' 6 2 = 0b11 ∨ h.extractLsb' 0 4 ≠ 0 ∨
      ((h.extractLsb' 6 2 = 0b00 ∨ h.extractLsb' 6 2 = 0b10) ∧ h.extractLsb' 4 2 ≠ 0) ∨ h = 0x70
  (∀ (s : State) (nbits : BitVec 6) (speed : Word16) (value : Word32),
    exec (.emitAll nbits speed value) s = .refused .emitAllHasNoCellRule) ∧
  (∀ (s : State) (r : TxnRecord), unproduced r.header → ∃ e, renderTxn r s = .refused e) ∧
  (∀ (p : Params) (b : Block) (i : Nat) (r : TxnRecord), txnAt p b i = .ok r → ¬ unproduced r.header)

/-- 45_flux_encoder.md R142: FINALIZE emits no cell and writes no state. -/
def Obligations.FinalizeChangesNothing : Prop :=
  ∀ s : State, exec .finalize s = .next s

/-- 45_flux_encoder.md, cell-level properties: in what EMIT.EVEN and EMIT.ODD add to the sink, no 1 cell follows a 1 cell,
the first new cell is 0 after a `PREV` of 1, and `PREV` is then the last new cell. That an odd `NBITS` (3 to 31) gives
`2 * (NBITS/2)` cells is the model's own rounding (log 14); an even one gives `NBITS` cells by R139 and R140. -/
def Obligations.PlaneCellsHaveNoAdjacentOnes : Prop :=
  ∀ (s : State) (i : Instr) (nbits : BitVec 6) (speed : Word16) (value : Word32),
    2 ≤ nbits.toNat → nbits.toNat ≤ 32 → i = .emitEven nbits speed value ∨ i = .emitOdd nbits speed value →
    ∃ (t : State) (new : List Bool),
      exec i s = .next t ∧ t.emittedCells = s.emittedCells ++ new ∧ new.length = 2 * (nbits.toNat / 2) ∧
      (∀ j, new[j]? = some true → new[j + 1]? ≠ some true) ∧
      (s.block.prev = true → new[0]? = some false) ∧
      new.getLast? = some t.block.prev

/-- 45_flux_encoder.md, cell-level properties: the 32 cells of a word's EVEN and ODD emissions are a group that
demodulates to the word. -/
def Obligations.EmittedWordDemodulates : Prop :=
  ∀ (s : State) (speed word : Word16),
    ∃ (s₁ s₂ : State) (new : List Bool),
      exec (.emitEven 16 speed (word.setWidth 32)) s = .next s₁ ∧
      exec (.emitOdd 16 speed (word.setWidth 32)) s₁ = .next s₂ ∧
      s₂.emittedCells = s.emittedCells ++ new ∧ new.length = 32 ∧ demod (collect new) = word

/-! ## The demodulation function -/

/-- 42_demodulator.md R104: the formula, and what it says bit by bit: bit 2k+1 of the word is the k-th data cell of the
even-plane half, bit 2k that of the odd-plane half. -/
def Obligations.DemodInterleavesPlanes : Prop :=
  ∀ g : Word32,
    demod g = (((g >>> 15) &&& 0x0000AAAA) ||| (g &&& 0x00005555)).setWidth 16 ∧
    ∀ k < 8, (demod g).getLsbD (2 * k + 1) = g.getLsbD (16 + 2 * k) ∧ (demod g).getLsbD (2 * k) = g.getLsbD (2 * k)

/-- 42_demodulator.md, plane split: the planes of `Demod(G)` are exactly the data cells of `G`'s halves, and a group whose
halves carry a word's planes demodulates to the word. -/
def Obligations.PlanesAreRecovered : Prop :=
  (∀ g : Word32, evenPlane (demod g) = dataCells (evenHalf g) ∧ oddPlane (demod g) = dataCells (oddHalf g)) ∧
  (∀ (g : Word32) (w : Word16), dataCells (evenHalf g) = evenPlane w → dataCells (oddHalf g) = oddPlane w → demod g = w)

/-! ## The decoder's steps -/

/-- 41_sync_detector.md R94: the SCAN step. -/
def Obligations.ScanStep : Prop :=
  ∀ s : State, s.quiet → s.block.phase = .dScan →
    (s.stream = [] → step s = .next { s with block := { s.block with phase := .dFinish } }) ∧
    (∀ (c : Bool) (rest : List SourceAnswer), s.stream = .cell c :: rest →
      let w := (s.block.w <<< 1) ||| (BitVec.ofBool c).setWidth 32
      let fill := if s.block.fill + 1 ≤ 16 then s.block.fill + 1 else 16
      step s = .next { s with
        stream := rest
        block := if fill = 16 ∧ w.extractLsb' 0 16 = s.params.mark1
          then { s.block with
            pos := s.block.pos + 1, w := w, fill := fill, candOff := s.block.pos - 15, cnt := 0, phase := .dConfirm }
          else { s.block with pos := s.block.pos + 1, w := w, fill := fill } })

/-- 41_sync_detector.md R95: the CONFIRM step; a mismatch returns to the scan (SyncMismatch). -/
def Obligations.ConfirmStep : Prop :=
  ∀ s : State, s.quiet → s.block.phase = .dConfirm →
    (s.stream = [] → step s = .next { s with block := { s.block with phase := .dFinish } }) ∧
    (∀ (c : Bool) (rest : List SourceAnswer), s.stream = .cell c :: rest →
      let w := (s.block.w <<< 1) ||| (BitVec.ofBool c).setWidth 32
      let fill := if s.block.fill + 1 ≤ 16 then s.block.fill + 1 else 16
      let b := { s.block with pos := s.block.pos + 1, w := w, fill := fill }
      step s = .next { s with
        stream := rest
        block :=
          if s.block.cnt + 1 = 32 then
            if w = s.params.mark2 then { b with cnt := 0, wi := 0, new := 0, phase := .dDemod }
            else { b with cnt := 0, phase := .dScan }
          else { b with cnt := s.block.cnt + 1 } })

/-- 42_demodulator.md R103: the DEMOD step; the 32nd cell of a group stores its word at `WB[WI]`, and no other entry
changes. -/
def Obligations.DemodStep : Prop :=
  ∀ s : State, s.quiet → s.block.phase = .dDemod →
    (s.stream = [] → step s = .next { s with block := { s.block with phase := .dFinish } }) ∧
    (∀ (c : Bool) (rest : List SourceAnswer), s.stream = .cell c :: rest →
      let w := (s.block.w <<< 1) ||| (BitVec.ofBool c).setWidth 32
      let fill := if s.block.fill + 1 ≤ 16 then s.block.fill + 1 else 16
      let b := { s.block with pos := s.block.pos + 1, w := w, fill := fill }
      ∃ wb : WordBuffer,
        (∀ i, sparseRead wb i = if s.block.cnt + 1 = 32 ∧ i = s.block.wi
          then some ((w >>> 15).setWidth 16 &&& 0xAAAA ||| w.setWidth 16 &&& 0x5555) else sparseRead s.block.wb i) ∧
        step s = .next { s with
          stream := rest
          block :=
            if s.block.cnt + 1 = 32 then
              { b with
                wb := wb, wi := s.block.wi + 1, cnt := 0
                phase := if s.block.wi + 1 = 3078 then .dValidate else .dDemod }
            else { b with cnt := s.block.cnt + 1, wb := wb } })

/-- 60_exceptions.md R149: `EOS` in D_SCAN, D_CONFIRM or D_DEMOD ends the DECODE through D_FINISH and has no other
effect. -/
def Obligations.StreamExhaustedFinishes : Prop :=
  ∀ s : State, s.quiet → s.block.phase = .dScan ∨ s.block.phase = .dConfirm ∨ s.block.phase = .dDemod →
    s.stream = [] → step s = .next { s with block := { s.block with phase := .dFinish } }

/-- 43_checksum_validator.md R112, R113, R114: the VALIDATE step over a demodulated attempt. Exactly the sectors not yet
valid whose sum equals their checksum word become valid; their slots hold their body words big-endian; every other byte is
unchanged; the offset is committed when there is one; the DECODE ends when all six are valid. -/
def Obligations.ValidateStepJudgesSectors : Prop :=
  ∀ s : State, s.quiet → s.block.phase = .dValidate → (∀ i < 3078, (sparseRead s.block.wb i).isSome = true) →
    ∃ (m : Memory) (mask : BitVec 6),
      (∀ i < 6, mask.getLsbD i = (s.block.validMask.getLsbD i || newlyValid s.block i)) ∧
      (∀ a, memByte m a =
        if a < 6144 ∧ newlyValid s.block (a / 1024) = true then
          let v := wbWord s.block.wb (513 * (a / 1024) + 1 + a % 1024 / 2)
          some (if a % 2 = 0 then v.extractLsb' 8 8 else v.extractLsb' 0 8)
        else memByte s.block.secbuf a) ∧
      step s = .next { s with
        block := { s.block with
          validMask := mask
          secbuf := m
          new := s.block.new + ((List.range 6).filter (newlyValid s.block)).length
          dataBitoff :=
            if s.block.new + ((List.range 6).filter (newlyValid s.block)).length > 0 then s.block.candOff
            else s.block.dataBitoff
          phase := if mask = 0x3F then .dFinish else .dScan } }

/-- 43_checksum_validator.md, inverted checksums: when the checksum word of every sector not yet valid is the complement of
its sum, VALIDATE makes no sector valid, whatever the bodies and whichever sectors were valid before: `VALID_MASK`, `SECBUF`
and `NEW` are as they were. With `NEW` = 0, as it is on entry (R112), `DATA_BITOFF` is unchanged too. -/
def Obligations.InvertedChecksumsNeverValidate : Prop :=
  ∀ s : State, s.quiet → s.block.phase = .dValidate → (∀ i < 3078, (sparseRead s.block.wb i).isSome = true) →
    (∀ k < 6, s.block.validMask.getLsbD k = false → wbWord s.block.wb (513 * k) = ~~~ wbSum s.block.wb k) →
    step s = .next { s with
      block := { s.block with
        dataBitoff := if s.block.new > 0 then s.block.candOff else s.block.dataBitoff
        phase := if s.block.validMask = 0x3F then .dFinish else .dScan } }

/-- 43_checksum_validator.md R119: the FINISH step. -/
def Obligations.FinishStepReportsResult : Prop :=
  ∀ s : State, s.quiet → s.block.phase = .dFinish →
    (s.block.validMask ≠ 0 → step s = .next { s with
      block := { s.block with hdrSecsize := 1024, hdrNsec := 6, hdrLen := 6144, result := .ok, phase := .idle } }) ∧
    (s.block.validMask = 0 → step s = .next { s with block := { s.block with result := .noData, phase := .idle } })

/-! ## The remodulator -/

/-- 44_remodulator.md R124 (with R127, R128): the transaction sequence of a fully written buffer. Word r = 0 of a sector is
its sum, complemented where its mask bit is 0; word r ≥ 1 is its data word r - 1; each goes out EVEN, then ODD. -/
def Obligations.TransactionSequence : Prop :=
  ∀ (p : Params) (b : Block), (∀ i < 6144, (memByte b.secbuf i).isSome = true) →
    let gives (i : Nat) (t : Instr) : Prop := ∃ r, txnAt p b i = .ok r ∧ decodeTxn r = .ok t
    gives 0 (.setup b.eoff p.trackLen) ∧
    gives 1 (.emitRaw 16 p.speed (p.mark1.setWidth 32)) ∧
    gives 2 (.emitRaw 32 p.speed p.mark2) ∧
    (∀ s < 6, ∀ r < 513, ∃ v : Word16,
      (r = 0 → ∃ ws : List Word16, ws.length = 512 ∧ (∀ k < 512, secWord b.secbuf s k = ws[k]?) ∧
        v = if b.emask.getLsbD s then ws.sum else ~~~ ws.sum) ∧
      (r ≠ 0 → secWord b.secbuf s (r - 1) = some v) ∧
      gives (3 + 2 * (513 * s + r)) (.emitEven 16 p.speed (v.setWidth 32)) ∧
      gives (4 + 2 * (513 * s + r)) (.emitOdd 16 p.speed (v.setWidth 32))) ∧
    gives 6159 .finalize

/-- 20_memory.md R44, R53: data word k of sector s is the big-endian pair of bytes at 1024 s + 2k. -/
def Obligations.SectorWordsAreBigEndian : Prop :=
  ∀ (m : Memory) (s k : Nat) (hi lo : Byte),
    memByte m (1024 * s + 2 * k) = some hi → memByte m (1024 * s + 2 * k + 1) = some lo →
    ∃ w : Word16, secWord m s k = some w ∧ w.extractLsb' 8 8 = hi ∧ w.extractLsb' 0 8 = lo

/-- 10_state.md, which agent writes what: a step of the encoder changes of the block nothing but `RESULT`, `phase`, `TI`,
`PREV` and `OPOS`, and reads no cell. -/
def Obligations.EncoderWritesOnlyStatus : Prop :=
  ∀ s t : State, s.quiet → s.block.phase = .eEmit → step s = .next t →
    t.block = { s.block with
      result := t.block.result, phase := t.block.phase, ti := t.block.ti, prev := t.block.prev, opos := t.block.opos } ∧
    t.stream = s.stream ∧ t.nextStream = s.nextStream ∧ t.faults = s.faults

/-- 00_scope.md, agents: a step of the decoder emits nothing and changes neither `START_POS` nor the encoder's state. -/
def Obligations.DecoderEmitsNothing : Prop :=
  ∀ s t : State, s.quiet → s.block.phase.decoding → step s = .next t →
    t.sinkTxns = s.sinkTxns ∧ t.sinkCells = s.sinkCells ∧ t.sinkAnswers = s.sinkAnswers ∧ t.faults = s.faults ∧
    t.block.startPos = s.block.startPos ∧ t.block.ti = s.block.ti ∧ t.block.prev = s.block.prev ∧
    t.block.opos = s.block.opos ∧ t.block.emask = s.block.emask ∧ t.block.eoff = s.block.eoff ∧
    t.block.cmdErr = s.block.cmdErr ∧ t.block.lastCmd = s.block.lastCmd

/-! ## The host bus -/

/-- 10_state.md R22: the fields of `STATUS`; bits 31:6 read 0. -/
def Obligations.StatusFields : Prop :=
  ∀ b : Block,
    (statusWord b).extractLsb' 0 1 = (if b.phase = .idle then 0 else 1) ∧
    (statusWord b).extractLsb' 1 2 = (match b.result with | .none => 0b00 | .ok => 0b01 | .noData => 0b10) ∧
    (statusWord b).extractLsb' 3 1 = (if b.cmdErr then 1 else 0) ∧
    (statusWord b).extractLsb' 4 2 = (match b.lastCmd with | .none => 0b00 | .decode => 0b01 | .encode => 0b10) ∧
    (statusWord b).extractLsb' 6 26 = 0

/-- 20_memory.md R47 to R51 and 10_state.md R40: the first fault that applies to a host access, in the order BUSY_ACCESS,
BUS_UNMAPPED, BUS_WIDTH, BUS_ALIGN, UNINIT_READ, is recorded, and nothing else changes. Two clauses are the model's reading:
that offsets 0x001D to 0x001F are in the register part, and so meet BUS_WIDTH or BUS_ALIGN (log 7), and that an access can have
a width other than 1, 2 and 4 (log 5). -/
def Obligations.AccessFaultsInOrder : Prop :=
  ∀ (s : State) (op : HostOp) (rest : List HostOp) (o : BitVec 16) (n : Nat) (d : Direction),
    s.fluxIn = [] → s.script = op :: rest → (op = .read o n ∧ d = .read) ∨ ((∃ v, op = .write o n v) ∧ d = .write) →
    let allowed := n = 4 ∧ ((d = .read ∧ o.toNat = 0x0004) ∨ (d = .write ∧ o.toNat = 0x0000))
    let busy := s.block.phase ≠ .idle ∧ ¬ allowed
    let unmapped := (0x0020 ≤ o.toNat ∧ o.toNat ≤ 0x0FFF) ∨ 0x2800 ≤ o.toNat
    let width := if o.toNat < 0x0020 then n ≠ 4 else n ≠ 1 ∧ n ≠ 2 ∧ n ≠ 4
    let align := o.toNat % n ≠ 0
    let uninit := d = .read ∧ 0x1000 ≤ o.toNat ∧ ∃ i < n, memByte s.block.secbuf (o.toNat - 0x1000 + i) = none
    (busy → step s = .next { s with script := rest, faults := .busyAccess o n d :: s.faults }) ∧
    (¬ busy → unmapped → step s = .next { s with script := rest, faults := .busUnmapped o n d :: s.faults }) ∧
    (¬ busy → ¬ unmapped → width → step s = .next { s with script := rest, faults := .busWidth o n :: s.faults }) ∧
    (¬ busy → ¬ unmapped → ¬ width → align →
      step s = .next { s with script := rest, faults := .busAlign o n :: s.faults }) ∧
    (¬ busy → ¬ unmapped → ¬ width → ¬ align → uninit →
      step s = .next { s with script := rest, faults := .uninitRead o n :: s.faults })

/-- 20_memory.md R45: a legal read of written `SECBUF` bytes returns them composed big-endian, and changes nothing else. -/
def Obligations.SecbufReadIsBigEndian : Prop :=
  ∀ (s : State) (rest : List HostOp) (o : BitVec 16) (n : Nat) (f : Nat → Byte), s.fluxIn = [] →
    s.script = .read o n :: rest → s.block.phase = .idle → 0x1000 ≤ o.toNat → o.toNat < 0x2800 →
    n = 1 ∨ n = 2 ∨ n = 4 → o.toNat % n = 0 →
    (∀ i < n, memByte s.block.secbuf (o.toNat - 0x1000 + i) = some (f i)) →
    ∃ v : Word32, (∀ i < n, v.extractLsb' (8 * (n - 1 - i)) 8 = f i) ∧ v.toNat < 2 ^ (8 * n) ∧
      step s = .next { s with script := rest, reads := ⟨o, n, v⟩ :: s.reads }

/-- 20_memory.md R45, R50: a legal write of `SECBUF` stores the value's low `n` bytes big-endian and makes them written; every
other byte and everything else is unchanged. That the low bytes are the ones written is the model's reading (log 8). -/
def Obligations.SecbufWriteIsBigEndian : Prop :=
  ∀ (s : State) (rest : List HostOp) (o : BitVec 16) (n : Nat) (v : Word32), s.fluxIn = [] →
    s.script = .write o n v :: rest → s.block.phase = .idle → 0x1000 ≤ o.toNat → o.toNat < 0x2800 →
    n = 1 ∨ n = 2 ∨ n = 4 → o.toNat % n = 0 →
    ∃ m : Memory,
      (∀ i < n, memByte m (o.toNat - 0x1000 + i) = some (v.extractLsb' (8 * (n - 1 - i)) 8)) ∧
      (∀ a, a < o.toNat - 0x1000 ∨ o.toNat - 0x1000 + n ≤ a → memByte m a = memByte s.block.secbuf a) ∧
      step s = .next { s with script := rest, block := { s.block with secbuf := m } }

/-- 10_state.md R21 to R26, R40: the value a 32-bit read of each register returns while IDLE, and of `STATUS` at any time; it
changes nothing else. -/
def Obligations.RegisterReads : Prop :=
  ∀ (s : State) (rest : List HostOp) (o : BitVec 16) (v : Word32), s.fluxIn = [] → s.script = .read o 4 :: rest →
    s.block.phase = .idle ∨ o = 0x0004 →
    ((o = 0x0000 ∧ v = 0) ∨ (o = 0x0004 ∧ v = statusWord s.block) ∨ (o = 0x0008 ∧ v = s.block.validMask.setWidth 32) ∨
      (o = 0x000C ∧ v = s.block.dataBitoff) ∨ (o = 0x0010 ∧ v = s.block.startPos) ∨
      (o = 0x0014 ∧ v = s.block.hdrSecsize) ∨ (o = 0x0018 ∧ v = s.block.hdrNsec) ∨ (o = 0x001C ∧ v = s.block.hdrLen)) →
    step s = .next { s with script := rest, reads := ⟨o, 4, v⟩ :: s.reads }

/-- 10_state.md R22 to R26: what a 32-bit write of each register but `CMD` changes while IDLE; writes of the `HDR_*` and of
the bits not named are ignored. -/
def Obligations.RegisterWrites : Prop :=
  ∀ (s : State) (rest : List HostOp) (o : BitVec 16) (v : Word32), s.fluxIn = [] → s.script = .write o 4 v :: rest →
    s.block.phase = .idle →
    (o = 0x0004 → step s = .next { s with
      script := rest, block := { s.block with cmdErr := if v.getLsbD 3 then false else s.block.cmdErr } }) ∧
    (o = 0x0008 → step s = .next { s with script := rest, block := { s.block with validMask := v.extractLsb' 0 6 } }) ∧
    (o = 0x000C → step s = .next { s with script := rest, block := { s.block with dataBitoff := v } }) ∧
    (o = 0x0010 → step s = .next { s with script := rest, block := { s.block with startPos := v } }) ∧
    (o = 0x0014 ∨ o = 0x0018 ∨ o = 0x001C → step s = .next { s with script := rest })

/-! ## The stream source and the track sink -/

/-- 20_memory.md R59, R60: while the source has no cell, or the sink is not ready, the block holds: it takes no step, and
only the port's own answer is used up. One that never answers holds the block for ever. The answers as data in the state are
the model's form (logs 11, 12). -/
def Obligations.BlockHoldsForPorts : Prop :=
  ∀ s : State, s.quiet →
    (s.block.phase = .dScan ∨ s.block.phase = .dConfirm ∨ s.block.phase = .dDemod →
      (∀ rest, s.stream = .notReady :: rest → step s = .next { s with stream := rest }) ∧
      (∀ rest, s.stream = .never :: rest → step s = .next s)) ∧
    (s.block.phase = .eEmit →
      (∀ rest, s.sinkAnswers = .notReady :: rest → step s = .next { s with sinkAnswers := rest }) ∧
      (∀ rest, s.sinkAnswers = .never :: rest → step s = .next s))

/-- 20_memory.md R59: the result of a DECODE does not depend on how long the source held it. -/
def Obligations.HoldsDoNotChangeResult : Prop :=
  ∀ (s t : State) (k : Nat), s.quiet → s.block.phase.decoding → Host.Core.run Sys2Proof.core k s = .next t →
    t.block.phase = .idle →
    ∃ (k' : Nat) (t' : State), k' ≤ k ∧
      Host.Core.run Sys2Proof.core k' { s with stream := withoutHolds s.stream } = .next t' ∧ t'.block = t.block

/-- 20_memory.md R60, 60_exceptions.md R154, 70_reset_and_hazards.md R164: along every step no parameter changes, no fault,
TXN or cell that was recorded is lost or reordered. -/
def Obligations.RecordsOnlyGrow : Prop :=
  ∀ s t : State, step s = .next t →
    t.params = s.params ∧ s.faults <:+ t.faults ∧ s.sinkTxns <:+ t.sinkTxns ∧ s.sinkCells <:+ t.sinkCells ∧
    s.reads <:+ t.reads

/-! ## The machine -/

/-- The invariant holds at reset. -/
def Obligations.ResetSatisfiesInvariant : Prop := State.reset.Inv

/-- Every step from a state with the invariant answers a next state, which has it too: the memories stay in canonical
form, the counters in their ranges, the header fields legal, the slots of invalid sectors hold the sentinel
(43_checksum_validator.md, slot invariant), the candidate offset is the position of the mark (41_sync_detector.md), and the
output position follows the cells emitted. So no run of the block from reset stops or is refused. -/
def Obligations.StepKeepsInvariant : Prop :=
  ∀ s : State, s.Inv → ∃ t, step s = .next t ∧ t.Inv

/-- Every DECODE ends when the source answers, with OK and a valid sector, or with NODATA and nothing but the sentinel
(40_commands.md, run; 43_checksum_validator.md, contract and NODATA). -/
def Obligations.DecodeRunEnds : Prop :=
  ∀ s : State, s.Inv → s.quiet → s.block.phase.decoding → SourceAnswers s.stream →
    ∃ (k : Nat) (t : State), k ≤ 2 * s.stream.length + 3 ∧ Host.Core.run Sys2Proof.core k s = .next t ∧
      t.block.phase = .idle ∧
      ((t.block.result = .ok ∧ t.block.validMask ≠ 0 ∧
          t.block.hdrSecsize = 1024 ∧ t.block.hdrNsec = 6 ∧ t.block.hdrLen = 6144) ∨
        (t.block.result = .noData ∧ t.block.validMask = 0 ∧ t.block.dataBitoff = 0 ∧
          t.block.hdrSecsize = 0 ∧ t.block.hdrNsec = 0 ∧ t.block.hdrLen = 0 ∧
          ∀ i < 6144, memByte t.block.secbuf i = some (sentinelByte s.params.sentinel i)))

/-- An ENCODE of a fully written buffer (40_commands.md; 44_remodulator.md and 45_flux_encoder.md for counts, positions and
timing class), to a sink whose answers have ended, which means ready (log 12): it ends with OK after its start and 6160 steps,
with those counts, one `SPEED` on every cell and the n-th cell at position `DATA_BITOFF + n`; it changes nothing else. Sinks that accept in
so many words, or hold and then accept, are not covered here. -/
def Obligations.EncodeRunEmitsImage : Prop :=
  ∀ s : State, s.quiet → s.sinkAnswers = [] → s.block.phase = .idle →
    (∀ i < 6144, (memByte s.block.secbuf i).isSome = true) →
    ∃ (t : State) (cell : Nat → Bool) (txns : List TxnRecord),
      Host.Core.run Sys2Proof.core 6161 { s with script := [scriptEncode] } = .next t ∧
      txns.length = 6160 ∧ (txns.filter (·.header = 0x00)).length = 1 ∧ (txns.filter (·.header = 0x40)).length = 2 ∧
      (txns.filter (·.header = 0x50)).length = 3078 ∧ (txns.filter (·.header = 0x60)).length = 3078 ∧
      (txns.filter (·.header = 0x80)).length = 1 ∧
      t = { s with
        sinkTxns := txns ++ s.sinkTxns
        sinkCells := cellRecords s.block.dataBitoff s.params.speed 98544 cell ++ s.sinkCells
        block := { s.block with
          lastCmd := .encode
          emask := s.block.validMask
          eoff := s.block.dataBitoff
          ti := 6160
          result := .ok
          phase := .idle
          prev := cell 98543
          opos := s.block.dataBitoff + 98544 } }

/-- The cells of that ENCODE are the track image of 30_encoding.md: `MARK1`, `MARK2`, then one group for each of the 3078
words of the sequence, each demodulating to its word. -/
def Obligations.EncodedImageHoldsWords : Prop :=
  ∀ s : State, s.quiet → s.sinkAnswers = [] → s.sinkCells = [] → s.block.phase = .idle →
    (∀ i < 6144, (memByte s.block.secbuf i).isSome = true) →
    ∃ t : State,
      Host.Core.run Sys2Proof.core 6161 { s with script := [scriptEncode] } = .next t ∧
      collect (slice t.emittedCells 0 16) = s.params.mark1.setWidth 32 ∧
      collect (slice t.emittedCells 16 32) = s.params.mark2 ∧
      ∀ g < 3078,
        groupWord s.block.secbuf s.block.validMask g = some (demod (collect (slice t.emittedCells (48 + 32 * g) 32)))

/-- The clean re-read round trip of 45_flux_encoder.md, for a mask V ≠ 0 (90_conflicts.md C1): the DECODE of exactly the
cells an ENCODE emitted ends OK with the same mask and offset, the valid slots as they were, the others all sentinel. The
sink's answers have ended, which means ready (log 12). -/
def Obligations.EncodeDecodeRoundTrip : Prop :=
  ∀ s : State, s.quiet → s.sinkAnswers = [] → s.sinkCells = [] → s.block.phase = .idle →
    (∀ i < 6144, (memByte s.block.secbuf i).isSome = true) → s.block.validMask ≠ 0 →
    ∃ (k m : Nat) (u t : State),
      Host.Core.run Sys2Proof.core k { s with script := [scriptEncode] } = .next u ∧
      u.quiet ∧ u.block.phase = .idle ∧
      Host.Core.run Sys2Proof.core m
        { u with script := [scriptStream u.emittedCells, .write 0x0010 4 s.block.dataBitoff, scriptDecode] } = .next t ∧
      t.quiet ∧ t.block.phase = .idle ∧ t.block.result = .ok ∧ t.block.validMask = s.block.validMask ∧
      t.block.dataBitoff = s.block.dataBitoff ∧
      t.block.hdrSecsize = 1024 ∧ t.block.hdrNsec = 6 ∧ t.block.hdrLen = 6144 ∧ t.faults = s.faults ∧
      ∀ i < 6144, memByte t.block.secbuf i =
        if s.block.validMask.getLsbD (i / 1024) then memByte s.block.secbuf i
        else some (sentinelByte s.params.sentinel i)

/-- The round trip of a mask V = 0 ends NODATA (90_conflicts.md C1; 70_reset_and_hazards.md, result after NODATA): every
emitted checksum is inverted, so no sector validates and every byte is sentinel. The sink's answers have ended (log 12). -/
def Obligations.EncodeDecodeOfInvalidIsNoData : Prop :=
  ∀ s : State, s.quiet → s.sinkAnswers = [] → s.sinkCells = [] → s.block.phase = .idle →
    (∀ i < 6144, (memByte s.block.secbuf i).isSome = true) → s.block.validMask = 0 →
    ∃ (k m : Nat) (u t : State),
      Host.Core.run Sys2Proof.core k { s with script := [scriptEncode] } = .next u ∧
      u.quiet ∧ u.block.phase = .idle ∧
      Host.Core.run Sys2Proof.core m
        { u with script := [scriptStream u.emittedCells, .write 0x0010 4 s.block.dataBitoff, scriptDecode] } = .next t ∧
      t.quiet ∧ t.block.phase = .idle ∧ t.block.result = .noData ∧ t.block.validMask = 0 ∧ t.block.dataBitoff = 0 ∧
      ∀ i < 6144, memByte t.block.secbuf i = some (sentinelByte s.params.sentinel i)

/-- `WAIT` (30_encoding.md, host-script syntax): while `BUSY` = 1 the block moves; when it reads 0 the host has read it. The
polls that read 1 are not logged (log 2). -/
def Obligations.WaitEndsWhenIdle : Prop :=
  ∀ (s : State) (rest : List HostOp), s.fluxIn = [] → s.script = .wait :: rest →
    (s.block.phase ≠ .idle → step s = blockStep s) ∧
    (s.block.phase = .idle →
      step s = .next { s with script := rest, reads := ⟨0x0004, 4, statusWord s.block⟩ :: s.reads })

/-- `STREAM` (30_encoding.md R82): the source's sequence for the next DECODE is the given one, and nothing else changes: a
DECODE that is running goes on reading its own. -/
def Obligations.StreamSetsNextSequence : Prop :=
  ∀ (s : State) (rest : List HostOp) (answers : List SourceAnswer), s.fluxIn = [] → s.script = .stream answers :: rest →
    step s = .next { s with script := rest, nextStream := answers }

/-- Host accesses stand between block steps (20_memory.md R54): the script entry that lets the block move before the host's
next access is one step of the block at the state without the entry, busy or idle. The entry is the model's (log 3). -/
def Obligations.RunTakesOneBlockStep : Prop :=
  ∀ (s : State) (rest : List HostOp), s.fluxIn = [] → s.script = .run :: rest →
    step s = blockStep { s with script := rest } ∧
    (s.block.phase = .idle → step s = .next { s with script := rest })
end

