-- ==== Sys2Proof/Laws/State.lean ====
section
/-! SUPPORT. One lemma per field for each update of the state, so that no proof unfolds a record update. -/

namespace Sys2Proof.Machine

/-! ### `State.setPhase` -/

@[simp] theorem State.setPhase_params (s : State) (p : Phase) : (s.setPhase p).params = s.params := rfl
@[simp] theorem State.setPhase_script (s : State) (p : Phase) : (s.setPhase p).script = s.script := rfl
@[simp] theorem State.setPhase_reads (s : State) (p : Phase) : (s.setPhase p).reads = s.reads := rfl
@[simp] theorem State.setPhase_faults (s : State) (p : Phase) : (s.setPhase p).faults = s.faults := rfl
@[simp] theorem State.setPhase_nextStream (s : State) (p : Phase) : (s.setPhase p).nextStream = s.nextStream := rfl
@[simp] theorem State.setPhase_stream (s : State) (p : Phase) : (s.setPhase p).stream = s.stream := rfl
@[simp] theorem State.setPhase_sinkAnswers (s : State) (p : Phase) : (s.setPhase p).sinkAnswers = s.sinkAnswers := rfl
@[simp] theorem State.setPhase_sinkTxns (s : State) (p : Phase) : (s.setPhase p).sinkTxns = s.sinkTxns := rfl
@[simp] theorem State.setPhase_sinkCells (s : State) (p : Phase) : (s.setPhase p).sinkCells = s.sinkCells := rfl
@[simp] theorem State.setPhase_fluxIn (s : State) (p : Phase) : (s.setPhase p).fluxIn = s.fluxIn := rfl
@[simp] theorem State.setPhase_freeCount (s : State) (p : Phase) : (s.setPhase p).freeCount = s.freeCount := rfl
@[simp] theorem State.setPhase_block_result (s : State) (p : Phase) : (s.setPhase p).block.result = s.block.result := rfl
@[simp] theorem State.setPhase_block_cmdErr (s : State) (p : Phase) : (s.setPhase p).block.cmdErr = s.block.cmdErr := rfl
@[simp] theorem State.setPhase_block_lastCmd (s : State) (p : Phase) : (s.setPhase p).block.lastCmd = s.block.lastCmd := rfl
@[simp] theorem State.setPhase_block_validMask (s : State) (p : Phase) : (s.setPhase p).block.validMask = s.block.validMask := rfl
@[simp] theorem State.setPhase_block_dataBitoff (s : State) (p : Phase) : (s.setPhase p).block.dataBitoff = s.block.dataBitoff := rfl
@[simp] theorem State.setPhase_block_startPos (s : State) (p : Phase) : (s.setPhase p).block.startPos = s.block.startPos := rfl
@[simp] theorem State.setPhase_block_hdrSecsize (s : State) (p : Phase) : (s.setPhase p).block.hdrSecsize = s.block.hdrSecsize := rfl
@[simp] theorem State.setPhase_block_hdrNsec (s : State) (p : Phase) : (s.setPhase p).block.hdrNsec = s.block.hdrNsec := rfl
@[simp] theorem State.setPhase_block_hdrLen (s : State) (p : Phase) : (s.setPhase p).block.hdrLen = s.block.hdrLen := rfl
@[simp] theorem State.setPhase_block_secbuf (s : State) (p : Phase) : (s.setPhase p).block.secbuf = s.block.secbuf := rfl
@[simp] theorem State.setPhase_block_w (s : State) (p : Phase) : (s.setPhase p).block.w = s.block.w := rfl
@[simp] theorem State.setPhase_block_pos (s : State) (p : Phase) : (s.setPhase p).block.pos = s.block.pos := rfl
@[simp] theorem State.setPhase_block_fill (s : State) (p : Phase) : (s.setPhase p).block.fill = s.block.fill := rfl
@[simp] theorem State.setPhase_block_candOff (s : State) (p : Phase) : (s.setPhase p).block.candOff = s.block.candOff := rfl
@[simp] theorem State.setPhase_block_cnt (s : State) (p : Phase) : (s.setPhase p).block.cnt = s.block.cnt := rfl
@[simp] theorem State.setPhase_block_wi (s : State) (p : Phase) : (s.setPhase p).block.wi = s.block.wi := rfl
@[simp] theorem State.setPhase_block_new (s : State) (p : Phase) : (s.setPhase p).block.new = s.block.new := rfl
@[simp] theorem State.setPhase_block_phase (s : State) (p : Phase) : (s.setPhase p).block.phase = p := rfl
@[simp] theorem State.setPhase_block_wb (s : State) (p : Phase) : (s.setPhase p).block.wb = s.block.wb := rfl
@[simp] theorem State.setPhase_block_ti (s : State) (p : Phase) : (s.setPhase p).block.ti = s.block.ti := rfl
@[simp] theorem State.setPhase_block_prev (s : State) (p : Phase) : (s.setPhase p).block.prev = s.block.prev := rfl
@[simp] theorem State.setPhase_block_opos (s : State) (p : Phase) : (s.setPhase p).block.opos = s.block.opos := rfl
@[simp] theorem State.setPhase_block_emask (s : State) (p : Phase) : (s.setPhase p).block.emask = s.block.emask := rfl
@[simp] theorem State.setPhase_block_eoff (s : State) (p : Phase) : (s.setPhase p).block.eoff = s.block.eoff := rfl

/-! ### `State.dropCommand` -/

@[simp] theorem State.dropCommand_params (s : State) : s.dropCommand.params = s.params := rfl
@[simp] theorem State.dropCommand_script (s : State) : s.dropCommand.script = s.script := rfl
@[simp] theorem State.dropCommand_reads (s : State) : s.dropCommand.reads = s.reads := rfl
@[simp] theorem State.dropCommand_faults (s : State) : s.dropCommand.faults = s.faults := rfl
@[simp] theorem State.dropCommand_nextStream (s : State) : s.dropCommand.nextStream = s.nextStream := rfl
@[simp] theorem State.dropCommand_stream (s : State) : s.dropCommand.stream = s.stream := rfl
@[simp] theorem State.dropCommand_sinkAnswers (s : State) : s.dropCommand.sinkAnswers = s.sinkAnswers := rfl
@[simp] theorem State.dropCommand_sinkTxns (s : State) : s.dropCommand.sinkTxns = s.sinkTxns := rfl
@[simp] theorem State.dropCommand_sinkCells (s : State) : s.dropCommand.sinkCells = s.sinkCells := rfl
@[simp] theorem State.dropCommand_fluxIn (s : State) : s.dropCommand.fluxIn = s.fluxIn := rfl
@[simp] theorem State.dropCommand_freeCount (s : State) : s.dropCommand.freeCount = s.freeCount := rfl
@[simp] theorem State.dropCommand_block_result (s : State) : s.dropCommand.block.result = s.block.result := rfl
@[simp] theorem State.dropCommand_block_cmdErr (s : State) : s.dropCommand.block.cmdErr = true := rfl
@[simp] theorem State.dropCommand_block_lastCmd (s : State) : s.dropCommand.block.lastCmd = s.block.lastCmd := rfl
@[simp] theorem State.dropCommand_block_validMask (s : State) : s.dropCommand.block.validMask = s.block.validMask := rfl
@[simp] theorem State.dropCommand_block_dataBitoff (s : State) : s.dropCommand.block.dataBitoff = s.block.dataBitoff := rfl
@[simp] theorem State.dropCommand_block_startPos (s : State) : s.dropCommand.block.startPos = s.block.startPos := rfl
@[simp] theorem State.dropCommand_block_hdrSecsize (s : State) : s.dropCommand.block.hdrSecsize = s.block.hdrSecsize := rfl
@[simp] theorem State.dropCommand_block_hdrNsec (s : State) : s.dropCommand.block.hdrNsec = s.block.hdrNsec := rfl
@[simp] theorem State.dropCommand_block_hdrLen (s : State) : s.dropCommand.block.hdrLen = s.block.hdrLen := rfl
@[simp] theorem State.dropCommand_block_secbuf (s : State) : s.dropCommand.block.secbuf = s.block.secbuf := rfl
@[simp] theorem State.dropCommand_block_w (s : State) : s.dropCommand.block.w = s.block.w := rfl
@[simp] theorem State.dropCommand_block_pos (s : State) : s.dropCommand.block.pos = s.block.pos := rfl
@[simp] theorem State.dropCommand_block_fill (s : State) : s.dropCommand.block.fill = s.block.fill := rfl
@[simp] theorem State.dropCommand_block_candOff (s : State) : s.dropCommand.block.candOff = s.block.candOff := rfl
@[simp] theorem State.dropCommand_block_cnt (s : State) : s.dropCommand.block.cnt = s.block.cnt := rfl
@[simp] theorem State.dropCommand_block_wi (s : State) : s.dropCommand.block.wi = s.block.wi := rfl
@[simp] theorem State.dropCommand_block_new (s : State) : s.dropCommand.block.new = s.block.new := rfl
@[simp] theorem State.dropCommand_block_phase (s : State) : s.dropCommand.block.phase = s.block.phase := rfl
@[simp] theorem State.dropCommand_block_wb (s : State) : s.dropCommand.block.wb = s.block.wb := rfl
@[simp] theorem State.dropCommand_block_ti (s : State) : s.dropCommand.block.ti = s.block.ti := rfl
@[simp] theorem State.dropCommand_block_prev (s : State) : s.dropCommand.block.prev = s.block.prev := rfl
@[simp] theorem State.dropCommand_block_opos (s : State) : s.dropCommand.block.opos = s.block.opos := rfl
@[simp] theorem State.dropCommand_block_emask (s : State) : s.dropCommand.block.emask = s.block.emask := rfl
@[simp] theorem State.dropCommand_block_eoff (s : State) : s.dropCommand.block.eoff = s.block.eoff := rfl

/-! ### `State.raise` -/

@[simp] theorem State.raise_block (s : State) (f : RecordedFault) : (s.raise f).block = s.block := rfl
@[simp] theorem State.raise_params (s : State) (f : RecordedFault) : (s.raise f).params = s.params := rfl
@[simp] theorem State.raise_script (s : State) (f : RecordedFault) : (s.raise f).script = s.script := rfl
@[simp] theorem State.raise_reads (s : State) (f : RecordedFault) : (s.raise f).reads = s.reads := rfl
@[simp] theorem State.raise_faults (s : State) (f : RecordedFault) : (s.raise f).faults = f :: s.faults := rfl
@[simp] theorem State.raise_nextStream (s : State) (f : RecordedFault) : (s.raise f).nextStream = s.nextStream := rfl
@[simp] theorem State.raise_stream (s : State) (f : RecordedFault) : (s.raise f).stream = s.stream := rfl
@[simp] theorem State.raise_sinkAnswers (s : State) (f : RecordedFault) : (s.raise f).sinkAnswers = s.sinkAnswers := rfl
@[simp] theorem State.raise_sinkTxns (s : State) (f : RecordedFault) : (s.raise f).sinkTxns = s.sinkTxns := rfl
@[simp] theorem State.raise_sinkCells (s : State) (f : RecordedFault) : (s.raise f).sinkCells = s.sinkCells := rfl
@[simp] theorem State.raise_fluxIn (s : State) (f : RecordedFault) : (s.raise f).fluxIn = s.fluxIn := rfl
@[simp] theorem State.raise_freeCount (s : State) (f : RecordedFault) : (s.raise f).freeCount = s.freeCount := rfl

/-! ### `State.recordRead` -/

@[simp] theorem State.recordRead_block (s : State) (o : BitVec 16) (n : Nat) (v : Word32) : (s.recordRead o n v).block = s.block := rfl
@[simp] theorem State.recordRead_params (s : State) (o : BitVec 16) (n : Nat) (v : Word32) : (s.recordRead o n v).params = s.params := rfl
@[simp] theorem State.recordRead_script (s : State) (o : BitVec 16) (n : Nat) (v : Word32) : (s.recordRead o n v).script = s.script := rfl
@[simp] theorem State.recordRead_reads (s : State) (o : BitVec 16) (n : Nat) (v : Word32) : (s.recordRead o n v).reads = ⟨o, n, v⟩ :: s.reads := rfl
@[simp] theorem State.recordRead_faults (s : State) (o : BitVec 16) (n : Nat) (v : Word32) : (s.recordRead o n v).faults = s.faults := rfl
@[simp] theorem State.recordRead_nextStream (s : State) (o : BitVec 16) (n : Nat) (v : Word32) : (s.recordRead o n v).nextStream = s.nextStream := rfl
@[simp] theorem State.recordRead_stream (s : State) (o : BitVec 16) (n : Nat) (v : Word32) : (s.recordRead o n v).stream = s.stream := rfl
@[simp] theorem State.recordRead_sinkAnswers (s : State) (o : BitVec 16) (n : Nat) (v : Word32) : (s.recordRead o n v).sinkAnswers = s.sinkAnswers := rfl
@[simp] theorem State.recordRead_sinkTxns (s : State) (o : BitVec 16) (n : Nat) (v : Word32) : (s.recordRead o n v).sinkTxns = s.sinkTxns := rfl
@[simp] theorem State.recordRead_sinkCells (s : State) (o : BitVec 16) (n : Nat) (v : Word32) : (s.recordRead o n v).sinkCells = s.sinkCells := rfl
@[simp] theorem State.recordRead_fluxIn (s : State) (o : BitVec 16) (n : Nat) (v : Word32) : (s.recordRead o n v).fluxIn = s.fluxIn := rfl
@[simp] theorem State.recordRead_freeCount (s : State) (o : BitVec 16) (n : Nat) (v : Word32) : (s.recordRead o n v).freeCount = s.freeCount := rfl

/-! ### `State.emitTxn` -/

@[simp] theorem State.emitTxn_block (s : State) (r : TxnRecord) : (s.emitTxn r).block = s.block := rfl
@[simp] theorem State.emitTxn_params (s : State) (r : TxnRecord) : (s.emitTxn r).params = s.params := rfl
@[simp] theorem State.emitTxn_script (s : State) (r : TxnRecord) : (s.emitTxn r).script = s.script := rfl
@[simp] theorem State.emitTxn_reads (s : State) (r : TxnRecord) : (s.emitTxn r).reads = s.reads := rfl
@[simp] theorem State.emitTxn_faults (s : State) (r : TxnRecord) : (s.emitTxn r).faults = s.faults := rfl
@[simp] theorem State.emitTxn_nextStream (s : State) (r : TxnRecord) : (s.emitTxn r).nextStream = s.nextStream := rfl
@[simp] theorem State.emitTxn_stream (s : State) (r : TxnRecord) : (s.emitTxn r).stream = s.stream := rfl
@[simp] theorem State.emitTxn_sinkAnswers (s : State) (r : TxnRecord) : (s.emitTxn r).sinkAnswers = s.sinkAnswers := rfl
@[simp] theorem State.emitTxn_sinkTxns (s : State) (r : TxnRecord) : (s.emitTxn r).sinkTxns = r :: s.sinkTxns := rfl
@[simp] theorem State.emitTxn_sinkCells (s : State) (r : TxnRecord) : (s.emitTxn r).sinkCells = s.sinkCells := rfl
@[simp] theorem State.emitTxn_fluxIn (s : State) (r : TxnRecord) : (s.emitTxn r).fluxIn = s.fluxIn := rfl
@[simp] theorem State.emitTxn_freeCount (s : State) (r : TxnRecord) : (s.emitTxn r).freeCount = s.freeCount := rfl

/-! ### `State.emitCell` -/

@[simp] theorem State.emitCell_params (s : State) (c : Bool) (sp : Word16) : (s.emitCell c sp).params = s.params := rfl
@[simp] theorem State.emitCell_script (s : State) (c : Bool) (sp : Word16) : (s.emitCell c sp).script = s.script := rfl
@[simp] theorem State.emitCell_reads (s : State) (c : Bool) (sp : Word16) : (s.emitCell c sp).reads = s.reads := rfl
@[simp] theorem State.emitCell_faults (s : State) (c : Bool) (sp : Word16) : (s.emitCell c sp).faults = s.faults := rfl
@[simp] theorem State.emitCell_nextStream (s : State) (c : Bool) (sp : Word16) : (s.emitCell c sp).nextStream = s.nextStream := rfl
@[simp] theorem State.emitCell_stream (s : State) (c : Bool) (sp : Word16) : (s.emitCell c sp).stream = s.stream := rfl
@[simp] theorem State.emitCell_sinkAnswers (s : State) (c : Bool) (sp : Word16) : (s.emitCell c sp).sinkAnswers = s.sinkAnswers := rfl
@[simp] theorem State.emitCell_sinkTxns (s : State) (c : Bool) (sp : Word16) : (s.emitCell c sp).sinkTxns = s.sinkTxns := rfl
@[simp] theorem State.emitCell_sinkCells (s : State) (c : Bool) (sp : Word16) : (s.emitCell c sp).sinkCells = ⟨s.block.opos, c, sp⟩ :: s.sinkCells := rfl
@[simp] theorem State.emitCell_fluxIn (s : State) (c : Bool) (sp : Word16) : (s.emitCell c sp).fluxIn = s.fluxIn := rfl
@[simp] theorem State.emitCell_freeCount (s : State) (c : Bool) (sp : Word16) : (s.emitCell c sp).freeCount = s.freeCount := rfl
@[simp] theorem State.emitCell_block_result (s : State) (c : Bool) (sp : Word16) : (s.emitCell c sp).block.result = s.block.result := rfl
@[simp] theorem State.emitCell_block_cmdErr (s : State) (c : Bool) (sp : Word16) : (s.emitCell c sp).block.cmdErr = s.block.cmdErr := rfl
@[simp] theorem State.emitCell_block_lastCmd (s : State) (c : Bool) (sp : Word16) : (s.emitCell c sp).block.lastCmd = s.block.lastCmd := rfl
@[simp] theorem State.emitCell_block_validMask (s : State) (c : Bool) (sp : Word16) : (s.emitCell c sp).block.validMask = s.block.validMask := rfl
@[simp] theorem State.emitCell_block_dataBitoff (s : State) (c : Bool) (sp : Word16) : (s.emitCell c sp).block.dataBitoff = s.block.dataBitoff := rfl
@[simp] theorem State.emitCell_block_startPos (s : State) (c : Bool) (sp : Word16) : (s.emitCell c sp).block.startPos = s.block.startPos := rfl
@[simp] theorem State.emitCell_block_hdrSecsize (s : State) (c : Bool) (sp : Word16) : (s.emitCell c sp).block.hdrSecsize = s.block.hdrSecsize := rfl
@[simp] theorem State.emitCell_block_hdrNsec (s : State) (c : Bool) (sp : Word16) : (s.emitCell c sp).block.hdrNsec = s.block.hdrNsec := rfl
@[simp] theorem State.emitCell_block_hdrLen (s : State) (c : Bool) (sp : Word16) : (s.emitCell c sp).block.hdrLen = s.block.hdrLen := rfl
@[simp] theorem State.emitCell_block_secbuf (s : State) (c : Bool) (sp : Word16) : (s.emitCell c sp).block.secbuf = s.block.secbuf := rfl
@[simp] theorem State.emitCell_block_w (s : State) (c : Bool) (sp : Word16) : (s.emitCell c sp).block.w = s.block.w := rfl
@[simp] theorem State.emitCell_block_pos (s : State) (c : Bool) (sp : Word16) : (s.emitCell c sp).block.pos = s.block.pos := rfl
@[simp] theorem State.emitCell_block_fill (s : State) (c : Bool) (sp : Word16) : (s.emitCell c sp).block.fill = s.block.fill := rfl
@[simp] theorem State.emitCell_block_candOff (s : State) (c : Bool) (sp : Word16) : (s.emitCell c sp).block.candOff = s.block.candOff := rfl
@[simp] theorem State.emitCell_block_cnt (s : State) (c : Bool) (sp : Word16) : (s.emitCell c sp).block.cnt = s.block.cnt := rfl
@[simp] theorem State.emitCell_block_wi (s : State) (c : Bool) (sp : Word16) : (s.emitCell c sp).block.wi = s.block.wi := rfl
@[simp] theorem State.emitCell_block_new (s : State) (c : Bool) (sp : Word16) : (s.emitCell c sp).block.new = s.block.new := rfl
@[simp] theorem State.emitCell_block_phase (s : State) (c : Bool) (sp : Word16) : (s.emitCell c sp).block.phase = s.block.phase := rfl
@[simp] theorem State.emitCell_block_wb (s : State) (c : Bool) (sp : Word16) : (s.emitCell c sp).block.wb = s.block.wb := rfl
@[simp] theorem State.emitCell_block_ti (s : State) (c : Bool) (sp : Word16) : (s.emitCell c sp).block.ti = s.block.ti := rfl
@[simp] theorem State.emitCell_block_prev (s : State) (c : Bool) (sp : Word16) : (s.emitCell c sp).block.prev = s.block.prev := rfl
@[simp] theorem State.emitCell_block_opos (s : State) (c : Bool) (sp : Word16) : (s.emitCell c sp).block.opos = s.block.opos + 1 := rfl
@[simp] theorem State.emitCell_block_emask (s : State) (c : Bool) (sp : Word16) : (s.emitCell c sp).block.emask = s.block.emask := rfl
@[simp] theorem State.emitCell_block_eoff (s : State) (c : Bool) (sp : Word16) : (s.emitCell c sp).block.eoff = s.block.eoff := rfl

/-! ### `State.setPrev` -/

@[simp] theorem State.setPrev_params (s : State) (d : Bool) : (s.setPrev d).params = s.params := rfl
@[simp] theorem State.setPrev_script (s : State) (d : Bool) : (s.setPrev d).script = s.script := rfl
@[simp] theorem State.setPrev_reads (s : State) (d : Bool) : (s.setPrev d).reads = s.reads := rfl
@[simp] theorem State.setPrev_faults (s : State) (d : Bool) : (s.setPrev d).faults = s.faults := rfl
@[simp] theorem State.setPrev_nextStream (s : State) (d : Bool) : (s.setPrev d).nextStream = s.nextStream := rfl
@[simp] theorem State.setPrev_stream (s : State) (d : Bool) : (s.setPrev d).stream = s.stream := rfl
@[simp] theorem State.setPrev_sinkAnswers (s : State) (d : Bool) : (s.setPrev d).sinkAnswers = s.sinkAnswers := rfl
@[simp] theorem State.setPrev_sinkTxns (s : State) (d : Bool) : (s.setPrev d).sinkTxns = s.sinkTxns := rfl
@[simp] theorem State.setPrev_sinkCells (s : State) (d : Bool) : (s.setPrev d).sinkCells = s.sinkCells := rfl
@[simp] theorem State.setPrev_fluxIn (s : State) (d : Bool) : (s.setPrev d).fluxIn = s.fluxIn := rfl
@[simp] theorem State.setPrev_freeCount (s : State) (d : Bool) : (s.setPrev d).freeCount = s.freeCount := rfl
@[simp] theorem State.setPrev_block_result (s : State) (d : Bool) : (s.setPrev d).block.result = s.block.result := rfl
@[simp] theorem State.setPrev_block_cmdErr (s : State) (d : Bool) : (s.setPrev d).block.cmdErr = s.block.cmdErr := rfl
@[simp] theorem State.setPrev_block_lastCmd (s : State) (d : Bool) : (s.setPrev d).block.lastCmd = s.block.lastCmd := rfl
@[simp] theorem State.setPrev_block_validMask (s : State) (d : Bool) : (s.setPrev d).block.validMask = s.block.validMask := rfl
@[simp] theorem State.setPrev_block_dataBitoff (s : State) (d : Bool) : (s.setPrev d).block.dataBitoff = s.block.dataBitoff := rfl
@[simp] theorem State.setPrev_block_startPos (s : State) (d : Bool) : (s.setPrev d).block.startPos = s.block.startPos := rfl
@[simp] theorem State.setPrev_block_hdrSecsize (s : State) (d : Bool) : (s.setPrev d).block.hdrSecsize = s.block.hdrSecsize := rfl
@[simp] theorem State.setPrev_block_hdrNsec (s : State) (d : Bool) : (s.setPrev d).block.hdrNsec = s.block.hdrNsec := rfl
@[simp] theorem State.setPrev_block_hdrLen (s : State) (d : Bool) : (s.setPrev d).block.hdrLen = s.block.hdrLen := rfl
@[simp] theorem State.setPrev_block_secbuf (s : State) (d : Bool) : (s.setPrev d).block.secbuf = s.block.secbuf := rfl
@[simp] theorem State.setPrev_block_w (s : State) (d : Bool) : (s.setPrev d).block.w = s.block.w := rfl
@[simp] theorem State.setPrev_block_pos (s : State) (d : Bool) : (s.setPrev d).block.pos = s.block.pos := rfl
@[simp] theorem State.setPrev_block_fill (s : State) (d : Bool) : (s.setPrev d).block.fill = s.block.fill := rfl
@[simp] theorem State.setPrev_block_candOff (s : State) (d : Bool) : (s.setPrev d).block.candOff = s.block.candOff := rfl
@[simp] theorem State.setPrev_block_cnt (s : State) (d : Bool) : (s.setPrev d).block.cnt = s.block.cnt := rfl
@[simp] theorem State.setPrev_block_wi (s : State) (d : Bool) : (s.setPrev d).block.wi = s.block.wi := rfl
@[simp] theorem State.setPrev_block_new (s : State) (d : Bool) : (s.setPrev d).block.new = s.block.new := rfl
@[simp] theorem State.setPrev_block_phase (s : State) (d : Bool) : (s.setPrev d).block.phase = s.block.phase := rfl
@[simp] theorem State.setPrev_block_wb (s : State) (d : Bool) : (s.setPrev d).block.wb = s.block.wb := rfl
@[simp] theorem State.setPrev_block_ti (s : State) (d : Bool) : (s.setPrev d).block.ti = s.block.ti := rfl
@[simp] theorem State.setPrev_block_prev (s : State) (d : Bool) : (s.setPrev d).block.prev = d := rfl
@[simp] theorem State.setPrev_block_opos (s : State) (d : Bool) : (s.setPrev d).block.opos = s.block.opos := rfl
@[simp] theorem State.setPrev_block_emask (s : State) (d : Bool) : (s.setPrev d).block.emask = s.block.emask := rfl
@[simp] theorem State.setPrev_block_eoff (s : State) (d : Bool) : (s.setPrev d).block.eoff = s.block.eoff := rfl

/-! ### `State.takeFree` -/

@[simp] theorem State.takeFree_block (s : State) : s.takeFree.block = s.block := rfl
@[simp] theorem State.takeFree_params (s : State) : s.takeFree.params = s.params := rfl
@[simp] theorem State.takeFree_script (s : State) : s.takeFree.script = s.script := rfl
@[simp] theorem State.takeFree_reads (s : State) : s.takeFree.reads = s.reads := rfl
@[simp] theorem State.takeFree_faults (s : State) : s.takeFree.faults = s.faults := rfl
@[simp] theorem State.takeFree_nextStream (s : State) : s.takeFree.nextStream = s.nextStream := rfl
@[simp] theorem State.takeFree_stream (s : State) : s.takeFree.stream = s.stream := rfl
@[simp] theorem State.takeFree_sinkAnswers (s : State) : s.takeFree.sinkAnswers = s.sinkAnswers := rfl
@[simp] theorem State.takeFree_sinkTxns (s : State) : s.takeFree.sinkTxns = s.sinkTxns := rfl
@[simp] theorem State.takeFree_sinkCells (s : State) : s.takeFree.sinkCells = s.sinkCells := rfl
@[simp] theorem State.takeFree_fluxIn (s : State) : s.takeFree.fluxIn = s.fluxIn := rfl
@[simp] theorem State.takeFree_freeCount (s : State) : s.takeFree.freeCount = s.freeCount + 1 := rfl

/-! ### `Block.takeCell` -/

@[simp] theorem Block.takeCell_result (b : Block) (c : Bool) : (b.takeCell c).result = b.result := rfl
@[simp] theorem Block.takeCell_cmdErr (b : Block) (c : Bool) : (b.takeCell c).cmdErr = b.cmdErr := rfl
@[simp] theorem Block.takeCell_lastCmd (b : Block) (c : Bool) : (b.takeCell c).lastCmd = b.lastCmd := rfl
@[simp] theorem Block.takeCell_validMask (b : Block) (c : Bool) : (b.takeCell c).validMask = b.validMask := rfl
@[simp] theorem Block.takeCell_dataBitoff (b : Block) (c : Bool) : (b.takeCell c).dataBitoff = b.dataBitoff := rfl
@[simp] theorem Block.takeCell_startPos (b : Block) (c : Bool) : (b.takeCell c).startPos = b.startPos := rfl
@[simp] theorem Block.takeCell_hdrSecsize (b : Block) (c : Bool) : (b.takeCell c).hdrSecsize = b.hdrSecsize := rfl
@[simp] theorem Block.takeCell_hdrNsec (b : Block) (c : Bool) : (b.takeCell c).hdrNsec = b.hdrNsec := rfl
@[simp] theorem Block.takeCell_hdrLen (b : Block) (c : Bool) : (b.takeCell c).hdrLen = b.hdrLen := rfl
@[simp] theorem Block.takeCell_secbuf (b : Block) (c : Bool) : (b.takeCell c).secbuf = b.secbuf := rfl
@[simp] theorem Block.takeCell_w (b : Block) (c : Bool) : (b.takeCell c).w = shiftIn b.w c := rfl
@[simp] theorem Block.takeCell_pos (b : Block) (c : Bool) : (b.takeCell c).pos = b.pos + 1 := rfl
@[simp] theorem Block.takeCell_fill (b : Block) (c : Bool) : (b.takeCell c).fill = min (b.fill + 1) 16 := rfl
@[simp] theorem Block.takeCell_candOff (b : Block) (c : Bool) : (b.takeCell c).candOff = b.candOff := rfl
@[simp] theorem Block.takeCell_cnt (b : Block) (c : Bool) : (b.takeCell c).cnt = b.cnt := rfl
@[simp] theorem Block.takeCell_wi (b : Block) (c : Bool) : (b.takeCell c).wi = b.wi := rfl
@[simp] theorem Block.takeCell_new (b : Block) (c : Bool) : (b.takeCell c).new = b.new := rfl
@[simp] theorem Block.takeCell_phase (b : Block) (c : Bool) : (b.takeCell c).phase = b.phase := rfl
@[simp] theorem Block.takeCell_wb (b : Block) (c : Bool) : (b.takeCell c).wb = b.wb := rfl
@[simp] theorem Block.takeCell_ti (b : Block) (c : Bool) : (b.takeCell c).ti = b.ti := rfl
@[simp] theorem Block.takeCell_prev (b : Block) (c : Bool) : (b.takeCell c).prev = b.prev := rfl
@[simp] theorem Block.takeCell_opos (b : Block) (c : Bool) : (b.takeCell c).opos = b.opos := rfl
@[simp] theorem Block.takeCell_emask (b : Block) (c : Bool) : (b.takeCell c).emask = b.emask := rfl
@[simp] theorem Block.takeCell_eoff (b : Block) (c : Bool) : (b.takeCell c).eoff = b.eoff := rfl

/-! ### `Block.startDecode` -/

@[simp] theorem Block.startDecode_result (b : Block) (t : Sentinel) : (b.startDecode t).result = b.result := rfl
@[simp] theorem Block.startDecode_cmdErr (b : Block) (t : Sentinel) : (b.startDecode t).cmdErr = b.cmdErr := rfl
@[simp] theorem Block.startDecode_lastCmd (b : Block) (t : Sentinel) : (b.startDecode t).lastCmd = .decode := rfl
@[simp] theorem Block.startDecode_validMask (b : Block) (t : Sentinel) : (b.startDecode t).validMask = 0 := rfl
@[simp] theorem Block.startDecode_dataBitoff (b : Block) (t : Sentinel) : (b.startDecode t).dataBitoff = 0 := rfl
@[simp] theorem Block.startDecode_startPos (b : Block) (t : Sentinel) : (b.startDecode t).startPos = b.startPos := rfl
@[simp] theorem Block.startDecode_hdrSecsize (b : Block) (t : Sentinel) : (b.startDecode t).hdrSecsize = 0 := rfl
@[simp] theorem Block.startDecode_hdrNsec (b : Block) (t : Sentinel) : (b.startDecode t).hdrNsec = 0 := rfl
@[simp] theorem Block.startDecode_hdrLen (b : Block) (t : Sentinel) : (b.startDecode t).hdrLen = 0 := rfl
@[simp] theorem Block.startDecode_secbuf (b : Block) (t : Sentinel) : (b.startDecode t).secbuf = sentinelFill t := rfl
@[simp] theorem Block.startDecode_w (b : Block) (t : Sentinel) : (b.startDecode t).w = 0 := rfl
@[simp] theorem Block.startDecode_pos (b : Block) (t : Sentinel) : (b.startDecode t).pos = b.startPos := rfl
@[simp] theorem Block.startDecode_fill (b : Block) (t : Sentinel) : (b.startDecode t).fill = 0 := rfl
@[simp] theorem Block.startDecode_candOff (b : Block) (t : Sentinel) : (b.startDecode t).candOff = b.candOff := rfl
@[simp] theorem Block.startDecode_cnt (b : Block) (t : Sentinel) : (b.startDecode t).cnt = 0 := rfl
@[simp] theorem Block.startDecode_wi (b : Block) (t : Sentinel) : (b.startDecode t).wi = 0 := rfl
@[simp] theorem Block.startDecode_new (b : Block) (t : Sentinel) : (b.startDecode t).new = 0 := rfl
@[simp] theorem Block.startDecode_phase (b : Block) (t : Sentinel) : (b.startDecode t).phase = .dScan := rfl
@[simp] theorem Block.startDecode_wb (b : Block) (t : Sentinel) : (b.startDecode t).wb = b.wb := rfl
@[simp] theorem Block.startDecode_ti (b : Block) (t : Sentinel) : (b.startDecode t).ti = b.ti := rfl
@[simp] theorem Block.startDecode_prev (b : Block) (t : Sentinel) : (b.startDecode t).prev = b.prev := rfl
@[simp] theorem Block.startDecode_opos (b : Block) (t : Sentinel) : (b.startDecode t).opos = b.opos := rfl
@[simp] theorem Block.startDecode_emask (b : Block) (t : Sentinel) : (b.startDecode t).emask = b.emask := rfl
@[simp] theorem Block.startDecode_eoff (b : Block) (t : Sentinel) : (b.startDecode t).eoff = b.eoff := rfl

/-! ### `Block.startEncode` -/

@[simp] theorem Block.startEncode_result (b : Block) : b.startEncode.result = b.result := rfl
@[simp] theorem Block.startEncode_cmdErr (b : Block) : b.startEncode.cmdErr = b.cmdErr := rfl
@[simp] theorem Block.startEncode_lastCmd (b : Block) : b.startEncode.lastCmd = .encode := rfl
@[simp] theorem Block.startEncode_validMask (b : Block) : b.startEncode.validMask = b.validMask := rfl
@[simp] theorem Block.startEncode_dataBitoff (b : Block) : b.startEncode.dataBitoff = b.dataBitoff := rfl
@[simp] theorem Block.startEncode_startPos (b : Block) : b.startEncode.startPos = b.startPos := rfl
@[simp] theorem Block.startEncode_hdrSecsize (b : Block) : b.startEncode.hdrSecsize = b.hdrSecsize := rfl
@[simp] theorem Block.startEncode_hdrNsec (b : Block) : b.startEncode.hdrNsec = b.hdrNsec := rfl
@[simp] theorem Block.startEncode_hdrLen (b : Block) : b.startEncode.hdrLen = b.hdrLen := rfl
@[simp] theorem Block.startEncode_secbuf (b : Block) : b.startEncode.secbuf = b.secbuf := rfl
@[simp] theorem Block.startEncode_w (b : Block) : b.startEncode.w = b.w := rfl
@[simp] theorem Block.startEncode_pos (b : Block) : b.startEncode.pos = b.pos := rfl
@[simp] theorem Block.startEncode_fill (b : Block) : b.startEncode.fill = b.fill := rfl
@[simp] theorem Block.startEncode_candOff (b : Block) : b.startEncode.candOff = b.candOff := rfl
@[simp] theorem Block.startEncode_cnt (b : Block) : b.startEncode.cnt = b.cnt := rfl
@[simp] theorem Block.startEncode_wi (b : Block) : b.startEncode.wi = b.wi := rfl
@[simp] theorem Block.startEncode_new (b : Block) : b.startEncode.new = b.new := rfl
@[simp] theorem Block.startEncode_phase (b : Block) : b.startEncode.phase = .eEmit := rfl
@[simp] theorem Block.startEncode_wb (b : Block) : b.startEncode.wb = b.wb := rfl
@[simp] theorem Block.startEncode_ti (b : Block) : b.startEncode.ti = 0 := rfl
@[simp] theorem Block.startEncode_prev (b : Block) : b.startEncode.prev = b.prev := rfl
@[simp] theorem Block.startEncode_opos (b : Block) : b.startEncode.opos = b.opos := rfl
@[simp] theorem Block.startEncode_emask (b : Block) : b.startEncode.emask = b.validMask := rfl
@[simp] theorem Block.startEncode_eoff (b : Block) : b.startEncode.eoff = b.dataBitoff := rfl

/-! ### `Block.endAttempt` -/

@[simp] theorem Block.endAttempt_result (b : Block) : b.endAttempt.result = b.result := rfl
@[simp] theorem Block.endAttempt_cmdErr (b : Block) : b.endAttempt.cmdErr = b.cmdErr := rfl
@[simp] theorem Block.endAttempt_lastCmd (b : Block) : b.endAttempt.lastCmd = b.lastCmd := rfl
@[simp] theorem Block.endAttempt_validMask (b : Block) : b.endAttempt.validMask = b.validMask := rfl
@[simp] theorem Block.endAttempt_dataBitoff (b : Block) : b.endAttempt.dataBitoff = if b.new > 0 then b.candOff else b.dataBitoff := rfl
@[simp] theorem Block.endAttempt_startPos (b : Block) : b.endAttempt.startPos = b.startPos := rfl
@[simp] theorem Block.endAttempt_hdrSecsize (b : Block) : b.endAttempt.hdrSecsize = b.hdrSecsize := rfl
@[simp] theorem Block.endAttempt_hdrNsec (b : Block) : b.endAttempt.hdrNsec = b.hdrNsec := rfl
@[simp] theorem Block.endAttempt_hdrLen (b : Block) : b.endAttempt.hdrLen = b.hdrLen := rfl
@[simp] theorem Block.endAttempt_secbuf (b : Block) : b.endAttempt.secbuf = b.secbuf := rfl
@[simp] theorem Block.endAttempt_w (b : Block) : b.endAttempt.w = b.w := rfl
@[simp] theorem Block.endAttempt_pos (b : Block) : b.endAttempt.pos = b.pos := rfl
@[simp] theorem Block.endAttempt_fill (b : Block) : b.endAttempt.fill = b.fill := rfl
@[simp] theorem Block.endAttempt_candOff (b : Block) : b.endAttempt.candOff = b.candOff := rfl
@[simp] theorem Block.endAttempt_cnt (b : Block) : b.endAttempt.cnt = b.cnt := rfl
@[simp] theorem Block.endAttempt_wi (b : Block) : b.endAttempt.wi = b.wi := rfl
@[simp] theorem Block.endAttempt_new (b : Block) : b.endAttempt.new = b.new := rfl
@[simp] theorem Block.endAttempt_phase (b : Block) : b.endAttempt.phase = if b.validMask = 0x3F then .dFinish else .dScan := rfl
@[simp] theorem Block.endAttempt_wb (b : Block) : b.endAttempt.wb = b.wb := rfl
@[simp] theorem Block.endAttempt_ti (b : Block) : b.endAttempt.ti = b.ti := rfl
@[simp] theorem Block.endAttempt_prev (b : Block) : b.endAttempt.prev = b.prev := rfl
@[simp] theorem Block.endAttempt_opos (b : Block) : b.endAttempt.opos = b.opos := rfl
@[simp] theorem Block.endAttempt_emask (b : Block) : b.endAttempt.emask = b.emask := rfl
@[simp] theorem Block.endAttempt_eoff (b : Block) : b.endAttempt.eoff = b.eoff := rfl

/-! ### The reset input and what follows -/

@[simp] theorem assertReset_block (s : State) : (assertReset s).block = Block.reset := rfl
@[simp] theorem assertReset_params (s : State) : (assertReset s).params = s.params := rfl
@[simp] theorem assertReset_script (s : State) : (assertReset s).script = s.script := rfl
@[simp] theorem assertReset_reads (s : State) : (assertReset s).reads = s.reads := rfl
@[simp] theorem assertReset_faults (s : State) : (assertReset s).faults = s.faults := rfl
@[simp] theorem assertReset_nextStream (s : State) : (assertReset s).nextStream = s.nextStream := rfl
@[simp] theorem assertReset_stream (s : State) : (assertReset s).stream = s.stream := rfl
@[simp] theorem assertReset_sinkAnswers (s : State) : (assertReset s).sinkAnswers = s.sinkAnswers := rfl
@[simp] theorem assertReset_sinkTxns (s : State) : (assertReset s).sinkTxns = s.sinkTxns := rfl
@[simp] theorem assertReset_sinkCells (s : State) : (assertReset s).sinkCells = s.sinkCells := rfl
@[simp] theorem assertReset_fluxIn (s : State) : (assertReset s).fluxIn = s.fluxIn := rfl
@[simp] theorem assertReset_freeCount (s : State) : (assertReset s).freeCount = s.freeCount := rfl
@[simp] theorem Block.reset_result : Block.reset.result = .none := rfl
@[simp] theorem Block.reset_cmdErr : Block.reset.cmdErr = false := rfl
@[simp] theorem Block.reset_lastCmd : Block.reset.lastCmd = .none := rfl
@[simp] theorem Block.reset_validMask : Block.reset.validMask = 0 := rfl
@[simp] theorem Block.reset_dataBitoff : Block.reset.dataBitoff = 0 := rfl
@[simp] theorem Block.reset_startPos : Block.reset.startPos = 0 := rfl
@[simp] theorem Block.reset_hdrSecsize : Block.reset.hdrSecsize = 0 := rfl
@[simp] theorem Block.reset_hdrNsec : Block.reset.hdrNsec = 0 := rfl
@[simp] theorem Block.reset_hdrLen : Block.reset.hdrLen = 0 := rfl
@[simp] theorem Block.reset_secbuf : Block.reset.secbuf = [] := rfl
@[simp] theorem Block.reset_w : Block.reset.w = 0 := rfl
@[simp] theorem Block.reset_pos : Block.reset.pos = 0 := rfl
@[simp] theorem Block.reset_fill : Block.reset.fill = 0 := rfl
@[simp] theorem Block.reset_candOff : Block.reset.candOff = 0 := rfl
@[simp] theorem Block.reset_cnt : Block.reset.cnt = 0 := rfl
@[simp] theorem Block.reset_wi : Block.reset.wi = 0 := rfl
@[simp] theorem Block.reset_new : Block.reset.new = 0 := rfl
@[simp] theorem Block.reset_phase : Block.reset.phase = .idle := rfl
@[simp] theorem Block.reset_wb : Block.reset.wb = [] := rfl
@[simp] theorem Block.reset_ti : Block.reset.ti = 0 := rfl
@[simp] theorem Block.reset_prev : Block.reset.prev = false := rfl
@[simp] theorem Block.reset_opos : Block.reset.opos = 0 := rfl
@[simp] theorem Block.reset_emask : Block.reset.emask = 0 := rfl
@[simp] theorem Block.reset_eoff : Block.reset.eoff = 0 := rfl

end Sys2Proof.Machine
end

