-- ==== Sys2Proof/Laws/Memory.lean ====
section
/-! SUPPORT. The laws of the sparse lists behind `SECBUF` and `WB`: what a read sees after a write, and that every
operation keeps the canonical form. -/

namespace Sys2Proof.Machine

variable {α : Type}

/-! ## Sparse lists -/

@[simp] theorem sparseRead_nil (i : Nat) : sparseRead ([] : List (Nat × α)) i = none := rfl

/-- A read after a write to the same key gives the value written. -/
theorem sparseRead_sparseWrite_same (m : List (Nat × α)) (i : Nat) (v : α) :
    sparseRead (sparseWrite m i v) i = some v := by
  induction m with
  | nil => simp [sparseWrite, sparseRead]
  | cons p m ih =>
    obtain ⟨a, x⟩ := p
    simp only [sparseWrite]
    split
    · simp [sparseRead]
    · split
      · simp [sparseRead]
      · next h => simp [sparseRead, ih, Ne.symm h]

/-- A write leaves every other key alone. -/
theorem sparseRead_sparseWrite_other (m : List (Nat × α)) {i j : Nat} (v : α) (h : j ≠ i) :
    sparseRead (sparseWrite m i v) j = sparseRead m j := by
  induction m with
  | nil => simp [sparseWrite, sparseRead, Ne.symm h]
  | cons p m ih =>
    obtain ⟨a, x⟩ := p
    simp only [sparseWrite]
    split
    · simp [sparseRead, Ne.symm h]
    · split
      · next h' => simp [sparseRead, Ne.symm h, ← h']
      · simp [sparseRead, ih]

/-- What a read sees after a write. -/
theorem sparseRead_sparseWrite (m : List (Nat × α)) (i j : Nat) (v : α) :
    sparseRead (sparseWrite m i v) j = if j = i then some v else sparseRead m j := by
  split
  · next h => rw [h, sparseRead_sparseWrite_same]
  · next h => exact sparseRead_sparseWrite_other m v h

/-- The canonical form with a smaller lower bound. -/
theorem sparseWf_mono {lo lo' hi : Nat} {m : List (Nat × α)} (h : lo' ≤ lo) (hm : sparseWf lo hi m = true) :
    sparseWf lo' hi m = true := by
  cases m with
  | nil => rfl
  | cons p m =>
    obtain ⟨a, x⟩ := p
    simp only [sparseWf, Bool.and_eq_true, decide_eq_true_eq] at hm ⊢
    exact ⟨⟨by omega, hm.1.2⟩, hm.2⟩

/-- A write at a key within the bounds keeps the canonical form. -/
theorem sparseWf_sparseWrite {lo hi i : Nat} {m : List (Nat × α)} (v : α) (hlo : lo ≤ i) (hhi : i < hi)
    (hm : sparseWf lo hi m = true) : sparseWf lo hi (sparseWrite m i v) = true := by
  induction m generalizing lo with
  | nil => simp [sparseWrite, sparseWf, hlo, hhi]
  | cons p m ih =>
    obtain ⟨a, x⟩ := p
    simp only [sparseWf, Bool.and_eq_true, decide_eq_true_eq] at hm
    simp only [sparseWrite]
    split
    · simp only [sparseWf, Bool.and_eq_true, decide_eq_true_eq]
      exact ⟨⟨hlo, hhi⟩, ⟨by omega, hm.1.2⟩, hm.2⟩
    · split
      · next h =>
        subst h
        simp only [sparseWf, Bool.and_eq_true, decide_eq_true_eq]
        exact ⟨⟨hlo, hhi⟩, hm.2⟩
      · simp only [sparseWf, Bool.and_eq_true, decide_eq_true_eq]
        exact ⟨⟨hm.1.1, hm.1.2⟩, ih (by omega) hm.2⟩

/-- Nothing is stored below the lower bound of a canonical list. -/
theorem sparseRead_below {lo hi i : Nat} {m : List (Nat × α)} (hm : sparseWf lo hi m = true) (h : i < lo) :
    sparseRead m i = none := by
  induction m generalizing lo with
  | nil => rfl
  | cons p m ih =>
    obtain ⟨a, x⟩ := p
    simp only [sparseWf, Bool.and_eq_true, decide_eq_true_eq] at hm
    have : a ≠ i := by omega
    simp only [sparseRead, this, if_false]
    exact ih hm.2 (by omega)

/-- Nothing is stored at or above the upper bound of a canonical list. -/
theorem sparseRead_above {lo hi i : Nat} {m : List (Nat × α)} (hm : sparseWf lo hi m = true) (h : hi ≤ i) :
    sparseRead m i = none := by
  induction m generalizing lo with
  | nil => rfl
  | cons p m ih =>
    obtain ⟨a, x⟩ := p
    simp only [sparseWf, Bool.and_eq_true, decide_eq_true_eq] at hm
    have : a ≠ i := by omega
    simp only [sparseRead, this, if_false]
    exact ih hm.2

/-- Equal memories are equal data: two canonical lists that read alike everywhere are the same list. -/
theorem sparse_ext {lo hi : Nat} {m m' : List (Nat × α)} (hm : sparseWf lo hi m = true)
    (hm' : sparseWf lo hi m' = true) (h : ∀ i, sparseRead m i = sparseRead m' i) : m = m' := by
  induction m generalizing lo m' with
  | nil =>
    cases m' with
    | nil => rfl
    | cons q m' => simpa [sparseRead] using h q.1
  | cons p m ih =>
    obtain ⟨a, x⟩ := p
    cases m' with
    | nil => simpa [sparseRead] using h a
    | cons q m' =>
      obtain ⟨b, y⟩ := q
      simp only [sparseWf, Bool.and_eq_true, decide_eq_true_eq] at hm hm'
      have hab : a = b := by
        rcases Nat.lt_trichotomy a b with hlt | heq | hgt
        · have := h a
          simp [sparseRead, Nat.ne_of_gt hlt, sparseRead_below hm'.2 (by omega : a < b + 1)] at this
        · exact heq
        · have := h b
          simp [sparseRead, Nat.ne_of_gt hgt, sparseRead_below hm.2 (by omega : b < a + 1)] at this
      subst hab
      have hxy : x = y := by simpa [sparseRead] using h a
      subst hxy
      congr 1
      refine ih hm.2 hm'.2 fun i => ?_
      by_cases hi : a = i
      · subst hi
        rw [sparseRead_below hm.2 (Nat.lt_succ_self a), sparseRead_below hm'.2 (Nat.lt_succ_self a)]
      · simpa [sparseRead, hi] using h i

/-- A run of keys reads as the list of what its keys read as. -/
theorem sparseRun_eq_some {m : List (Nat × α)} {i n : Nat} {vs : List α} :
    sparseRun m i n = some vs ↔ vs.length = n ∧ ∀ k < n, sparseRead m (i + k) = vs[k]? := by
  induction n generalizing i vs with
  | zero =>
    simp only [sparseRun, Option.some.injEq]
    constructor
    · rintro rfl
      simp
    · rintro ⟨h, -⟩
      exact (List.length_eq_zero_iff.mp h).symm
  | succ n ih =>
    simp only [sparseRun]
    constructor
    · intro h
      split at h
      · next v ws hv hw =>
        obtain ⟨hl, hr⟩ := ih.mp hw
        simp only [Option.some.injEq] at h
        subst h
        refine ⟨by simp [hl], fun k hk => ?_⟩
        cases k with
        | zero => simpa using hv
        | succ k =>
          have := hr k (by omega)
          rw [show i + (k + 1) = i + 1 + k by omega, this]
          simp
      · simp at h
    · rintro ⟨hl, hr⟩
      cases vs with
      | nil => simp at hl
      | cons v ws =>
        have h0 := hr 0 (by omega)
        simp only [Nat.add_zero, List.getElem?_cons_zero] at h0
        have hws : sparseRun m (i + 1) n = some ws := by
          refine ih.mpr ⟨by simpa using hl, fun k hk => ?_⟩
          have := hr (k + 1) (by omega)
          rw [show i + 1 + k = i + (k + 1) by omega, this]
          simp
        simp [h0, hws]

/-- A run of keys that are all stored reads as some list. -/
theorem sparseRun_isSome {m : List (Nat × α)} {i n : Nat} (h : ∀ k < n, (sparseRead m (i + k)).isSome = true) :
    ∃ vs, sparseRun m i n = some vs := by
  induction n generalizing i with
  | zero => exact ⟨[], rfl⟩
  | succ n ih =>
    obtain ⟨v, hv⟩ := Option.isSome_iff_exists.mp (h 0 (by omega))
    obtain ⟨vs, hvs⟩ := ih (i := i + 1) fun k hk => by
      have := h (k + 1) (by omega)
      rwa [show i + (k + 1) = i + 1 + k by omega] at this
    exact ⟨v :: vs, by simp only [Nat.add_zero] at hv; simp [sparseRun, hv, hvs]⟩

/-! ## The sector buffer -/

/-- `MemWrite` over the first `n` of its bytes, for the induction of the lemmas below. -/
theorem memByte_writeBytes (m : Memory) (off w n : Nat) (v : Word32) (a : Nat) :
    memByte ((List.range n).foldl (fun m i => sparseWrite m (off + i) (byteBE w i v)) m) a =
      if off ≤ a ∧ a < off + n then some (byteBE w (a - off) v) else memByte m a := by
  induction n with
  | zero =>
    have : ¬ (off ≤ a ∧ a < off + 0) := by omega
    rw [if_neg this]
    rfl
  | succ n ih =>
    rw [List.range_succ, List.foldl_append]
    simp only [List.foldl_cons, List.foldl_nil, memByte] at ih ⊢
    rw [sparseRead_sparseWrite, ih]
    by_cases h : a = off + n
    · subst h
      simp
    · by_cases h' : off ≤ a ∧ a < off + n
      · have h'' : off ≤ a ∧ a < off + (n + 1) := by omega
        simp [h, h', h'']
      · have h'' : ¬ (off ≤ a ∧ a < off + (n + 1)) := by omega
        simp only [h, h', h'', if_false]

/-- What a byte reads as after `MemWrite(off, n, v)`: the written bytes big-endian, every other byte as before. -/
theorem memByte_memWrite (m : Memory) (off n : Nat) (v : Word32) (a : Nat) :
    memByte (memWrite m off n v) a =
      if off ≤ a ∧ a < off + n then some (byteBE n (a - off) v) else memByte m a :=
  memByte_writeBytes m off n n v a

/-- `MemWrite` inside the buffer keeps the canonical form. -/
theorem memWrite_wf {m : Memory} {off n : Nat} (v : Word32) (hin : off + n ≤ Config.bufLen) (hm : m.wf = true) :
    (memWrite m off n v).wf = true := by
  have key : ∀ k ≤ n, Memory.wf ((List.range k).foldl (fun m i => sparseWrite m (off + i) (byteBE n i v)) m) = true := by
    intro k
    induction k with
    | zero => intro _; simpa using hm
    | succ k ih =>
      intro hk
      rw [List.range_succ, List.foldl_append]
      exact sparseWf_sparseWrite _ (by omega) (by omega) (ih (by omega))
  exact key n (Nat.le_refl n)

/-- Every byte written stays written. -/
theorem memByte_memWrite_isSome {m : Memory} {a : Nat} (off n : Nat) (v : Word32) (h : (memByte m a).isSome = true) :
    (memByte (memWrite m off n v) a).isSome = true := by
  rw [memByte_memWrite]
  split
  · rfl
  · exact h

theorem memByte_sentinelFrom (t : Sentinel) (i n a : Nat) :
    memByte (sentinelFrom t i n) a = if i ≤ a ∧ a < i + n then some (sentinelByte t a) else none := by
  induction n generalizing i with
  | zero =>
    have : ¬ (i ≤ a ∧ a < i + 0) := by omega
    rw [if_neg this]
    rfl
  | succ n ih =>
    simp only [memByte] at ih
    simp only [sentinelFrom, memByte, sparseRead, ih]
    by_cases h : i = a
    · subst h
      simp
    · by_cases h' : i + 1 ≤ a ∧ a < i + 1 + n
      · have : i ≤ a ∧ a < i + (n + 1) := by omega
        simp [h, h', this]
      · have : ¬ (i ≤ a ∧ a < i + (n + 1)) := by omega
        simp only [h, h', this, if_false]

/-- What a byte reads as after the sentinel fill (43_checksum_validator.md R110). -/
theorem memByte_sentinelFill (t : Sentinel) (a : Nat) :
    memByte (sentinelFill t) a = if a < Config.bufLen then some (sentinelByte t a) else none := by
  rw [sentinelFill, memByte_sentinelFrom]
  simp

theorem sentinelFrom_wf (t : Sentinel) (i n : Nat) : sparseWf i (i + n) (sentinelFrom t i n) = true := by
  induction n generalizing i with
  | zero => rfl
  | succ n ih =>
    simp only [sentinelFrom, sparseWf, Bool.and_eq_true, decide_eq_true_eq]
    refine ⟨⟨Nat.le_refl _, by omega⟩, ?_⟩
    rw [show i + (n + 1) = i + 1 + n by omega]
    exact ih (i + 1)

/-- The sentinel fill has the canonical form. -/
theorem sentinelFill_wf (t : Sentinel) : Memory.wf (sentinelFill t) = true := by
  have := sentinelFrom_wf t 0 Config.bufLen
  rwa [Nat.zero_add] at this

theorem firstUnwrittenFrom_eq_none {m : Memory} {i n : Nat} :
    firstUnwrittenFrom m i n = none ↔ ∀ k < n, (memByte m (i + k)).isSome = true := by
  induction n generalizing i with
  | zero => simp [firstUnwrittenFrom]
  | succ n ih =>
    simp only [firstUnwrittenFrom]
    split
    · next h =>
      constructor
      · intro h'; simp at h'
      · intro h'
        have := h' 0 (by omega)
        simp only [Nat.add_zero] at this
        rw [Option.isNone_iff_eq_none] at h
        simp [h] at this
    · next h =>
      rw [ih]
      constructor
      · intro h' k hk
        cases k with
        | zero =>
          cases hm : memByte m i with
          | none => simp [hm] at h
          | some v => simp
        | succ k =>
          have := h' k (by omega)
          rwa [show i + 1 + k = i + (k + 1) by omega] at this
      · intro h' k hk
        have := h' (k + 1) (by omega)
        rwa [show i + (k + 1) = i + 1 + k by omega] at this

theorem firstUnwrittenFrom_eq_some {m : Memory} {i n off : Nat} :
    firstUnwrittenFrom m i n = some off ↔
      (i ≤ off ∧ off < i + n) ∧ memByte m off = none ∧ ∀ k, i ≤ k → k < off → (memByte m k).isSome = true := by
  induction n generalizing i with
  | zero =>
    simp only [firstUnwrittenFrom]
    constructor
    · intro h; simp at h
    · rintro ⟨h, -⟩; omega
  | succ n ih =>
    simp only [firstUnwrittenFrom]
    split
    · next h =>
      rw [Option.isNone_iff_eq_none] at h
      constructor
      · intro he
        simp only [Option.some.injEq] at he
        subst he
        exact ⟨⟨Nat.le_refl _, by omega⟩, h, fun k h1 h2 => by omega⟩
      · rintro ⟨h1, h2, h3⟩
        by_cases he : i = off
        · rw [he]
        · have := h3 i (Nat.le_refl _) (by omega)
          simp [h] at this
    · next h =>
      have hi : (memByte m i).isSome = true := by
        cases hm : memByte m i with
        | none => simp [hm] at h
        | some v => rfl
      rw [ih]
      constructor
      · rintro ⟨h1, h2, h3⟩
        refine ⟨by omega, h2, fun k hk hk' => ?_⟩
        by_cases he : k = i
        · rw [he]; exact hi
        · exact h3 k (by omega) hk'
      · rintro ⟨h1, h2, h3⟩
        have hne : off ≠ i := by
          rintro rfl
          simp [h2] at hi
        exact ⟨by omega, h2, fun k hk hk' => h3 k (by omega) hk'⟩

/-- No byte is unwritten exactly when every byte is written. -/
theorem firstUnwritten_eq_none {m : Memory} :
    firstUnwritten m = none ↔ ∀ i < Config.bufLen, (memByte m i).isSome = true := by
  rw [firstUnwritten, firstUnwrittenFrom_eq_none]
  simp

/-- The lowest unwritten offset is unwritten, and every byte below it is written. -/
theorem firstUnwritten_eq_some {m : Memory} {off : Nat} :
    firstUnwritten m = some off ↔
      off < Config.bufLen ∧ memByte m off = none ∧ ∀ k < off, (memByte m k).isSome = true := by
  rw [firstUnwritten, firstUnwrittenFrom_eq_some]
  constructor
  · rintro ⟨h1, h2, h3⟩
    exact ⟨by omega, h2, fun k hk => h3 k (by omega) hk⟩
  · rintro ⟨h1, h2, h3⟩
    exact ⟨by omega, h2, fun k _ hk => h3 k hk⟩

/-- `allWritten` says what it is named for. -/
theorem allWritten_iff {m : Memory} :
    allWritten m = true ↔ ∀ i < Config.bufLen, (memByte m i).isSome = true := by
  rw [allWritten, Option.isNone_iff_eq_none, firstUnwritten_eq_none]

theorem allWritten_sentinelFill (t : Sentinel) : allWritten (sentinelFill t) = true := by
  rw [allWritten_iff]
  intro i hi
  rw [memByte_sentinelFill, if_pos hi]
  rfl

/-- A write leaves a fully written buffer fully written. -/
theorem allWritten_memWrite {m : Memory} (off n : Nat) (v : Word32) (h : allWritten m = true) :
    allWritten (memWrite m off n v) = true := by
  rw [allWritten_iff] at h ⊢
  exact fun i hi => memByte_memWrite_isSome off n v (h i hi)

/-! ## Slots -/

theorem writeSlot_nil (m : Memory) (s : Nat) : writeSlot m s [] = m := rfl

/-- The slot write, one word appended at a time. -/
theorem writeSlot_append (m : Memory) (s : Nat) (body : List Word16) (w : Word16) :
    writeSlot m s (body ++ [w]) =
      memWrite (writeSlot m s body) (Config.secBytes * s + 2 * body.length) 2 (w.setWidth 32) := by
  simp [writeSlot, List.zipIdx_append, List.foldl_append]

/-- What a byte reads as after a slot is written: its word's bytes big-endian (20_memory.md R44), every other byte as
before. -/
theorem memByte_writeSlot (m : Memory) (s : Nat) (body : List Word16) (a : Nat) :
    memByte (writeSlot m s body) a =
      if h : Config.secBytes * s ≤ a ∧ a < Config.secBytes * s + 2 * body.length then
        some (byteBE 2 ((a - Config.secBytes * s) % 2)
          ((body[(a - Config.secBytes * s) / 2]'(by omega)).setWidth 32))
      else memByte m a := by
  induction body using List.reverseRecOn with
  | nil =>
    have : ¬ (Config.secBytes * s ≤ a ∧ a < Config.secBytes * s + 2 * ([] : List Word16).length) := by
      simp
    rw [dif_neg this, writeSlot_nil]
  | append_singleton body w ih =>
    rw [writeSlot_append, memByte_memWrite, ih]
    by_cases h1 : Config.secBytes * s + 2 * body.length ≤ a ∧ a < Config.secBytes * s + 2 * body.length + 2
    · have h2 : Config.secBytes * s ≤ a ∧ a < Config.secBytes * s + 2 * (body ++ [w]).length := by
        simp only [List.length_append, List.length_singleton]; omega
      have h3 : (a - Config.secBytes * s) / 2 = body.length := by omega
      have h4 : a - (Config.secBytes * s + 2 * body.length) = (a - Config.secBytes * s) % 2 := by omega
      rw [if_pos h1, dif_pos h2, h4]
      congr 2
      simp [h3]
    · by_cases h2 : Config.secBytes * s ≤ a ∧ a < Config.secBytes * s + 2 * body.length
      · have h3 : Config.secBytes * s ≤ a ∧ a < Config.secBytes * s + 2 * (body ++ [w]).length := by
          simp only [List.length_append, List.length_singleton]; omega
        rw [if_neg h1, dif_pos h2, dif_pos h3]
        congr 3
        rw [List.getElem_append_left]
      · have h3 : ¬ (Config.secBytes * s ≤ a ∧ a < Config.secBytes * s + 2 * (body ++ [w]).length) := by
          simp only [List.length_append, List.length_singleton]; omega
        rw [if_neg h1, dif_neg h2, dif_neg h3]

/-- A slot write inside the buffer keeps the canonical form. -/
theorem writeSlot_wf {m : Memory} {s : Nat} {body : List Word16}
    (hin : Config.secBytes * s + 2 * body.length ≤ Config.bufLen) (hm : m.wf = true) :
    (writeSlot m s body).wf = true := by
  induction body using List.reverseRecOn with
  | nil => exact hm
  | append_singleton body w ih =>
    simp only [List.length_append, List.length_singleton] at hin
    rw [writeSlot_append]
    exact memWrite_wf _ (by omega) (ih (by omega))

/-- A slot write leaves a fully written buffer fully written. -/
theorem allWritten_writeSlot {m : Memory} (s : Nat) (body : List Word16) (h : allWritten m = true) :
    allWritten (writeSlot m s body) = true := by
  induction body using List.reverseRecOn with
  | nil => exact h
  | append_singleton body w ih =>
    rw [writeSlot_append]
    exact allWritten_memWrite _ _ _ ih

/-! ## Words -/

/-- A written pair of bytes reads as a word. -/
theorem secWord_isSome {m : Memory} {s k : Nat} (h : allWritten m = true) (hs : s < Config.nsec) (hk : k < Config.wps) :
    ∃ w, secWord m s k = some w := by
  rw [allWritten_iff] at h
  simp only [Config.nsec, Config.wps, Config.bufLen] at *
  obtain ⟨vs, hvs⟩ := sparseRun_isSome (m := m) (i := Config.secBytes * s + 2 * k) (n := 2) fun j hj =>
    h (Config.secBytes * s + 2 * k + j) (by simp only [Config.secBytes]; omega)
  exact ⟨(bytesBE vs).setWidth 16, by simp [secWord, memRead, hvs]⟩

theorem secWordsFrom_isSome {m : Memory} {s k n : Nat} (h : allWritten m = true) (hs : s < Config.nsec)
    (hk : k + n ≤ Config.wps) : ∃ ws, secWordsFrom m s k n = some ws := by
  induction n generalizing k with
  | zero => exact ⟨[], rfl⟩
  | succ n ih =>
    obtain ⟨w, hw⟩ := secWord_isSome h hs (by omega : k < Config.wps)
    obtain ⟨ws, hws⟩ := ih (k := k + 1) (by omega)
    exact ⟨w :: ws, by simp [secWordsFrom, hw, hws]⟩

/-- A fully written buffer has all 512 words of every sector. -/
theorem secWords_isSome {m : Memory} {s : Nat} (h : allWritten m = true) (hs : s < Config.nsec) :
    ∃ ws, secWords m s = some ws := secWordsFrom_isSome h hs (by omega)

end Sys2Proof.Machine
end

