-- ==== Sys2Proof/Laws/Ops.lean ====
section
/-! SUPPORT. For each shared operation, what it can do, said once. -/

namespace Sys2Proof.Machine

/-! ## Ports -/

/-- What a `ReadCell()` can answer (20_memory.md R58, R59): it changes nothing but the stream. -/
theorem readCell_cases (s : State) :
    (s.stream = [] ∧ readCell s = .eos) ∨
    (∃ c rest, s.stream = .cell c :: rest ∧ readCell s = .cell c { s with stream := rest }) ∨
    (∃ rest, s.stream = .notReady :: rest ∧ readCell s = .hold { s with stream := rest }) ∨
    (∃ rest, s.stream = .never :: rest ∧ readCell s = .hold s) := by
  unfold readCell
  rcases h : s.stream with _ | ⟨a, rest⟩
  · exact .inl ⟨rfl, rfl⟩
  · cases a with
    | cell c => exact .inr (.inl ⟨c, rest, rfl, rfl⟩)
    | notReady => exact .inr (.inr (.inl ⟨rest, rfl, rfl⟩))
    | never => exact .inr (.inr (.inr ⟨rest, rfl, rfl⟩))

/-- What the sink can answer (20_memory.md R60): it changes nothing but its own answers. -/
theorem askSink_cases (s : State) :
    (∃ l, askSink s = .ready { s with sinkAnswers := l }) ∨ (∃ l, askSink s = .hold { s with sinkAnswers := l }) := by
  unfold askSink
  rcases h : s.sinkAnswers with _ | ⟨a, rest⟩
  · exact .inl ⟨[], by simp [← h]⟩
  · cases a with
    | accept => exact .inl ⟨rest, rfl⟩
    | notReady => exact .inr ⟨rest, rfl⟩
    | never => exact .inr ⟨.never :: rest, by simp [← h]⟩

/-- A sink with no answers left is ready. -/
@[simp] theorem askSink_nil {s : State} (h : s.sinkAnswers = []) : askSink s = .ready s := by
  simp [askSink, h]

/-! ## Flags -/

theorem busy_eq_false {b : Block} : b.busy = false ↔ b.phase = .idle := by
  simp [Block.busy]

theorem busy_eq_true {b : Block} : b.busy = true ↔ b.phase ≠ .idle := by
  simp [Block.busy]

theorem validBit_setValid {mask : BitVec 6} {s i : Nat} (hs : s < 6) :
    validBit (setValid mask s) i = (validBit mask i || decide (i = s)) := by
  simp only [validBit, setValid, BitVec.getLsbD_or, BitVec.getLsbD_shiftLeft, BitVec.getLsbD_one]
  by_cases h : i = s
  · subst h
    simp [hs]
  · have : ¬ (i < 6 ∧ ¬ i < s ∧ i - s = 0) := by omega
    simp [h]
    omega

/-! ## Commands -/

/-- A command written while busy is dropped with `CMDERR`, whatever it is (40_commands.md R91). -/
theorem execNop_busy {s : State} (h : s.block.busy = true) : execNop s = .next s.dropCommand := by simp [execNop, h]
theorem execDecode_busy {s : State} (h : s.block.busy = true) : execDecode s = .next s.dropCommand := by
  simp [execDecode, h]
theorem execEncode_busy {s : State} (h : s.block.busy = true) : execEncode s = .next s.dropCommand := by
  simp [execEncode, h]

/-- Everything a command can do. -/
theorem decodeCommand_exec_cases {w : Word32} {i : Instr} (h : decodeCommand w = .ok i) (s : State) :
    (s.block.busy = true ∧ exec i s = .next s.dropCommand) ∨
    (s.block.phase = .idle ∧ i = .nop ∧ exec i s = .next s) ∨
    (s.block.phase = .idle ∧ i = .decode ∧ exec i s = .next { s with
      block := s.block.startDecode s.params.sentinel, stream := s.nextStream, nextStream := [] }) ∨
    (s.block.phase = .idle ∧ i = .encode ∧ ∃ off, firstUnwritten s.block.secbuf = some off ∧
      exec i s = .next (s.raise (.uninitEncode off))) ∨
    (s.block.phase = .idle ∧ i = .encode ∧ firstUnwritten s.block.secbuf = none ∧
      exec i s = .next { s with block := s.block.startEncode }) := by
  have hi : i = .nop ∨ i = .decode ∨ i = .encode := by
    unfold decodeCommand at h
    split at h
    · cases h
    · split at h
      · cases h; exact .inl rfl
      · split at h
        · cases h; exact .inr (.inl rfl)
        · split at h
          · cases h; exact .inr (.inr rfl)
          · cases h
  cases hb : s.block.busy with
  | true =>
    left
    rcases hi with rfl | rfl | rfl
    · exact ⟨rfl, execNop_busy hb⟩
    · exact ⟨rfl, execDecode_busy hb⟩
    · exact ⟨rfl, execEncode_busy hb⟩
  | false =>
    have hp := busy_eq_false.mp hb
    right
    rcases hi with rfl | rfl | rfl
    · exact .inl ⟨hp, rfl, by simp [exec, execNop, hb]⟩
    · exact .inr (.inl ⟨hp, rfl, by simp [exec, execDecode, hb]⟩)
    · cases hu : firstUnwritten s.block.secbuf with
      | some off => exact .inr (.inr (.inl ⟨hp, rfl, off, rfl, by simp [exec, execEncode, hb, hu]⟩))
      | none => exact .inr (.inr (.inr ⟨hp, rfl, rfl, by simp [exec, execEncode, hb, hu]⟩))

/-! ## The flux encoder -/

/-- A bit of `VALUE` within its 32 bits is the bit, and reading it changes nothing. -/
theorem valueBit_of_lt {value : Word32} {i : Nat} {s : State} (h : i < 32) :
    valueBit value i s = (value.getLsbD i, s) := by simp [valueBit, h]

/-- Reading a bit of `VALUE` changes at most the counter of free cells. -/
theorem valueBit_cases (value : Word32) (i : Nat) (s : State) :
    ∃ f, (valueBit value i s).2 = { s with freeCount := f } := by
  unfold valueBit
  split
  · exact ⟨s.freeCount, rfl⟩
  · exact ⟨s.freeCount + 1, rfl⟩

/-- What rendering a TXN may change: cells are added at the sink, `OPOS` advances by their number, `PREV` and the counter
of free cells take some value; nothing else changes. -/
def rendered (s : State) (cells : List CellRecord) (prev : Bool) (free : Nat) : State :=
  { s with
    sinkCells := cells ++ s.sinkCells
    block := { s.block with opos := s.block.opos + BitVec.ofNat 32 cells.length, prev := prev }
    freeCount := free }

theorem rendered_rendered (s : State) (c c' : List CellRecord) (p p' : Bool) (f f' : Nat) :
    rendered (rendered s c p f) c' p' f' = rendered s (c' ++ c) p' f' := by
  simp only [rendered, List.append_assoc, List.length_append]
  congr 2
  rw [Nat.add_comm, BitVec.ofNat_add, BitVec.add_assoc]

/-- One cell of an EMIT.RAW adds one cell. -/
theorem emitRawBit_cases (speed : Word16) (value : Word32) (i : Nat) (s : State) :
    ∃ cells p f, cells.length = 1 ∧ emitRawBit speed value i s = rendered s cells p f := by
  obtain ⟨f, hf⟩ := valueBit_cases value i s
  refine ⟨[⟨s.block.opos, (valueBit value i s).1, speed⟩], (valueBit value i s).1, f, rfl, ?_⟩
  simp only [emitRawBit, hf]
  rfl

/-- An EMIT.RAW of `n` bits adds `n` cells (45_flux_encoder.md R138). -/
theorem emitRawBits_cases (speed : Word16) (value : Word32) (n : Nat) (s : State) :
    ∃ cells p f, cells.length = n ∧ emitRawBits speed value n s = rendered s cells p f := by
  induction n generalizing s with
  | zero => exact ⟨[], s.block.prev, s.freeCount, rfl, by simp [emitRawBits, rendered]⟩
  | succ n ih =>
    obtain ⟨c, p, f, hc, h⟩ := emitRawBit_cases speed value n s
    obtain ⟨c', p', f', hc', h'⟩ := ih (emitRawBit speed value n s)
    exact ⟨c' ++ c, p', f', by simp [hc, hc'], by rw [emitRawBits, h', h, rendered_rendered]⟩

/-- One bit of an EMIT.EVEN or EMIT.ODD adds two cells (45_flux_encoder.md R139). -/
theorem emitPlaneBit_cases (speed : Word16) (value : Word32) (i : Nat) (s : State) :
    ∃ cells p f, cells.length = 2 ∧ emitPlaneBit speed value i s = rendered s cells p f := by
  obtain ⟨f, hf⟩ := valueBit_cases value i s
  refine ⟨[⟨s.block.opos + 1, (valueBit value i s).1, speed⟩,
    ⟨s.block.opos, clockCell s.block.prev (valueBit value i s).1, speed⟩], (valueBit value i s).1, f, rfl, ?_⟩
  simp only [emitPlaneBit, hf, rendered, State.emitCell, State.setPrev, List.length_cons, List.length_nil,
    List.cons_append, List.nil_append]
  congr 2
  rw [BitVec.add_assoc]
  rfl

/-- An EMIT.EVEN or EMIT.ODD of `n` data bits adds `2n` cells (45_flux_encoder.md R139, R140). -/
theorem emitPlaneBits_cases (speed : Word16) (value : Word32) (odd n : Nat) (s : State) :
    ∃ cells p f, cells.length = 2 * n ∧ emitPlaneBits speed value odd n s = rendered s cells p f := by
  induction n generalizing s with
  | zero => exact ⟨[], s.block.prev, s.freeCount, rfl, by simp [emitPlaneBits, rendered]⟩
  | succ n ih =>
    obtain ⟨c, p, f, hc, h⟩ := emitPlaneBit_cases speed value (2 * n + odd) s
    obtain ⟨c', p', f', hc', h'⟩ := ih (emitPlaneBit speed value (2 * n + odd) s)
    exact ⟨c' ++ c, p', f', by simp [hc, hc']; omega, by rw [emitPlaneBits, h', h, rendered_rendered]⟩

/-- The decoder of TXN records gives no command. -/
theorem decodeTxn_cases {r : TxnRecord} {i : Instr} (h : decodeTxn r = .ok i) :
    i = .setup r.start r.len ∨ i = .emitRaw r.nbits r.speed r.value ∨ i = .emitEven r.nbits r.speed r.value ∨
    i = .emitOdd r.nbits r.speed r.value ∨ i = .emitAll r.nbits r.speed r.value ∨ i = .finalize := by
  unfold decodeTxn at h
  repeat' split at h
  all_goals cases h
  all_goals simp

/-- Everything rendering a record can do (45_flux_encoder.md R136): SETUP sets `OPOS` and `PREV`; anything else adds cells
as `rendered` says, or is refused. It never faults. -/
theorem renderTxn_cases (r : TxnRecord) (s : State) :
    (∃ e, renderTxn r s = .refused e) ∨
    (renderTxn r s = .next { s with block := { s.block with opos := r.start, prev := false } }) ∨
    (∃ cells p f, renderTxn r s = .next (rendered s cells p f)) := by
  unfold renderTxn
  split
  · next i h =>
    rcases decodeTxn_cases h with rfl | rfl | rfl | rfl | rfl | rfl
    · exact .inr (.inl rfl)
    · obtain ⟨c, p, f, -, h'⟩ := emitRawBits_cases r.speed r.value r.nbits.toNat s
      exact .inr (.inr ⟨c, p, f, by simp [exec, execEmitRaw, h']⟩)
    · obtain ⟨c, p, f, -, h'⟩ := emitPlaneBits_cases r.speed r.value 1 (r.nbits.toNat / 2) s
      exact .inr (.inr ⟨c, p, f, by simp [exec, execEmitEven, h']⟩)
    · obtain ⟨c, p, f, -, h'⟩ := emitPlaneBits_cases r.speed r.value 0 (r.nbits.toNat / 2) s
      exact .inr (.inr ⟨c, p, f, by simp [exec, execEmitOdd, h']⟩)
    · exact .inl ⟨_, rfl⟩
    · exact .inr (.inr ⟨[], s.block.prev, s.freeCount, by simp [exec, execFinalize, rendered]⟩)
  · exact .inl ⟨_, rfl⟩

/-! ## The host bus -/

/-- Everything a host read can do (20_memory.md R51, R55): it returns a value or records a fault, and nothing else. -/
theorem hostRead_cases (o : BitVec 16) (n : Nat) (s : State) :
    (∃ v, hostRead o n s = s.recordRead o n v) ∨ (∃ f, hostRead o n s = s.raise f) := by
  unfold hostRead
  split
  · exact .inr ⟨_, rfl⟩
  · unfold legalRead
    split
    · exact .inl ⟨_, rfl⟩
    · split
      · exact .inl ⟨_, rfl⟩
      · exact .inr ⟨_, rfl⟩

/-- The register at an offset is in the register part of the window, on a word boundary. -/
theorem registerAt_eq_none {o : BitVec 16} (h : registerAt o = none) (hr : regionOf o ≠ .none)
    (ha : regionOf o = .registers → o.toNat % 4 = 0) : regionOf o = .secbuf := by
  cases hreg : regionOf o with
  | secbuf => rfl
  | none => exact absurd hreg hr
  | registers =>
    exfalso
    have h4 := ha hreg
    have hlt : o.toNat < 0x20 := by
      unfold regionOf at hreg
      split at hreg
      · assumption
      · split at hreg
        · cases hreg
        · split at hreg <;> cases hreg
    have hcases : o.toNat = 0 ∨ o.toNat = 4 ∨ o.toNat = 8 ∨ o.toNat = 12 ∨ o.toNat = 16 ∨ o.toNat = 20 ∨
        o.toNat = 24 ∨ o.toNat = 28 := by omega
    have hof : o = BitVec.ofNat 16 o.toNat := by simp
    rcases hcases with h' | h' | h' | h' | h' | h' | h' | h' <;>
      (rw [h'] at hof; subst hof; simp [registerAt] at h)

/-- What an access without a fault is (20_memory.md R47, R48): a register on its word, or bytes inside `SECBUF`. -/
theorem accessFault_none {b : Block} {o : BitVec 16} {n : Nat} {d : Direction} (h : accessFault b o n d = none) :
    (b.busy = true → allowedWhileBusy o n d = true) ∧ regionOf o ≠ .none ∧ widthOk (regionOf o) n = true ∧
      o.toNat % n = 0 := by
  unfold accessFault at h
  split at h
  · cases h
  · next h1 =>
    split at h
    · cases h
    · next h2 =>
      split at h
      · cases h
      · next h3 =>
        split at h
        · cases h
        · next h4 =>
          refine ⟨fun hb => ?_, h2, by simpa using h3, by simpa using h4⟩
          simpa [hb] using h1

/-- The window offsets of `SECBUF` (20_memory.md R42). -/
theorem regionOf_secbuf {o : BitVec 16} (h : regionOf o = .secbuf) : 0x1000 ≤ o.toNat ∧ o.toNat < 0x2800 := by
  unfold regionOf at h
  split at h
  · cases h
  · split at h
    · cases h
    · split at h
      · omega
      · cases h

/-- A naturally aligned access at an offset of `SECBUF` ends inside it (20_memory.md R48). -/
theorem bufferOffset_add_le {o : BitVec 16} {n : Nat} (h : regionOf o = .secbuf) (hn : n = 1 ∨ n = 2 ∨ n = 4)
    (ha : o.toNat % n = 0) : bufferOffset o + n ≤ Config.bufLen := by
  have hlt := regionOf_secbuf h
  unfold bufferOffset Config.bufLen
  generalize o.toNat = x at hlt ha
  rcases hn with hn | hn | hn <;> (rw [hn] at ha ⊢; omega)

/-- A legal access that meets no register lies inside `SECBUF` (20_memory.md R48). -/
theorem accessFault_none_secbuf {b : Block} {o : BitVec 16} {n : Nat} {d : Direction}
    (h : accessFault b o n d = none) (hr : registerAt o = none) :
    regionOf o = .secbuf ∧ bufferOffset o + n ≤ Config.bufLen ∧ b.busy = false := by
  obtain ⟨hb, h1, h2, h3⟩ := accessFault_none h
  have hs : regionOf o = .secbuf := registerAt_eq_none hr h1 fun he => by
    rw [he] at h2
    simp only [widthOk, decide_eq_true_eq] at h2
    rwa [h2] at h3
  refine ⟨hs, ?_, ?_⟩
  · rw [hs] at h2
    simp only [widthOk, decide_eq_true_eq] at h2
    exact bufferOffset_add_le hs h2 h3
  · cases hbusy : b.busy with
    | false => rfl
    | true =>
      have := hb hbusy
      cases d <;> simp only [allowedWhileBusy, decide_eq_true_eq] at this <;>
        (obtain ⟨rfl, -⟩ := this; simp [registerAt] at hr)

/-- Everything a host write can do: a fault is recorded, a command is issued, a register is written while IDLE, or bytes
inside `SECBUF` are written while IDLE. -/
theorem hostWrite_cases (o : BitVec 16) (n : Nat) (v : Word32) (s : State) :
    (∃ f, hostWrite o n v s = .next (s.raise f)) ∨
    (∃ i, decodeCommand v = .ok i ∧ hostWrite o n v s = exec i s) ∨
    (hostWrite o n v s = .next s.dropCommand) ∨
    (s.block.phase = .idle ∧ ∃ r, hostWrite o n v s = .next { s with block := s.block.writeRegister r v }) ∨
    (s.block.phase = .idle ∧ bufferOffset o + n ≤ Config.bufLen ∧ hostWrite o n v s =
      .next { s with block := { s.block with secbuf := memWrite s.block.secbuf (bufferOffset o) n v } }) := by
  unfold hostWrite
  cases ha : accessFault s.block o n .write with
  | some f => exact .inl ⟨f, rfl⟩
  | none =>
    right
    cases hr : registerAt o with
    | none =>
      obtain ⟨-, h2, h3⟩ := accessFault_none_secbuf ha hr
      exact .inr (.inr (.inr ⟨busy_eq_false.mp h3, h2, by simp [legalWrite, hr]⟩))
    | some r =>
      by_cases hc : r = .cmd
      · subst hc
        cases hd : decodeCommand v with
        | ok i => exact .inl ⟨i, rfl, by simp [legalWrite, hr, issueCommand, hd]⟩
        | error e => exact .inr (.inl (by simp [legalWrite, hr, issueCommand, hd]))
      · refine .inr (.inr (.inl ⟨?_, r, ?_⟩))
        · cases hb : s.block.busy with
          | false => exact busy_eq_false.mp hb
          | true =>
            have := (accessFault_none ha).1 hb
            simp only [allowedWhileBusy, decide_eq_true_eq] at this
            obtain ⟨rfl, -⟩ := this
            simp [registerAt] at hr
            exact absurd hr.symm hc
        · cases r <;> simp_all [legalWrite]

/-- A reset block satisfies what `Block.Inv` asks of memory: nothing is listed. -/
theorem reset_secbuf_wf : Memory.wf Block.reset.secbuf = true := rfl

end Sys2Proof.Machine
end

