-- ==== Sys2Proof/Laws/Step.lean ====
section
/-! SUPPORT. Which agent moves: `step` taken apart once. -/

namespace Sys2Proof.Machine

/-- A record at the flux encoder's port is rendered first. -/
theorem step_fluxIn {s : State} {r : TxnRecord} {rest : List TxnRecord} (h : s.fluxIn = r :: rest) :
    step s = fluxPortStep r rest s := by simp [step, h]

/-- The host's next operation. -/
theorem step_script {s : State} {op : HostOp} {rest : List HostOp} (hf : s.fluxIn = []) (h : s.script = op :: rest) :
    step s = scriptStep op rest s := by simp [step, hf, h]

/-- With nothing else pending, the block moves. -/
theorem step_quiet {s : State} (h : s.quiet) : step s = blockStep s := by
  simp [step, h.1, h.2]

/-- A ready sink answers so, and nothing but its own answers changes. -/
theorem askSink_ready {s : State} {l : List SinkAnswer} (h : SinkReady s.sinkAnswers l) :
    askSink s = .ready { s with sinkAnswers := l } := by
  rcases h with ⟨h, rfl⟩ | h
  · rw [askSink_nil h, ← h]
  · simp [askSink, h]

/-- Everything the EMIT step can do. -/
theorem emitStep_cases (s : State) :
    (∃ l, emitStep s = .next { s with sinkAnswers := l }) ∨
    (∃ f, txnAt s.params s.block s.block.ti = .error f ∧ emitStep s = .fault f) ∨
    (∃ r l, txnAt s.params s.block s.block.ti = .ok r ∧
      ((∃ e, renderTxn r ({ s with sinkAnswers := l }.emitTxn r) = .refused e ∧ emitStep s = .refused e) ∨
       (∃ t, renderTxn r ({ s with sinkAnswers := l }.emitTxn r) = .next t ∧
         emitStep s = .next { t with block := t.block.advanceTxn }))) := by
  unfold emitStep
  rcases askSink_cases s with ⟨l, h⟩ | ⟨l, h⟩
  · right
    rw [h]
    simp only
    cases ht : txnAt s.params s.block s.block.ti with
    | error f => exact .inl ⟨f, rfl, rfl⟩
    | ok r =>
      refine .inr ⟨r, l, rfl, ?_⟩
      rcases renderTxn_cases r ({ s with sinkAnswers := l }.emitTxn r) with ⟨e, he⟩ | he | ⟨c, p, f, he⟩
      · exact .inl ⟨e, he, by simp [he]⟩
      · exact .inr ⟨_, he, by simp [he]⟩
      · exact .inr ⟨_, he, by simp [he]⟩
  · exact .inl ⟨l, by simp [h]⟩

/-- Everything a step can do, by the agent that moves. -/
theorem step_agent_cases (s : State) :
    (∃ r rest, s.fluxIn = r :: rest ∧ step s = fluxPortStep r rest s) ∨
    (s.fluxIn = [] ∧ ∃ op rest, s.script = op :: rest ∧ step s = scriptStep op rest s) ∨
    (s.quiet ∧ step s = blockStep s) := by
  rcases hf : s.fluxIn with _ | ⟨r, rest⟩
  · rcases hs : s.script with _ | ⟨op, rest⟩
    · exact .inr (.inr ⟨⟨hf, hs⟩, step_quiet ⟨hf, hs⟩⟩)
    · exact .inr (.inl ⟨rfl, op, rest, rfl, step_script hf hs⟩)
  · exact .inl ⟨r, rest, rfl, step_fluxIn hf⟩

end Sys2Proof.Machine
end

