-- ==== Sys2Proof/Laws/Codec.lean ====
section
/-! SUPPORT. The laws of the codec's own operations: the record each TXN is, the shift register, the cell records, the
sector validator and the transaction sequence. -/

namespace Sys2Proof.Machine

/-! ## Records and the command port -/

theorem decodeTxn_setup (start len : Word32) : decodeTxn (setupRecord start len) = .ok (.setup start len) := by
  simp [decodeTxn, setupRecord, headerLow, headerKind, headerTag]

theorem decodeTxn_emitRaw (n : BitVec 6) (sp : Word16) (v : Word32) :
    decodeTxn (emitRecord 0x40 n sp v) = .ok (.emitRaw n sp v) := by
  simp [decodeTxn, emitRecord, headerLow, headerKind, headerTag]

theorem decodeTxn_emitEven (n : BitVec 6) (sp : Word16) (v : Word32) :
    decodeTxn (emitRecord 0x50 n sp v) = .ok (.emitEven n sp v) := by
  simp [decodeTxn, emitRecord, headerLow, headerKind, headerTag]

theorem decodeTxn_emitOdd (n : BitVec 6) (sp : Word16) (v : Word32) :
    decodeTxn (emitRecord 0x60 n sp v) = .ok (.emitOdd n sp v) := by
  simp [decodeTxn, emitRecord, headerLow, headerKind, headerTag]

theorem decodeTxn_finalize : decodeTxn finalizeRecord = .ok .finalize := by
  simp [decodeTxn, finalizeRecord, TxnRecord.ofHeader, headerLow, headerKind, headerTag]

/-! What rendering each record is, for any operands: rewrite with these rather than unfold an EMIT of a given width. -/

theorem renderTxn_setup (start len : Word32) (s : State) : renderTxn (setupRecord start len) s =
    .next { s with block := { s.block with opos := start, prev := false } } := by
  rw [renderTxn, decodeTxn_setup]
  rfl

theorem renderTxn_emitRaw (n : BitVec 6) (sp : Word16) (v : Word32) (s : State) :
    renderTxn (emitRecord 0x40 n sp v) s = .next (emitRawBits sp v n.toNat s) := by
  rw [renderTxn, decodeTxn_emitRaw]
  rfl

theorem renderTxn_emitEven (n : BitVec 6) (sp : Word16) (v : Word32) (s : State) :
    renderTxn (emitRecord 0x50 n sp v) s = .next (emitPlaneBits sp v 1 (n.toNat / 2) s) := by
  rw [renderTxn, decodeTxn_emitEven]
  rfl

theorem renderTxn_emitOdd (n : BitVec 6) (sp : Word16) (v : Word32) (s : State) :
    renderTxn (emitRecord 0x60 n sp v) s = .next (emitPlaneBits sp v 0 (n.toNat / 2) s) := by
  rw [renderTxn, decodeTxn_emitOdd]
  rfl

theorem renderTxn_finalize (s : State) : renderTxn finalizeRecord s = .next s := by
  rw [renderTxn, decodeTxn_finalize]
  rfl

/-- The 32-bit write of `CMD` raises no fault, in any phase (10_state.md R40). -/
theorem accessFault_cmd (b : Block) : accessFault b 0x0000 4 .write = none := by
  simp [accessFault, allowedWhileBusy, regionOf, widthOk]

/-- So it issues the command (10_state.md R21). -/
theorem hostWrite_cmd (w : Word32) (s : State) : hostWrite 0x0000 4 w s = issueCommand w s := by
  rw [hostWrite, accessFault_cmd]
  rfl

/-! ## Cells -/

/-- `{W[30:0], c}` as a shift and an or. -/
theorem shiftIn_eq (w : Word32) (c : Bool) : shiftIn w c = (w <<< 1) ||| (BitVec.ofBool c).setWidth 32 := by
  apply BitVec.eq_of_getLsbD_eq
  intro i hi
  cases i with
  | zero => cases c <;> simp [shiftIn]
  | succ i =>
    have h : i < 32 := by omega
    cases c <;> simp [shiftIn, hi, BitVec.getLsbD_eq_getElem h]

/-- The records of one more cell, the first of them taken off. -/
theorem cellRecords_succ (pos : Word32) (sp : Word16) (n : Nat) (f : Nat → Bool) :
    cellRecords pos sp (n + 1) f = cellRecords (pos + 1) sp n (fun j => f (j + 1)) ++ [⟨pos, f 0, sp⟩] := by
  simp only [cellRecords, List.range_succ_eq_map, List.map_cons, List.reverse_cons, List.map_map]
  congr 1
  · congr 1
    apply List.map_congr_left
    intro a _
    simp only [Function.comp, Nat.succ_eq_add_one, BitVec.ofNat_add]
    congr 1
    bv_omega
  · simp

@[simp] theorem cellRecords_zero (pos : Word32) (sp : Word16) (f : Nat → Bool) : cellRecords pos sp 0 f = [] := rfl

@[simp] theorem cellRecords_length (pos : Word32) (sp : Word16) (n : Nat) (f : Nat → Bool) :
    (cellRecords pos sp n f).length = n := by simp [cellRecords]

/-! ## The sector validator -/

/-- A demodulated attempt has the words of every sector. -/
theorem wbSector_isSome {wb : WordBuffer} {s : Nat} (hs : s < 6) (h : wordsWritten wb Config.tw) :
    ∃ c body, wbSector wb s = some (c, body) ∧ body.length = 512 ∧
      sparseRead wb (513 * s) = some c ∧ ∀ k < 512, sparseRead wb (513 * s + 1 + k) = body[k]? := by
  simp only [wordsWritten, Config.tw] at h
  obtain ⟨c, hc⟩ := Option.isSome_iff_exists.mp (h (513 * s) (by omega))
  obtain ⟨body, hb⟩ := sparseRun_isSome (m := wb) (i := 513 * s + 1) (n := 512) (fun k hk => h _ (by omega))
  obtain ⟨hl, hr⟩ := sparseRun_eq_some.mp hb
  exact ⟨c, body, by simp [wbSector, hc, hb], hl, hc, hr⟩

/-- Everything VALIDATE can do with one sector (43_checksum_validator.md R112 to R115). -/
theorem validateSector_cases (b : Block) (s : Nat) :
    (validBit b.validMask s = true ∧ b.validateSector s = .ok b) ∨
    (wbSector b.wb s = none ∧ b.validateSector s = .error (.wordBufferUnwritten s)) ∨
    (∃ c body, wbSector b.wb s = some (c, body) ∧ csum body ≠ c ∧ b.validateSector s = .ok b) ∨
    (∃ body, validBit b.validMask s = false ∧ wbSector b.wb s = some (csum body, body) ∧ b.validateSector s = .ok { b with
      validMask := setValid b.validMask s, secbuf := writeSlot b.secbuf s body, new := b.new + 1 }) := by
  unfold Block.validateSector
  split
  · next h => exact .inl ⟨h, rfl⟩
  · next hv =>
    split
    · next h => exact .inr (.inl ⟨h, rfl⟩)
    · next c body h =>
      split
      · next hc => exact .inr (.inr (.inr ⟨body, by simpa using hv, by rw [h, hc], rfl⟩))
      · next hc => exact .inr (.inr (.inl ⟨c, body, h, hc, rfl⟩))

/-! ## The transaction sequence -/

/-- A fully written buffer has the word of every group (44_remodulator.md R124). -/
theorem groupWord_isSome {m : Memory} (emask : BitVec 6) {g : Nat} (h : allWritten m = true) (hg : g < Config.tw) :
    ∃ v, groupWord m emask g = some v := by
  simp only [Config.tw] at hg
  unfold groupWord
  split
  · obtain ⟨ws, hws⟩ := secWords_isSome h (s := g / 513) (by simp only [Config.nsec]; omega)
    simp [encCsum, trueCsum, hws]
  · exact secWord_isSome h (by simp only [Config.nsec, Config.gw]; omega)
      (by simp only [Config.wps, Config.gw]; omega)

/-- Everything a TXN of the sequence can be (44_remodulator.md R124), over a fully written buffer. -/
theorem txnAt_cases (p : Params) {b : Block} {i : Nat} (h : allWritten b.secbuf = true) (hi : i < Config.txnCount) :
    ∃ r, txnAt p b i = .ok r ∧
      ((i = 0 ∧ r = setupRecord b.eoff p.trackLen) ∨
       (i = 1 ∧ r = emitRecord 0x40 16 p.speed (p.mark1.setWidth 32)) ∨
       (i = 2 ∧ r = emitRecord 0x40 32 p.speed p.mark2) ∨
       (3 ≤ i ∧ i < 6159 ∧ ∃ v, groupWord b.secbuf b.emask ((i - 3) / 2) = some v ∧
        r = emitRecord (if (i - 3) % 2 = 0 then 0x50 else 0x60) 16 p.speed (v.setWidth 32)) ∨
       (i = 6159 ∧ r = finalizeRecord)) := by
  simp only [Config.txnCount] at hi
  unfold txnAt
  split
  · next h => exact ⟨_, rfl, .inl ⟨h, rfl⟩⟩
  split
  · next h => exact ⟨_, rfl, .inr (.inl ⟨h, rfl⟩)⟩
  split
  · next h => exact ⟨_, rfl, .inr (.inr (.inl ⟨h, rfl⟩))⟩
  split
  · next h1 h2 h3 h4 =>
    obtain ⟨v, hv⟩ := groupWord_isSome b.emask h (g := (i - 3) / 2) (by simp only [Config.tw]; omega)
    refine ⟨_, by simp only [planeTxn, hv, Option.map_some]; rfl, .inr (.inr (.inr (.inl ⟨by omega, h4, v, hv, ?_⟩)))⟩
    split <;> rfl
  · next h1 h2 h3 h4 =>
    have hl : i = 6159 := by omega
    rw [if_pos hl]
    exact ⟨_, rfl, .inr (.inr (.inr (.inr ⟨hl, rfl⟩)))⟩

end Sys2Proof.Machine
end

