-- ==== Sys2Proof/Laws/PerInstr.lean ====
section
/-! SUPPORT. What holds of every instruction as syntax, one lemma per constructor. -/

namespace Sys2Proof.Laws.ReservedBitsZero

/-- The reserved bits of an instruction's encoding are 0: `RSV` of a command word (30_encoding.md R67), `H[3:0]` of a TXN
header (R73). -/
def Statement (i : Instr) : Prop :=
  match Sys2Proof.encode i with
  | .command w => commandRsv w = 0
  | .transaction r => headerLow r.header = 0

theorem nop : Statement .nop := by
  change commandRsv 0x00000000 = 0
  decide
theorem decode : Statement .decode := by
  change commandRsv 0x00000001 = 0
  decide
theorem encode : Statement .encode := by
  change commandRsv 0x00000002 = 0
  decide
theorem setup (start len : Word32) : Statement (.setup start len) := by
  change headerLow 0x00 = 0
  decide
theorem emitRaw (n : BitVec 6) (sp : Word16) (v : Word32) : Statement (.emitRaw n sp v) := by
  change headerLow 0x40 = 0
  decide
theorem emitEven (n : BitVec 6) (sp : Word16) (v : Word32) : Statement (.emitEven n sp v) := by
  change headerLow 0x50 = 0
  decide
theorem emitOdd (n : BitVec 6) (sp : Word16) (v : Word32) : Statement (.emitOdd n sp v) := by
  change headerLow 0x60 = 0
  decide
theorem emitAll (n : BitVec 6) (sp : Word16) (v : Word32) : Statement (.emitAll n sp v) := by
  change headerLow 0x70 = 0
  decide
theorem finalize : Statement .finalize := by
  change headerLow 0x80 = 0
  decide

end Sys2Proof.Laws.ReservedBitsZero
end

