-- ==== Sys2Proof/Tests/Slice0.lean ====
section
/-! SUPPORT. Tests of the model: the checks of WellFormed, the words of the opcode table written out, single steps against
the vectors of 95_test_vectors.md (named V-…), and for each obligation with hypotheses a state that meets them. -/

namespace Sys2Proof.Tests

open Sys2Proof.Machine

/-! ## Helpers -/

/-- The example configuration EX of 95_test_vectors.md, section 2. -/
def ex : Params := ⟨0x4489, 0x552524A4, ⟨0xDE, 0xAD, 0xBE, 0xEF⟩, 1000, 100000, 0⟩

/-- Reset, with the parameters of EX. -/
def start : State := { State.reset with params := ex }

/-- `start` with a block of its own. -/
def withBlock (f : Block → Block) : State := { start with block := f start.block }

/-- `start` with every `SECBUF` byte written. -/
def full : State := withBlock fun b => { b with secbuf := sentinelFill ex.sentinel }

/-- The state after a step, if it is a next state. -/
def next? (o : Host.Outcome State Fault Refusal) : Option State :=
  match o with
  | .next t => some t
  | .fault _ => none
  | .refused _ => none

/-- Some field of the next state. -/
def after {α : Type} (o : Host.Outcome State Fault Refusal) (f : State → α) : Option α := (next? o).map f

/-- The cells a step emits, in order. -/
def cellsOf (o : Host.Outcome State Fault Refusal) : Option (List Bool) := after o State.emittedCells

/-- The 16 bits of a half, first cell first. -/
def cells16 (w : Word16) : List Bool := (List.range 16).map fun i => w.getLsbD (15 - i)

/-- A step of the host's operation. -/
def hostStep (op : HostOp) (s : State) : Host.Outcome State Fault Refusal := step { s with script := [op] }

/-- `WB` with the word `f i` at every index from `i` on, `n` of them. -/
def wordsFrom (f : Nat → Word16) : (i n : Nat) → WordBuffer
  | _, 0 => []
  | i, n + 1 => (i, f i) :: wordsFrom f (i + 1) n

theorem sparseRead_wordsFrom (f : Nat → Word16) (i n a : Nat) :
    sparseRead (wordsFrom f i n) a = if i ≤ a ∧ a < i + n then some (f a) else none := by
  induction n generalizing i with
  | zero =>
    have : ¬ (i ≤ a ∧ a < i + 0) := by omega
    rw [if_neg this]
    rfl
  | succ n ih =>
    simp only [wordsFrom, sparseRead, ih]
    by_cases h : i = a
    · subst h
      simp
    · by_cases h' : i + 1 ≤ a ∧ a < i + 1 + n
      · have : i ≤ a ∧ a < i + (n + 1) := by omega
        simp [h, h', this]
      · have : ¬ (i ≤ a ∧ a < i + (n + 1)) := by omega
        simp only [h, h', this, if_false]

theorem full_written : ∀ i < 6144, (memByte full.block.secbuf i).isSome = true :=
  allWritten_iff.mp (allWritten_sentinelFill ex.sentinel)

/-! ## Well-formedness (30_encoding.md R73: `NBITS` is 1 to 32) -/

theorem test_nbits_0_refused : Instr.wellFormed (.emitRaw 0 0 0) = false := by decide
theorem test_nbits_0_fails_lower_check : nbitsPositive 0 = false ∧ nbitsInValue 0 = true := by decide
theorem test_nbits_33_refused : Instr.wellFormed (.emitEven 33 0 0) = false := by decide
theorem test_nbits_33_fails_upper_check : nbitsPositive 33 = true ∧ nbitsInValue 33 = false := by decide
theorem test_nbits_odd_emits_refused : Instr.wellFormed (.emitOdd 63 0 0) = false ∧
    Instr.wellFormed (.emitAll 0 0 0) = false := by decide
theorem test_nbits_bounds_accepted : Instr.wellFormed (.emitRaw 1 0 0) = true ∧
    Instr.wellFormed (.emitRaw 32 0 0) = true := by decide

/-! ## Decoding: words written out from the tables of 30_encoding.md R67 and R73 -/

/-- `RSV` (28 bits), then `OP`. -/
theorem test_decode_nop : decodeCommand 0b0000000000000000000000000000_0000 = .ok .nop := by rfl
theorem test_decode_decode : decodeCommand 0b0000000000000000000000000000_0001 = .ok .decode := by rfl
theorem test_decode_encode : decodeCommand 0b0000000000000000000000000000_0010 = .ok .encode := by rfl
theorem test_decode_reserved_op :
    decodeCommand 0b0000000000000000000000000000_0011 = .error (.reservedOp 3) := by rfl
/-- V-CM-4: `OP` = 1 but `RSV` is not 0. -/
theorem test_decode_rsv : decodeCommand 0x00000011 = .error (.reservedBits 0x11) := by rfl
theorem test_decode_rsv_top : decodeCommand 0x80000001 = .error (.reservedBits 0x80000001) := by rfl

/-- `KIND` (2 bits), `TAG` (2 bits), `H[3:0]`. -/
theorem test_decode_setup : decodeTxn ⟨0b00_00_0000, 0x100, 100000, 0, 0, 0⟩ = .ok (.setup 0x100 100000) := by rfl
theorem test_decode_emitRaw : decodeTxn ⟨0b01_00_0000, 0, 0, 16, 1000, 0x4489⟩ = .ok (.emitRaw 16 1000 0x4489) := by rfl
theorem test_decode_emitEven : decodeTxn ⟨0b01_01_0000, 0, 0, 16, 7, 0x1234⟩ = .ok (.emitEven 16 7 0x1234) := by rfl
theorem test_decode_emitOdd : decodeTxn ⟨0b01_10_0000, 0, 0, 16, 7, 0x1234⟩ = .ok (.emitOdd 16 7 0x1234) := by rfl
theorem test_decode_emitAll : decodeTxn ⟨0b01_11_0000, 0, 0, 32, 7, 5⟩ = .ok (.emitAll 32 7 5) := by rfl
theorem test_decode_finalize : decodeTxn ⟨0b10_00_0000, 0, 0, 0, 0, 0⟩ = .ok .finalize := by rfl
theorem test_decode_setup_tag : decodeTxn (.ofHeader 0b00_01_0000) = .error (.nonzeroTag 0x10) := by rfl
theorem test_decode_finalize_tag : decodeTxn (.ofHeader 0b10_11_0000) = .error (.nonzeroTag 0xB0) := by rfl
theorem test_decode_kind_11 : decodeTxn (.ofHeader 0b11_00_0000) = .error (.reservedKind 0xC0) := by rfl
theorem test_decode_low_bits : decodeTxn (.ofHeader 0b01_00_0001) = .error (.headerLowBits 0x41) := by rfl

/-- The first step after reset runs the placed word. -/
theorem test_withFetchWord_command :
    after (step (State.reset.withFetchWord 32 0x00000001)) (·.block.phase) = some .dScan := by rfl
theorem test_withFetchWord_txn : step (State.reset.withFetchWord 8 0x70) = .refused .emitAllHasNoCellRule := by rfl

/-! ## Commands -/

/-- V-CM-2. -/
theorem test_nop_idle : after (hostStep scriptNop start) (statusWord ·.block) = some 0 := by decide
/-- V-CM-10. -/
theorem test_nop_busy : after (hostStep scriptNop (withBlock fun b => { b with phase := .dScan, lastCmd := .decode }))
    (statusWord ·.block) = some 0x19 := by decide
/-- V-CM-4. -/
theorem test_reserved_word : after (hostStep (.write 0x0000 4 0x11) start) (statusWord ·.block) = some 8 := by decide
/-- V-CM-8. -/
theorem test_decode_status : after (hostStep scriptDecode start) (statusWord ·.block) = some 0x11 := by decide
/-- `START_POS` is where positions start (40_commands.md R84). -/
theorem test_decode_pos :
    after (hostStep scriptDecode (withBlock fun b => { b with startPos := 0x500, pos := 9, fill := 16 }))
      (fun t => (t.block.pos, t.block.fill)) = some (0x500, 0) := by decide
/-- V-CM-13. -/
theorem test_encode_unwritten : after (hostStep scriptEncode start) (fun t => (t.faults, statusWord t.block)) =
    some ([.uninitEncode 0], 0) := by decide
/-- ENCODE latches the mask and the offset (40_commands.md R87). -/
theorem test_encode_latches :
    let s := withBlock fun b =>
      { b with secbuf := sentinelFill ex.sentinel, validMask := 0x2D, dataBitoff := 0x2000, ti := 5 }
    exec .encode s = .next { s with block :=
      { s.block with lastCmd := .encode, emask := 0x2D, eoff := 0x2000, ti := 0, phase := .eEmit } } := by
  intro s
  have h : firstUnwritten s.block.secbuf = none := firstUnwritten_eq_none.mpr full_written
  simp only [exec, execEncode, h]
  rfl

/-! ## The flux encoder -/

/-- V-FX-1. -/
theorem test_setup : after (exec (.setup 0x100 100000) (withBlock fun b => { b with opos := 3, prev := true }))
    (fun t => (t.block.opos, t.block.prev, t.sinkCells)) = some (0x100, false, []) := by decide
/-- V-FX-2. -/
theorem test_raw : cellsOf (exec (.emitRaw 16 1000 0x4489) start) = some (cells16 0x4489) := by decide
/-- V-FX-9: positions wrap. -/
theorem test_raw_wraps : after (exec (.emitRaw 16 1000 0x4489) (withBlock fun b => { b with opos := 0xFFFFFFF8 }))
    (fun t => (t.block.opos, t.block.prev, (t.sinkCells.map (·.pos))[7]?)) = some (8, true, some 0) := by decide
/-- V-FX-4. -/
theorem test_even : cellsOf (exec (.emitEven 16 1000 0x1234) start) = some (cells16 0xA912) := by decide
/-- V-FX-6: the clock cell after a 1. -/
theorem test_even_prev : cellsOf (exec (.emitEven 16 1000 0x0000) (withBlock fun b => { b with prev := true })) =
    some (cells16 0x2AAA) := by decide
/-- V-FX-5. -/
theorem test_odd : cellsOf (exec (.emitOdd 16 1000 0x1234) start) = some (cells16 0x9294) := by decide
/-- V-RM-7: the ODD half of 0xAAAA after a 1. -/
theorem test_odd_prev : cellsOf (exec (.emitOdd 16 1000 0xAAAA) (withBlock fun b => { b with prev := true })) =
    some (cells16 0x2AAA) := by decide
/-- 45_flux_encoder.md R141. -/
theorem test_all_refused : exec (.emitAll 16 1000 0x1234) start = .refused .emitAllHasNoCellRule := by rfl
/-- V-FX-8. -/
theorem test_finalize : after (exec .finalize (withBlock fun b => { b with opos := 7, prev := true }))
    (fun t => (t.block.opos, t.block.prev, t.sinkCells)) = some (7, true, []) := by decide

/-- 20_memory.md R60: a sink that accepts the one step and is not ready for the next. -/
theorem test_emit_accepting_sink :
    let s : State := { withBlock fun b => { b with phase := .eEmit, ti := 6159 } with sinkAnswers := [.accept, .notReady] }
    after (step s) (fun t => (t.sinkTxns, t.sinkAnswers, t.block.phase)) = some ([finalizeRecord], [.notReady], .idle) := by
  decide

/-! ## The decoder's operations -/

/-- V-DM-5, V-DM-6, V-DM-9, V-DM-14. -/
theorem test_demod : demod 0xA9129294 = 0x1234 ∧ demod 0x44894489 = 0xCC03 ∧ demod 0x12345678 = 0x7478 ∧
    demod 0x2AAAAAAA = 0x0000 := by decide
/-- 42_demodulator.md R108 by hand: bits 15, 13, … 1 and 14, 12, … 0 of 0x7478 (V-DM-13 misreads them; the rule wins). -/
theorem test_planes : evenPlane 0x7478 = 0b01000110 ∧ oddPlane 0x7478 = 0b11101100 := by decide
/-- V-SY-1: the 16th cell of `MARK1` at position 15. -/
theorem test_scan_finds_mark : after (step { withBlock fun b => { b with phase := .dScan, w := 0x2244, fill := 15, pos := 15 } with
    stream := [.cell true] }) (fun t => (t.block.phase, t.block.candOff, t.block.w)) = some (.dConfirm, 0, 0x4489) := by decide
/-- V-SY-5: with one cell less, `FILL` is 15 and there is no match. -/
theorem test_scan_needs_16_cells : after (step { withBlock fun b => { b with phase := .dScan, w := 0x2244, fill := 14, pos := 14 }
    with stream := [.cell true] }) (fun t => (t.block.phase, t.block.fill)) = some (.dScan, 15) := by decide
/-- V-SY-1: the 32nd cell of `MARK2`. -/
theorem test_confirm : after (step { withBlock fun b => { b with phase := .dConfirm, w := 0x2A929252, fill := 16, cnt := 31 } with
    stream := [.cell false] }) (fun t => (t.block.phase, t.block.w, t.block.cnt)) = some (.dDemod, 0x552524A4, 0) := by decide
/-- V-SY-6: another word returns to the scan. -/
theorem test_confirm_mismatch : after (step { withBlock fun b => { b with phase := .dConfirm, w := 0, fill := 16, cnt := 31 } with
    stream := [.cell false] }) (·.block.phase) = some .dScan := by decide
/-- V-DM-5: the 32nd cell of a group. -/
theorem test_demod_step : after (step { withBlock fun b => { b with phase := .dDemod, w := 0x5489494A, cnt := 31, wi := 2 } with
    stream := [.cell false] }) (fun t => (t.block.wb, t.block.wi, t.block.cnt)) = some ([(2, 0x1234)], 3, 0) := by decide
/-- V-CK-3e. -/
theorem test_csum_wraps : csum (0xFFFF :: 0x0001 :: List.replicate 510 0x0000) = 0x0000 := by decide +kernel
/-- V-CK-2. -/
theorem test_csum_ones : csum (List.replicate 512 0xFFFF) = 0xFE00 := by decide +kernel
/-- V-CM-11: the FINISH step with no valid sector. -/
theorem test_finish_nodata : after (step (withBlock fun b => { b with phase := .dFinish, lastCmd := .decode, cmdErr := true }))
    (statusWord ·.block) = some 0x1C := by decide
/-- Program P2: the FINISH step with valid sectors. -/
theorem test_finish_ok : after (step (withBlock fun b => { b with phase := .dFinish, lastCmd := .decode, validMask := 0x3F }))
    (fun t => (statusWord t.block, t.block.hdrSecsize, t.block.hdrNsec, t.block.hdrLen)) = some (0x12, 1024, 6, 6144) := by decide

/-! ## The host bus -/

/-- V-HO-1. -/
theorem test_valid_mask : after (hostStep (.write 0x0008 4 0xFFFFFFFF) start) (·.block.readRegister .validMask) =
    some 0x3F := by decide
/-- V-HO-5, V-HO-6, V-HO-7, V-HO-11, V-HO-12. -/
theorem test_fault_order : after (hostStep (.read 0x0009 2) start) (·.faults) = some [.busWidth 0x0009 2] ∧
    after (hostStep (.read 0x0006 4) start) (·.faults) = some [.busAlign 0x0006 4] ∧
    after (hostStep (.read 0x0022 2) start) (·.faults) = some [.busUnmapped 0x0022 2 .read] ∧
    after (hostStep (.read 0x1001 2) start) (·.faults) = some [.busAlign 0x1001 2] ∧
    after (hostStep (.read 0x27FE 4) start) (·.faults) = some [.busAlign 0x27FE 4] := by decide
/-- V-HO-18. -/
theorem test_busy_access : after (hostStep (.read 0x3000 1) (withBlock fun b => { b with phase := .dScan })) (·.faults) =
    some [.busyAccess 0x3000 1 .read] := by decide
/-- V-HO-14, V-HO-15: bytes are big-endian, and an unwritten byte raises UNINIT_READ. -/
theorem test_big_endian : memRead (memWrite [] 0 4 0x12345678) 2 2 = some 0x5678 ∧
    memRead (memWrite [] 0 4 0x12345678) 3 1 = some 0x78 ∧ memRead (memWrite [] 4 2 0xABCD) 4 4 = none := by decide
/-- V-HO-20: the sentinel after a DECODE started. -/
theorem test_sentinel : memByte (sentinelFill ex.sentinel) 0x402 = some 0xBE ∧
    memByte (sentinelFill ex.sentinel) 6144 = none := by
  constructor <;> rw [memByte_sentinelFill] <;> rfl

/-! ## Witnesses: for each obligation with hypotheses, what meets them -/

theorem witness_ResetInputRestoresBlock :
    let s := { full with script := [.reset] }
    s.fluxIn = [] ∧ s.script = .reset :: [] := ⟨rfl, rfl⟩

theorem witness_CommandWordsAreThree : decodeCommand 0x00000002 = .ok .encode := by rfl

theorem witness_TxnHeadersAreSix : decodeTxn ⟨0x60, 0, 0, 16, 7, 5⟩ = .ok (.emitOdd 16 7 5) := by rfl

theorem witness_DecodeAndEncodeAgree : Instr.wellFormed (.emitRaw 32 1000 0x552524A4) = true ∧
    Sys2Proof.decode (.command 0x00000001) = .ok .decode ∧
    Sys2Proof.decode (.transaction ⟨0x80, 1, 2, 3, 4, 5⟩) = .ok .finalize := ⟨by decide, rfl, rfl⟩

theorem witness_CommandWriteRunsDecodedCommand :
    let s := { start with script := [.write 0x0000 4 0x00000002] }
    s.fluxIn = [] ∧ s.script = .write 0x0000 4 0x00000002 :: [] ∧ decodeCommand 0x00000002 = .ok .encode :=
  ⟨rfl, rfl, rfl⟩

/-- A sink whose answers have ended, and one that accepts in so many words. -/
theorem witness_FluxPortRunsDecodedTxn :
    let s (l : List SinkAnswer) : State := { start with fluxIn := [⟨0x50, 0, 0, 16, 7, 0x1234⟩], sinkAnswers := l }
    (s []).fluxIn = ⟨0x50, 0, 0, 16, 7, 0x1234⟩ :: [] ∧ SinkReady (s []).sinkAnswers [] ∧
      SinkReady (s [.accept, .never]).sinkAnswers [.never] ∧
      decodeTxn ⟨0x50, 0, 0, 16, 7, 0x1234⟩ = .ok (.emitEven 16 7 0x1234) := ⟨rfl, .inl ⟨rfl, rfl⟩, .inr rfl, rfl⟩

/-- An encoder about to emit TXN `i`. -/
def emitting (i : Nat) : State := withBlock fun b =>
  { b with secbuf := sentinelFill ex.sentinel, phase := .eEmit, lastCmd := .encode, ti := i, eoff := 0x100 }

/-- The first TXN, to a sink that accepts in so many words, and the last, to one whose answers have ended. -/
theorem witness_EmitStepRunsTransaction :
    (let s : State := { emitting 0 with sinkAnswers := [.accept, .notReady] }
     ∃ t, s.quiet ∧ SinkReady s.sinkAnswers [.notReady] ∧ s.block.phase = .eEmit ∧
      txnAt s.params s.block s.block.ti = .ok (setupRecord 0x100 100000) ∧
      decodeTxn (setupRecord 0x100 100000) = .ok (.setup 0x100 100000) ∧
      exec (.setup 0x100 100000)
        { s with sinkAnswers := [.notReady], sinkTxns := setupRecord 0x100 100000 :: s.sinkTxns } = .next t) ∧
    (let s := emitting 6159
     ∃ t, s.quiet ∧ SinkReady s.sinkAnswers [] ∧ s.block.phase = .eEmit ∧
      txnAt s.params s.block s.block.ti = .ok finalizeRecord ∧ decodeTxn finalizeRecord = .ok .finalize ∧
      exec .finalize { s with sinkAnswers := [], sinkTxns := finalizeRecord :: s.sinkTxns } = .next t) :=
  ⟨⟨_, ⟨rfl, rfl⟩, .inr rfl, rfl, rfl, rfl, rfl⟩, ⟨_, ⟨rfl, rfl⟩, .inl ⟨rfl, rfl⟩, rfl, rfl, rfl, rfl⟩⟩

/-- One header for each way to be refused, and a TXN the block produces. -/
theorem witness_EmitAllAndUnproducedHeadersRefused :
    (0xC0 : Byte).extractLsb' 6 2 = 0b11 ∧ (0x41 : Byte).extractLsb' 0 4 ≠ 0 ∧
    ((0x10 : Byte).extractLsb' 6 2 = 0b00 ∧ (0x10 : Byte).extractLsb' 4 2 ≠ 0) ∧
    ((0xB0 : Byte).extractLsb' 6 2 = 0b10 ∧ (0xB0 : Byte).extractLsb' 4 2 ≠ 0) ∧
    txnAt ex start.block 6159 = .ok finalizeRecord := by
  refine ⟨?_, ?_, ?_, ?_, rfl⟩ <;> decide

theorem witness_NopChangesNothing : start.block.phase = .idle ∧ (emitting 0).block.phase ≠ .idle := by
  constructor <;> decide

theorem witness_CommandWhileBusyDropped :
    let s := { emitting 0 with script := [.write 0x0000 4 0xFFFFFFFF] }
    s.fluxIn = [] ∧ s.block.phase ≠ .idle ∧ s.script = .write 0x0000 4 0xFFFFFFFF :: [] :=
  ⟨rfl, by decide, rfl⟩

theorem witness_ReservedCommandDropped :
    let s := { start with script := [.write 0x0000 4 0x00000003] }
    s.fluxIn = [] ∧ s.block.phase = .idle ∧ s.script = .write 0x0000 4 0x00000003 :: [] ∧
      (0x00000003 : Word32) ≠ 0 ∧ (0x00000003 : Word32) ≠ 1 ∧ (0x00000003 : Word32) ≠ 2 :=
  ⟨rfl, rfl, rfl, by decide, by decide, by decide⟩

theorem witness_DecodeStart : start.block.phase = .idle := rfl

/-- A fully written buffer; one whose lowest unwritten offset is 0; one whose lowest is 6143. -/
theorem witness_EncodeStart :
    (full.block.phase = .idle ∧ ∀ i < 6144, (memByte full.block.secbuf i).isSome = true) ∧
    (start.block.phase = .idle ∧ memByte start.block.secbuf 0 = none ∧
      ∀ i < 0, (memByte start.block.secbuf i).isSome = true) ∧
    (let s := withBlock fun b => { b with secbuf := sentinelFrom ex.sentinel 0 6143 }
     s.block.phase = .idle ∧ memByte s.block.secbuf 6143 = none ∧
      ∀ i < 6143, (memByte s.block.secbuf i).isSome = true) := by
  refine ⟨⟨rfl, full_written⟩, ⟨rfl, rfl, fun i hi => absurd hi (Nat.not_lt_zero i)⟩, rfl, ?_, fun i hi => ?_⟩
  · change memByte (sentinelFrom ex.sentinel 0 6143) 6143 = none
    rw [memByte_sentinelFrom, if_neg (by omega)]
  · change (memByte (sentinelFrom ex.sentinel 0 6143) i).isSome = true
    rw [memByte_sentinelFrom, if_pos (by omega)]
    rfl

theorem witness_RawEmitsValueBits :
    (1 ≤ (1 : BitVec 6).toNat ∧ (1 : BitVec 6).toNat ≤ 32) ∧ 1 ≤ (32 : BitVec 6).toNat ∧ (32 : BitVec 6).toNat ≤ 32 := by
  decide

theorem witness_EvenEmitsOddPositionBits :
    ((2 : BitVec 6).toNat = 2 * 1 ∧ 1 ≤ 1 ∧ 1 ≤ 16) ∧ (32 : BitVec 6).toNat = 2 * 16 ∧ 1 ≤ 16 ∧ 16 ≤ 16 := by decide

theorem witness_OddEmitsEvenPositionBits : (16 : BitVec 6).toNat = 2 * 8 ∧ 1 ≤ 8 ∧ 8 ≤ 16 := by decide

/-- `NBITS` 0; the least and the greatest odd one; the least and the greatest above 32. -/
theorem witness_OtherNbitsEmit : (0 : BitVec 6) = 0 ∧ (1 : BitVec 6).toNat = 2 * 0 + 1 ∧ (63 : BitVec 6).toNat = 2 * 31 + 1 ∧
    32 < (33 : BitVec 6).toNat ∧ 32 < (63 : BitVec 6).toNat ∧
    ((Instr.emitEven 63 7 5 = .emitEven 63 7 5 ∧ 1 = 1) ∨ (Instr.emitEven 63 7 5 = .emitOdd 63 7 5 ∧ 1 = 0)) := by decide

theorem witness_PlaneCellsHaveNoAdjacentOnes :
    (2 ≤ (2 : BitVec 6).toNat ∧ (2 : BitVec 6).toNat ≤ 32 ∧
      (Instr.emitOdd 2 7 3 = .emitEven 2 7 3 ∨ Instr.emitOdd 2 7 3 = .emitOdd 2 7 3)) ∧
    (withBlock fun b => { b with prev := true }).block.prev = true := by decide

theorem witness_PlanesAreRecovered :
    dataCells (evenHalf 0xA9129294) = evenPlane 0x1234 ∧ dataCells (oddHalf 0xA9129294) = oddPlane 0x1234 := by decide

/-- A decoder in phase `p` before the cells `l`. -/
def decoding (p : Phase) (l : List SourceAnswer) : State :=
  { withBlock fun b => { b with phase := p, lastCmd := .decode, secbuf := sentinelFill ex.sentinel } with stream := l }

/-- Both clauses of the three reading steps: a cell, and the end of the stream. -/
theorem witness_ScanStep : (decoding .dScan [.cell true]).quiet ∧ (decoding .dScan [.cell true]).block.phase = .dScan ∧
    (decoding .dScan [.cell true]).stream = .cell true :: [] ∧ (decoding .dScan []).stream = [] :=
  ⟨⟨rfl, rfl⟩, rfl, rfl, rfl⟩

theorem witness_ConfirmStep : (decoding .dConfirm [.cell true]).quiet ∧
    (decoding .dConfirm [.cell true]).block.phase = .dConfirm ∧
    (decoding .dConfirm [.cell true]).stream = .cell true :: [] ∧ (decoding .dConfirm []).stream = [] :=
  ⟨⟨rfl, rfl⟩, rfl, rfl, rfl⟩

theorem witness_DemodStep : (decoding .dDemod [.cell true]).quiet ∧ (decoding .dDemod [.cell true]).block.phase = .dDemod ∧
    (decoding .dDemod [.cell true]).stream = .cell true :: [] ∧ (decoding .dDemod []).stream = [] :=
  ⟨⟨rfl, rfl⟩, rfl, rfl, rfl⟩

theorem witness_StreamExhaustedFinishes : (decoding .dConfirm []).quiet ∧
    ((decoding .dConfirm []).block.phase = .dScan ∨ (decoding .dConfirm []).block.phase = .dConfirm ∨
      (decoding .dConfirm []).block.phase = .dDemod) ∧ (decoding .dConfirm []).stream = [] :=
  ⟨⟨rfl, rfl⟩, .inr (.inl rfl), rfl⟩

/-- An attempt all of whose bodies are zero and all of whose checksum words are `c`. -/
def attempt (c : Word16) : State := withBlock fun b =>
  { b with
    phase := .dValidate
    lastCmd := .decode
    secbuf := sentinelFill ex.sentinel
    wi := 3078
    wb := wordsFrom (fun i => if i % 513 = 0 then c else 0) 0 3078 }

theorem attempt_written (c : Word16) : ∀ i < 3078, (sparseRead (attempt c).block.wb i).isSome = true := by
  intro i hi
  change (sparseRead (wordsFrom _ 0 3078) i).isSome = true
  rw [sparseRead_wordsFrom, if_pos (by omega)]
  rfl

theorem attempt_word (c : Word16) {i : Nat} (hi : i < 3078) :
    wbWord (attempt c).block.wb i = if i % 513 = 0 then c else 0 := by
  change (sparseRead (wordsFrom _ 0 3078) i).getD 0 = _
  rw [sparseRead_wordsFrom, if_pos (by omega)]
  rfl

theorem sum_zeros (n : Nat) : (List.replicate n (0 : Word16)).sum = 0 := by
  induction n with
  | zero => rfl
  | succ n ih => rw [List.replicate_succ, List.sum_cons, ih]; rfl

theorem attempt_sum (c : Word16) {s : Nat} (hs : s < 6) : wbSum (attempt c).block.wb s = 0 := by
  have h : ∀ k ∈ List.range 512, wbWord (attempt c).block.wb (513 * s + 1 + k) = 0 := by
    intro k hk
    rw [List.mem_range] at hk
    rw [attempt_word c (by omega), if_neg (by omega)]
  rw [wbSum, List.map_congr_left h, List.map_const', sum_zeros]

/-- With checksum word 0 every sector becomes valid; with 0xFFFF none does (V-CK-1). -/
theorem witness_ValidateStepJudgesSectors : (attempt 0).quiet ∧ (attempt 0).block.phase = .dValidate ∧
    (∀ i < 3078, (sparseRead (attempt 0).block.wb i).isSome = true) ∧ newlyValid (attempt 0).block 5 = true ∧
    newlyValid (attempt 0xFFFF).block 0 = false := by
  refine ⟨⟨rfl, rfl⟩, rfl, attempt_written 0, ?_, ?_⟩
  · rw [newlyValid, attempt_sum 0 (by omega), attempt_word 0 (by omega)]
    rfl
  · rw [newlyValid, attempt_sum 0xFFFF (by omega), attempt_word 0xFFFF (by omega)]
    rfl

theorem attempt_inverted : ∀ k < 6, wbWord (attempt 0xFFFF).block.wb (513 * k) = ~~~ wbSum (attempt 0xFFFF).block.wb k := by
  intro k hk
  rw [attempt_sum 0xFFFF hk, attempt_word 0xFFFF (by omega), if_pos (by omega)]
  rfl

/-- Masks of no sector, of some, and of all six: what is asked of the sectors not yet valid holds of each. -/
theorem witness_InvertedChecksumsNeverValidate :
    ∀ mask ∈ [0x00, 0x2D, 0x3F],
      let s : State := { attempt 0xFFFF with block := { (attempt 0xFFFF).block with validMask := mask } }
      s.quiet ∧ s.block.phase = .dValidate ∧ (∀ i < 3078, (sparseRead s.block.wb i).isSome = true) ∧
        ∀ k < 6, s.block.validMask.getLsbD k = false → wbWord s.block.wb (513 * k) = ~~~ wbSum s.block.wb k :=
  fun _ _ => ⟨⟨rfl, rfl⟩, rfl, attempt_written _, fun k hk _ => attempt_inverted k hk⟩

theorem witness_FinishStepReportsResult : (decoding .dFinish []).quiet ∧ (decoding .dFinish []).block.phase = .dFinish ∧
    (decoding .dFinish []).block.validMask = 0 ∧
    (withBlock fun b => { b with phase := .dFinish, validMask := 0x20 }).block.validMask ≠ 0 :=
  ⟨⟨rfl, rfl⟩, rfl, rfl, by decide⟩

theorem witness_TransactionSequence : ∀ i < 6144, (memByte full.block.secbuf i).isSome = true := full_written

theorem witness_SectorWordsAreBigEndian : memByte [(6142, 0x51), (6143, 0xFF)] (1024 * 5 + 2 * 511) = some 0x51 ∧
    memByte [(6142, 0x51), (6143, 0xFF)] (1024 * 5 + 2 * 511 + 1) = some 0xFF := by decide

theorem witness_EncoderWritesOnlyStatus :
    ∃ t, (emitting 0).quiet ∧ (emitting 0).block.phase = .eEmit ∧ step (emitting 0) = .next t :=
  ⟨_, ⟨rfl, rfl⟩, rfl, rfl⟩

theorem witness_DecoderEmitsNothing :
    ∃ t, (decoding .dScan [.cell true]).quiet ∧ (decoding .dScan [.cell true]).block.phase.decoding ∧
      step (decoding .dScan [.cell true]) = .next t :=
  ⟨_, ⟨rfl, rfl⟩, ⟨by decide, by decide⟩, rfl⟩

/-- One access for each clause, at the ends of the ranges; the last one meets UNINIT_READ and none of the others. -/
theorem witness_AccessFaultsInOrder :
    let s (op : HostOp) : State := { start with script := [op] }
    ((s (.read 0x27FC 4)).fluxIn = [] ∧ (s (.read 0x27FC 4)).script = .read 0x27FC 4 :: [] ∧
      (s (.write 0x2800 4 5)).script = .write 0x2800 4 5 :: [] ∧ (s (.read 0x27FC 4)).block.phase = .idle) ∧
    ((emitting 0).block.phase ≠ .idle ∧
      ¬ (2 = 4 ∧ ((Direction.read = .read ∧ (0x0004 : BitVec 16).toNat = 0x0004) ∨
        (Direction.read = .write ∧ (0x0004 : BitVec 16).toNat = 0x0000)))) ∧
    (0x0020 ≤ (0x0020 : BitVec 16).toNat ∧ (0x0FFF : BitVec 16).toNat ≤ 0x0FFF ∧ 0x2800 ≤ (0x2800 : BitVec 16).toNat) ∧
    ((0x001C : BitVec 16).toNat < 0x0020 ∧ 2 ≠ 4) ∧ (¬ (0x1000 : BitVec 16).toNat < 0x0020 ∧ 3 ≠ 1 ∧ 3 ≠ 2 ∧ 3 ≠ 4) ∧
    ((0x27FE : BitVec 16).toNat % 4 ≠ 0 ∧ (0x001D : BitVec 16).toNat % 4 ≠ 0) ∧
    ((0x27FC : BitVec 16).toNat % 4 = 0 ∧ 0x1000 ≤ (0x27FC : BitVec 16).toNat ∧ (0x27FC : BitVec 16).toNat < 0x2800 ∧
      memByte [(6140, 1), (6141, 1), (6142, 1)] ((0x27FC : BitVec 16).toNat - 0x1000 + 3) = none) := by
  refine ⟨⟨rfl, rfl, rfl, rfl⟩, ⟨by decide, by decide⟩, ?_⟩
  decide

theorem witness_SecbufReadIsBigEndian :
    let s : State := { withBlock fun b => { b with secbuf := [(6142, 0xAB), (6143, 0xCD)] } with script := [.read 0x27FE 2] }
    let f : Nat → Byte := fun i => if i = 0 then 0xAB else 0xCD
    s.fluxIn = [] ∧ s.script = .read 0x27FE 2 :: [] ∧ s.block.phase = .idle ∧ 0x1000 ≤ (0x27FE : BitVec 16).toNat ∧
      (0x27FE : BitVec 16).toNat < 0x2800 ∧ (2 = 1 ∨ 2 = 2 ∨ 2 = 4) ∧ (0x27FE : BitVec 16).toNat % 2 = 0 ∧
      ∀ i < 2, memByte s.block.secbuf ((0x27FE : BitVec 16).toNat - 0x1000 + i) = some (f i) := by
  refine ⟨rfl, rfl, rfl, ?_⟩
  decide

theorem witness_SecbufWriteIsBigEndian :
    let s : State := { start with script := [.write 0x1000 4 0x12345678] }
    s.fluxIn = [] ∧ s.script = .write 0x1000 4 0x12345678 :: [] ∧ s.block.phase = .idle ∧
      0x1000 ≤ (0x1000 : BitVec 16).toNat ∧ (0x1000 : BitVec 16).toNat < 0x2800 ∧ (4 = 1 ∨ 4 = 2 ∨ 4 = 4) ∧
      (0x1000 : BitVec 16).toNat % 4 = 0 := by
  refine ⟨rfl, rfl, rfl, ?_⟩
  decide

/-- Each register's clause is met at `start`, and `STATUS` also while busy. -/
theorem witness_RegisterReads :
    let s (o : BitVec 16) : State := { start with script := [.read o 4] }
    ((s 0x001C).fluxIn = [] ∧ (s 0x001C).script = .read 0x001C 4 :: [] ∧ (s 0x001C).block.phase = .idle) ∧
    ((emitting 0).block.phase ≠ .idle ∧ (0x0004 : BitVec 16) = 0x0004) ∧
    ((0x001C : BitVec 16) = 0x001C ∧ start.block.hdrLen = 0) := by
  refine ⟨⟨rfl, rfl, rfl⟩, ?_⟩
  decide

theorem witness_RegisterWrites :
    let s : State := { start with script := [.write 0x0010 4 0xFFFFFFFF] }
    s.fluxIn = [] ∧ s.script = .write 0x0010 4 0xFFFFFFFF :: [] ∧ s.block.phase = .idle := ⟨rfl, rfl, rfl⟩

theorem witness_BlockHoldsForPorts :
    ((decoding .dScan [.notReady]).quiet ∧ (decoding .dScan [.notReady]).block.phase = .dScan ∧
      (decoding .dScan [.notReady]).stream = .notReady :: []) ∧
    ((decoding .dDemod [.never]).block.phase = .dDemod ∧ (decoding .dDemod [.never]).stream = .never :: []) ∧
    (let s := { emitting 0 with sinkAnswers := [.notReady] }
     s.quiet ∧ s.block.phase = .eEmit ∧ s.sinkAnswers = .notReady :: []) ∧
    (let s := { emitting 0 with sinkAnswers := [.never] }
     s.quiet ∧ s.block.phase = .eEmit ∧ s.sinkAnswers = .never :: []) :=
  ⟨⟨⟨rfl, rfl⟩, rfl, rfl⟩, ⟨rfl, rfl⟩, ⟨⟨rfl, rfl⟩, rfl, rfl⟩, ⟨⟨rfl, rfl⟩, rfl, rfl⟩⟩

/-- One hold, `EOS`, and the FINISH step. -/
theorem witness_HoldsDoNotChangeResult :
    ∃ t, (decoding .dScan [.notReady]).quiet ∧ (decoding .dScan [.notReady]).block.phase.decoding ∧
      Host.Core.run Sys2Proof.core 3 (decoding .dScan [.notReady]) = .next t ∧ t.block.phase = .idle :=
  ⟨_, ⟨rfl, rfl⟩, ⟨by decide, by decide⟩, rfl, rfl⟩

theorem witness_RecordsOnlyGrow : ∃ t, step { start with script := [.read 0x0022 2] } = .next t := ⟨_, rfl⟩

/-- A decoder scanning its first cells has the invariant. -/
theorem decoding_inv (l : List SourceAnswer) : (decoding .dScan l).Inv := by
  have hs : (decoding .dScan l).block.sentinelSlots ex.sentinel := fun i hi _ => by
    change memByte (sentinelFill ex.sentinel) i = _
    rw [memByte_sentinelFill, if_pos hi]
  exact ⟨⟨sentinelFill_wf _, rfl, Nat.zero_le _, (by decide : 0 < 32), Nat.zero_le _, Nat.zero_le _, Nat.zero_le _,
    .inl ⟨rfl, rfl, rfl⟩, ⟨rfl, ⟨rfl, rfl, rfl⟩, allWritten_sentinelFill _, hs, fun _ => rfl⟩⟩, rfl⟩

theorem witness_StepKeepsInvariant : (decoding .dScan [.cell true]).Inv := decoding_inv _

theorem witness_DecodeRunEnds : (decoding .dScan [.cell true]).Inv ∧ (decoding .dScan [.cell true]).quiet ∧
    (decoding .dScan [.cell true]).block.phase.decoding ∧ SourceAnswers (decoding .dScan [.cell true]).stream :=
  ⟨decoding_inv _, ⟨rfl, rfl⟩, ⟨by decide, by decide⟩, by simp [SourceAnswers, decoding]⟩

theorem witness_EncodeRunEmitsImage : full.quiet ∧ full.sinkAnswers = [] ∧ full.block.phase = .idle ∧
    ∀ i < 6144, (memByte full.block.secbuf i).isSome = true := ⟨⟨rfl, rfl⟩, rfl, rfl, full_written⟩

theorem witness_EncodedImageHoldsWords : full.quiet ∧ full.sinkAnswers = [] ∧ full.sinkCells = [] ∧
    full.block.phase = .idle ∧ ∀ i < 6144, (memByte full.block.secbuf i).isSome = true :=
  ⟨⟨rfl, rfl⟩, rfl, rfl, rfl, full_written⟩

theorem witness_EncodeDecodeRoundTrip :
    let s := { full with block := { full.block with validMask := 0x20, dataBitoff := 0xFFFFFFFF } }
    s.quiet ∧ s.sinkAnswers = [] ∧ s.sinkCells = [] ∧ s.block.phase = .idle ∧
      (∀ i < 6144, (memByte s.block.secbuf i).isSome = true) ∧ s.block.validMask ≠ 0 :=
  ⟨⟨rfl, rfl⟩, rfl, rfl, rfl, full_written, by decide⟩

theorem witness_EncodeDecodeOfInvalidIsNoData : full.quiet ∧ full.sinkAnswers = [] ∧ full.sinkCells = [] ∧
    full.block.phase = .idle ∧ (∀ i < 6144, (memByte full.block.secbuf i).isSome = true) ∧ full.block.validMask = 0 :=
  ⟨⟨rfl, rfl⟩, rfl, rfl, rfl, full_written, rfl⟩

theorem witness_WaitEndsWhenIdle :
    let s := { start with script := [.wait] }
    let t := { emitting 0 with script := [.wait] }
    (s.fluxIn = [] ∧ s.script = .wait :: [] ∧ s.block.phase = .idle) ∧
    (t.fluxIn = [] ∧ t.script = .wait :: [] ∧ t.block.phase ≠ .idle) := ⟨⟨rfl, rfl, rfl⟩, rfl, rfl, by decide⟩

theorem witness_StreamSetsNextSequence :
    let s := { decoding .dScan [.cell true] with script := [.stream [.cell false, .notReady]] }
    s.fluxIn = [] ∧ s.script = .stream [.cell false, .notReady] :: [] := ⟨rfl, rfl⟩

/-- While busy, and while idle. -/
theorem witness_RunTakesOneBlockStep :
    let s := { start with script := [.run, scriptNop] }
    let t := { emitting 0 with script := [.run] }
    (s.fluxIn = [] ∧ s.script = .run :: [scriptNop] ∧ s.block.phase = .idle) ∧
    (t.fluxIn = [] ∧ t.script = .run :: [] ∧ t.block.phase ≠ .idle) := ⟨⟨rfl, rfl, rfl⟩, rfl, rfl, by decide⟩

end Sys2Proof.Tests
end

section
/-! PROOFS of 10_state.md. What `STATUS` and each register read, and from these the block after reset. -/

namespace Sys2Proof.Machine

/-! ### `STATUS` -/

/-- The cleared fields of `STATUS` are the whole word, its reserved bits being 0 (10_state.md R22). -/
theorem statusWord_eq_zero {b : Block} (hphase : b.phase = .idle) (hresult : b.result = .none)
    (hcmdErr : b.cmdErr = false) (hlastCmd : b.lastCmd = .none) : statusWord b = 0 := by
  rw [statusWord, busy_eq_false.mpr hphase, hresult, hcmdErr, hlastCmd]
  rfl

/-! ### What a read of each register returns (10_state.md R21 to R26) -/

@[simp] theorem Block.readRegister_cmd (b : Block) : b.readRegister .cmd = 0 := rfl
@[simp] theorem Block.readRegister_status (b : Block) : b.readRegister .status = statusWord b := rfl
@[simp] theorem Block.readRegister_validMask (b : Block) : b.readRegister .validMask = b.validMask.setWidth 32 := rfl
@[simp] theorem Block.readRegister_dataBitoff (b : Block) : b.readRegister .dataBitoff = b.dataBitoff := rfl
@[simp] theorem Block.readRegister_startPos (b : Block) : b.readRegister .startPos = b.startPos := rfl
@[simp] theorem Block.readRegister_hdrSecsize (b : Block) : b.readRegister .hdrSecsize = b.hdrSecsize := rfl
@[simp] theorem Block.readRegister_hdrNsec (b : Block) : b.readRegister .hdrNsec = b.hdrNsec := rfl
@[simp] theorem Block.readRegister_hdrLen (b : Block) : b.readRegister .hdrLen = b.hdrLen := rfl

/-! ### The block after reset (10_state.md R41) -/

theorem Block.reset_busy : Block.reset.busy = false := busy_eq_false.mpr Block.reset_phase

@[simp] theorem statusWord_reset : statusWord Block.reset = 0 :=
  statusWord_eq_zero Block.reset_phase Block.reset_result Block.reset_cmdErr Block.reset_lastCmd

theorem Block.reset_readRegister (r : Register) : Block.reset.readRegister r = 0 := by
  cases r with
  | cmd => exact Block.readRegister_cmd _
  | status => rw [Block.readRegister_status, statusWord_reset]
  | validMask => simp only [Block.readRegister_validMask, Block.reset_validMask, BitVec.ofNat_eq_ofNat, BitVec.setWidth_zero]
  | dataBitoff => rw [Block.readRegister_dataBitoff, Block.reset_dataBitoff]
  | startPos => rw [Block.readRegister_startPos, Block.reset_startPos]
  | hdrSecsize => rw [Block.readRegister_hdrSecsize, Block.reset_hdrSecsize]
  | hdrNsec => rw [Block.readRegister_hdrNsec, Block.reset_hdrNsec]
  | hdrLen => rw [Block.readRegister_hdrLen, Block.reset_hdrLen]

/-- No `SECBUF` byte is written (10_state.md R27). -/
theorem memByte_reset (i : Nat) : memByte Block.reset.secbuf i = none := sparseRead_nil i

/-- No `WB` entry is written (10_state.md R34). -/
theorem sparseRead_reset_wb (i : Nat) : sparseRead Block.reset.wb i = none := sparseRead_nil i

/-- Settles O1: the host-visible elements by the lemmas above, each other field by its lemma on `Block.reset`. -/
theorem resetLeavesStatedValues : Obligations.ResetLeavesStatedValues :=
  ⟨statusWord_reset, Block.reset_busy, Block.reset_result, Block.reset_cmdErr, Block.reset_lastCmd,
    Block.reset_readRegister, Block.reset_validMask, Block.reset_phase, memByte_reset, sparseRead_reset_wb,
    Block.reset_w, Block.reset_pos, Block.reset_candOff, Block.reset_fill, Block.reset_cnt, Block.reset_wi,
    Block.reset_new, Block.reset_ti, Block.reset_prev, Block.reset_opos, Block.reset_emask, Block.reset_eoff⟩

end Sys2Proof.Machine
end

section
/-! PROOFS of 20_memory.md. What a big-endian read of `SECBUF` returns, and from it the data words of a sector. -/

namespace Sys2Proof.Machine

/-! ### Big-endian reads (20_memory.md R45, R52) -/

/-- Two bytes composed big-endian are the first followed by the second. -/
theorem bytesBE_pair (hi lo : Byte) : bytesBE [hi, lo] = (hi ++ lo).setWidth 32 := by
  rw [BitVec.setWidth_append_eq_shiftLeft_setWidth_or]
  simp only [bytesBE, List.foldl_cons, List.foldl_nil, BitVec.ofNat_eq_ofNat, BitVec.zero_shiftLeft, BitVec.zero_or]

/-- A read of bytes that are all written composes them. -/
theorem memRead_of_memByte {m : Memory} {off : Nat} {vs : List Byte}
    (h : ∀ k < vs.length, memByte m (off + k) = vs[k]?) : memRead m off vs.length = some (bytesBE vs) := by
  have hrun : sparseRun m off vs.length = some vs := sparseRun_eq_some.mpr ⟨rfl, h⟩
  rw [memRead, hrun, Option.map_some]

/-! ### The data words of a sector (20_memory.md R44, R53) -/

/-- A data word is its two bytes in `SECBUF`, the first the high half (20_memory.md R44). -/
theorem secWord_of_memByte {m : Memory} {s k : Nat} {hi lo : Byte}
    (hhi : memByte m (Config.secBytes * s + 2 * k) = some hi)
    (hlo : memByte m (Config.secBytes * s + 2 * k + 1) = some lo) : secWord m s k = some (hi ++ lo) := by
  have hread : memRead m (Config.secBytes * s + 2 * k) 2 = some (bytesBE [hi, lo]) :=
    memRead_of_memByte (vs := [hi, lo]) fun
      | 0, _ => hhi
      | 1, _ => hlo
  rw [secWord, hread, Option.map_some, bytesBE_pair, BitVec.setWidth_setWidth_of_le _ (by decide), BitVec.setWidth_eq]

/-- Settles O34: the word is the first byte followed by the second, so its halves are the two bytes. -/
theorem sectorWordsAreBigEndian : Obligations.SectorWordsAreBigEndian := by
  intro m s k hi lo hhi hlo
  exact ⟨hi ++ lo, secWord_of_memByte hhi hlo, BitVec.extractLsb'_append_eq_left, BitVec.extractLsb'_append_eq_right⟩

end Sys2Proof.Machine
end

section
/-! PROOFS of 30_encoding.md. The headers of rule R74: how each class of them is refused, and that no TXN of the block's
sequence has one. -/

namespace Sys2Proof.Machine

/-! ### What the decoder answers to the headers of R74 -/

/-- The headers of 30_encoding.md R74. -/
def UnproducedHeader (h : Byte) : Prop :=
  headerKind h = 0b11 ∨ headerLow h ≠ 0 ∨ ((headerKind h = 0b00 ∨ headerKind h = 0b10) ∧ headerTag h ≠ 0) ∨ h = 0x70

theorem decodeTxn_headerLowBits {r : TxnRecord} (hlow : headerLow r.header ≠ 0) :
    decodeTxn r = .error (.headerLowBits r.header) := by
  rw [decodeTxn, if_pos hlow]

theorem decodeTxn_reservedKind {r : TxnRecord} (hlow : headerLow r.header = 0) (hkind : headerKind r.header = 0b11) :
    decodeTxn r = .error (.reservedKind r.header) := by
  simp [decodeTxn, hlow, hkind]

theorem decodeTxn_nonzeroTag {r : TxnRecord} (hlow : headerLow r.header = 0)
    (hkind : headerKind r.header = 0b00 ∨ headerKind r.header = 0b10) (htag : headerTag r.header ≠ 0) :
    decodeTxn r = .error (.nonzeroTag r.header) := by
  obtain hsetup | hfinalize := hkind
  · simpa [decodeTxn, hlow, hsetup] using htag
  · simpa [decodeTxn, hlow, hfinalize] using htag

/-- EMIT.ALL is the one header of R74 that decodes. -/
theorem decodeTxn_emitAll {r : TxnRecord} (h : r.header = 0x70) :
    decodeTxn r = .ok (.emitAll r.nbits r.speed r.value) := by
  simp [decodeTxn, h, headerLow, headerKind, headerTag]

/-! ### Rendering refuses them (45_flux_encoder.md R141) -/

/-- A record that is no TXN is refused with the decoder's reason. -/
theorem renderTxn_of_decodeTxn_error {r : TxnRecord} {e : DecodeError} (h : decodeTxn r = .error e) (s : State) :
    renderTxn r s = .refused (.headerNeverProduced e) := by
  rw [renderTxn, h]

theorem exec_emitAll_refused (s : State) (nbits : BitVec 6) (speed : Word16) (value : Word32) :
    exec (.emitAll nbits speed value) s = .refused .emitAllHasNoCellRule := rfl

theorem renderTxn_emitAll_refused {r : TxnRecord} (h : r.header = 0x70) (s : State) :
    renderTxn r s = .refused .emitAllHasNoCellRule := by
  rw [renderTxn, decodeTxn_emitAll h]
  exact exec_emitAll_refused s r.nbits r.speed r.value

/-- The decoder looks at `H[3:0]` first, so the other classes are told apart where it is 0. -/
theorem renderTxn_unproducedHeader_refused {r : TxnRecord} (h : UnproducedHeader r.header) (s : State) :
    ∃ e, renderTxn r s = .refused e := by
  by_cases hlow : headerLow r.header = 0
  · obtain hkind | hne | ⟨hkind, htag⟩ | hall := h
    · exact ⟨_, renderTxn_of_decodeTxn_error (decodeTxn_reservedKind hlow hkind) s⟩
    · exact absurd hlow hne
    · exact ⟨_, renderTxn_of_decodeTxn_error (decodeTxn_nonzeroTag hlow hkind htag) s⟩
    · exact ⟨_, renderTxn_emitAll_refused hall s⟩
  · exact ⟨_, renderTxn_of_decodeTxn_error (decodeTxn_headerLowBits hlow) s⟩

/-! ### The headers the block produces (44_remodulator.md R124 to R131, R134) -/

@[simp] theorem setupRecord_header (start len : Word32) : (setupRecord start len).header = 0x00 := rfl
@[simp] theorem emitRecord_header (h : Byte) (nbits : BitVec 6) (speed : Word16) (value : Word32) :
    (emitRecord h nbits speed value).header = h := rfl
@[simp] theorem finalizeRecord_header : finalizeRecord.header = 0x80 := rfl

/-- The headers of SETUP, EMIT.RAW, EMIT.EVEN, EMIT.ODD and FINALIZE. -/
def producedHeaders : List Byte := [0x00, 0x40, 0x50, 0x60, 0x80]

theorem not_unproducedHeader_of_produced : ∀ h ∈ producedHeaders, ¬ UnproducedHeader h := by
  unfold producedHeaders UnproducedHeader
  decide

/-- The TXNs of a group are an EVEN and an ODD (44_remodulator.md R129, R130). -/
theorem planeTxn_header {p : Params} {b : Block} {j : Nat} {r : TxnRecord} (h : planeTxn p b j = some r) :
    r.header = 0x50 ∨ r.header = 0x60 := by
  obtain ⟨v, -, rfl⟩ := Option.map_eq_some_iff.mp h
  split
  · exact .inl rfl
  · exact .inr rfl

/-- Over any buffer, and at any index that has a TXN. -/
theorem txnAt_header_mem_produced {p : Params} {b : Block} {i : Nat} {r : TxnRecord} (h : txnAt p b i = .ok r) :
    r.header ∈ producedHeaders := by
  unfold txnAt at h
  split at h
  case isTrue => cases h; simp [producedHeaders]
  split at h
  case isTrue => cases h; simp [producedHeaders]
  split at h
  case isTrue => cases h; simp [producedHeaders]
  split at h
  case isTrue =>
    split at h
    · next r' hplane =>
      cases h
      obtain heven | hodd := planeTxn_header hplane
      · simp [producedHeaders, heven]
      · simp [producedHeaders, hodd]
    · cases h
  split at h
  case isTrue => cases h; simp [producedHeaders]
  cases h

/-- Settles O20: each class of R74 is refused by its lemma, and the five headers the block produces are in none of them. -/
theorem emitAllAndUnproducedHeadersRefused : Obligations.EmitAllAndUnproducedHeadersRefused :=
  ⟨exec_emitAll_refused, fun s _ h => renderTxn_unproducedHeader_refused h s,
    fun _ _ _ r h => not_unproducedHeader_of_produced r.header (txnAt_header_mem_produced h)⟩

end Sys2Proof.Machine
end

section
/-! PROOFS of 40_commands.md. What each command does while idle, which words are commands, and from these the effect of a
write of any word to `CMD`. -/

namespace Sys2Proof.Machine

/-! ### The arms of the host commands -/

theorem exec_nop (s : State) : exec .nop s = execNop s := rfl
theorem exec_decode (s : State) : exec .decode s = execDecode s := rfl
theorem exec_encode (s : State) : exec .encode s = execEncode s := rfl

/-! ### What a command does while idle; while busy each is dropped (`execNop_busy` and its like) -/

/-- 40_commands.md R83. -/
theorem execNop_idle {s : State} (h : s.block.phase = .idle) : execNop s = .next s := by
  simp [execNop, busy_eq_false.mpr h]

/-- 40_commands.md R84; the source's sequence is used up (log 10). -/
theorem execDecode_idle {s : State} (h : s.block.phase = .idle) :
    execDecode s = .next { s with
      block := s.block.startDecode s.params.sentinel, stream := s.nextStream, nextStream := [] } := by
  simp [execDecode, busy_eq_false.mpr h]

/-- 40_commands.md R87. -/
theorem execEncode_idle_written {s : State} (h : s.block.phase = .idle) (hw : firstUnwritten s.block.secbuf = none) :
    execEncode s = .next { s with block := s.block.startEncode } := by
  simp [execEncode, busy_eq_false.mpr h, hw]

/-- 44_remodulator.md R132. -/
theorem execEncode_idle_unwritten {s : State} {off : Nat} (h : s.block.phase = .idle)
    (hu : firstUnwritten s.block.secbuf = some off) : execEncode s = .next (s.raise (.uninitEncode off)) := by
  simp [execEncode, busy_eq_false.mpr h, hu]

/-! ### The words that are commands (30_encoding.md R67) -/

/-- A command word is its two fields. -/
theorem commandRsv_append_commandOp (w : Word32) : commandRsv w ++ commandOp w = w :=
  BitVec.extractLsb'_append_extractLsb' (w := 28) (len := 4)

/-- With `RSV` 0 the word is its `OP`. -/
theorem eq_zero_append_of_commandOp {w : Word32} {op : BitVec 4} (hrsv : commandRsv w = 0) (hop : commandOp w = op) :
    w = (0 : BitVec 28) ++ op := by
  rw [← hrsv, ← hop, commandRsv_append_commandOp]

/-- A word other than 0, 1 and 2 is no command: its `RSV` is not 0, or its `OP` is reserved. -/
theorem decodeCommand_reserved {w : Word32} (hnop : w ≠ 0x00000000) (hdecode : w ≠ 0x00000001)
    (hencode : w ≠ 0x00000002) : ∃ e, decodeCommand w = .error e := by
  by_cases hrsv : commandRsv w = 0
  · have h0 : commandOp w ≠ 0x0 := fun h => hnop (eq_zero_append_of_commandOp hrsv h)
    have h1 : commandOp w ≠ 0x1 := fun h => hdecode (eq_zero_append_of_commandOp hrsv h)
    have h2 : commandOp w ≠ 0x2 := fun h => hencode (eq_zero_append_of_commandOp hrsv h)
    exact ⟨.reservedOp w, by rw [decodeCommand, if_neg (not_not.mpr hrsv), if_neg h0, if_neg h1, if_neg h2]⟩
  · exact ⟨.reservedBits w, by rw [decodeCommand, if_pos hrsv]⟩

/-! ### The write of a word to `CMD` -/

/-- The host's 32-bit write to `CMD` issues its word once the operation is used up (10_state.md R21). -/
theorem step_cmd_write {s : State} {rest : List HostOp} {w : Word32} (hflux : s.fluxIn = [])
    (hscript : s.script = .write 0x0000 4 w :: rest) : step s = issueCommand w { s with script := rest } := by
  rw [step_script hflux hscript]
  exact hostWrite_cmd w { s with script := rest }

/-- While busy, a word is dropped whether it is a command or not (40_commands.md R91). -/
theorem issueCommand_busy {s : State} (w : Word32) (h : s.block.phase ≠ .idle) :
    issueCommand w s = .next s.dropCommand := by
  rw [issueCommand]
  cases hw : decodeCommand w with
  | error e => rfl
  | ok i =>
    obtain ⟨-, hdrop⟩ | ⟨hidle, -⟩ | ⟨hidle, -⟩ | ⟨hidle, -⟩ | ⟨hidle, -⟩ := decodeCommand_exec_cases hw s
    · exact hdrop
    all_goals exact absurd hidle h

/-- A word that is no command is dropped in any phase (40_commands.md R92). -/
theorem issueCommand_error {w : Word32} {e : DecodeError} (h : decodeCommand w = .error e) (s : State) :
    issueCommand w s = .next s.dropCommand := by
  rw [issueCommand, h]

/-! ### The sentinel bytes (43_checksum_validator.md R110) -/

/-- `S[i mod 4]` by cases on the residue. -/
theorem sentinelByte_eq (t : Sentinel) (i : Nat) : sentinelByte t i =
    if i % 4 = 0 then t.s0 else if i % 4 = 1 then t.s1 else if i % 4 = 2 then t.s2 else t.s3 := by
  unfold sentinelByte
  split
  case h_1 h => simp [h]
  case h_2 h => simp [h]
  case h_3 h => simp [h]
  case h_4 h0 h1 h2 => rw [if_neg h0, if_neg h1, if_neg h2]

/-! ### The obligations -/

/-- Settles O13: the start step by `execDecode_idle`, the buffer it leaves by what the sentinel fill reads as. -/
theorem decodeStart : Obligations.DecodeStart := by
  intro s hidle
  refine ⟨sentinelFill s.params.sentinel, [], fun i => ?_, ?_⟩
  · rw [memByte_sentinelFill, sentinelByte_eq]
  · rw [exec_decode, execDecode_idle hidle]
    rfl

/-- Settles O14: the two outcomes differ in whether there is a lowest unwritten offset. -/
theorem encodeStart : Obligations.EncodeStart := by
  intro s hidle
  refine ⟨fun hwritten => ?_, fun off hoff hunwritten hbelow => ?_⟩
  · rw [exec_encode, execEncode_idle_written hidle (firstUnwritten_eq_none.mpr hwritten)]
    rfl
  · rw [exec_encode, execEncode_idle_unwritten hidle (firstUnwritten_eq_some.mpr ⟨hoff, hunwritten, hbelow⟩)]
    rfl

/-- Settles O10: the idle and the busy case of NOP. -/
theorem nopChangesNothing : Obligations.NopChangesNothing := by
  intro s
  refine ⟨fun hidle => ?_, fun hbusy => ?_⟩
  · rw [exec_nop, execNop_idle hidle]
  · rw [exec_nop, execNop_busy (busy_eq_true.mpr hbusy)]
    rfl

/-- Settles O11: the write issues its word, and while busy every word is dropped. -/
theorem commandWhileBusyDropped : Obligations.CommandWhileBusyDropped := by
  intro s rest w hflux hbusy hscript
  rw [step_cmd_write hflux hscript]
  exact issueCommand_busy (s := { s with script := rest }) w hbusy

/-- Settles O12: the write issues its word, which is no command; that the block is idle is not needed. -/
theorem reservedCommandDropped : Obligations.ReservedCommandDropped := by
  intro s rest w hflux _ hscript hnop hdecode hencode
  obtain ⟨e, he⟩ := decodeCommand_reserved hnop hdecode hencode
  rw [step_cmd_write hflux hscript, issueCommand_error he]
  rfl

end Sys2Proof.Machine
end

section
/-! PROOFS of 41_sync_detector.md. What a reading phase does at a cell and at `EOS`, and from these the SCAN and the CONFIRM
step. -/

namespace Sys2Proof.Machine

/-! ### Reading a cell (20_memory.md R58, R59) -/

theorem readCell_nil {s : State} (h : s.stream = []) : readCell s = .eos := by
  rw [readCell, h]

theorem readCell_cons {s : State} {c : Bool} {rest : List SourceAnswer} (h : s.stream = .cell c :: rest) :
    readCell s = .cell c { s with stream := rest } := by
  rw [readCell, h]

/-- `shiftIn` and `min` written as the shift and the comparison of the rule's pseudocode. -/
theorem Block.takeCell_eq (b : Block) (c : Bool) : b.takeCell c =
    { b with
      pos := b.pos + 1
      w := (b.w <<< 1) ||| (BitVec.ofBool c).setWidth 32
      fill := if b.fill + 1 ≤ 16 then b.fill + 1 else 16 } := by
  rw [Block.takeCell, shiftIn_eq, Nat.min_def]

/-- `W[15:0]`. -/
theorem lastHalf_eq_extractLsb' (w : Word32) : lastHalf w = w.extractLsb' 0 16 :=
  BitVec.setWidth_eq_extractLsb' (by decide)

/-! ### The SCAN step (41_sync_detector.md R94) -/

/-- The mark test is made on the block the cell was taken into; `CAND_OFF` counts from the cell's own position (R96). -/
theorem Block.scanCell_eq (b : Block) (mark1 : Word16) (c : Bool) : b.scanCell mark1 c =
    if (b.takeCell c).fill = 16 ∧ (b.takeCell c).w.extractLsb' 0 16 = mark1 then
      { b.takeCell c with candOff := b.pos - 15, cnt := 0, phase := .dConfirm }
    else b.takeCell c := by
  rw [← lastHalf_eq_extractLsb']
  rfl

theorem step_scan {s : State} (hq : s.quiet) (hp : s.block.phase = .dScan) : step s = .next (scanStep s) := by
  rw [step_quiet hq, blockStep, hp]

theorem scanStep_nil {s : State} (h : s.stream = []) : scanStep s = s.setPhase .dFinish := by
  rw [scanStep, readCell_nil h]

theorem scanStep_cons {s : State} {c : Bool} {rest : List SourceAnswer} (h : s.stream = .cell c :: rest) :
    scanStep s = { s with stream := rest, block := s.block.scanCell s.params.mark1 c } := by
  rw [scanStep, readCell_cons h]

/-- Settles O26: at the end of the stream by `scanStep_nil`, at a cell by what the cell does to the block. Called `_holds`
because the model's step has the obligation's name. -/
theorem scanStep_holds : Obligations.ScanStep := by
  intro s hq hp
  refine ⟨fun heos => ?_, fun c rest hcell => ?_⟩
  · rw [step_scan hq hp, scanStep_nil heos]
    rfl
  · rw [step_scan hq hp, scanStep_cons hcell, Block.scanCell_eq, Block.takeCell_eq]

/-! ### The CONFIRM step (41_sync_detector.md R95) -/

/-- A mismatch keeps `W`, `POS` and `FILL` as the cell left them (R97). -/
theorem Block.confirmCell_eq (b : Block) (mark2 : Word32) (c : Bool) : b.confirmCell mark2 c =
    if b.cnt + 1 = 32 then
      if (b.takeCell c).w = mark2 then { b.takeCell c with cnt := 0, wi := 0, new := 0, phase := .dDemod }
      else { b.takeCell c with cnt := 0, phase := .dScan }
    else { b.takeCell c with cnt := b.cnt + 1 } := rfl

theorem step_confirm {s : State} (hq : s.quiet) (hp : s.block.phase = .dConfirm) : step s = .next (confirmStep s) := by
  rw [step_quiet hq, blockStep, hp]

theorem confirmStep_nil {s : State} (h : s.stream = []) : confirmStep s = s.setPhase .dFinish := by
  rw [confirmStep, readCell_nil h]

theorem confirmStep_cons {s : State} {c : Bool} {rest : List SourceAnswer} (h : s.stream = .cell c :: rest) :
    confirmStep s = { s with stream := rest, block := s.block.confirmCell s.params.mark2 c } := by
  rw [confirmStep, readCell_cons h]

/-- Settles O27: at the end of the stream by `confirmStep_nil`, at a cell by what the cell does to the block. -/
theorem confirmStep_holds : Obligations.ConfirmStep := by
  intro s hq hp
  refine ⟨fun heos => ?_, fun c rest hcell => ?_⟩
  · rw [step_confirm hq hp, confirmStep_nil heos]
    rfl
  · rw [step_confirm hq hp, confirmStep_cons hcell, Block.confirmCell_eq, Block.takeCell_eq]

end Sys2Proof.Machine
end

section
/-! PROOFS of 42_demodulator.md. The demodulated word bit by bit, and what the cell of a DEMOD step does to the block while
its group is incomplete and when it completes it. -/

namespace Sys2Proof.Machine

/-! ### `Demod(G)` (42_demodulator.md R104) -/

/-- The mask 0xAAAA has the odd bits of a word. -/
theorem evenPlaneMask_getLsbD : ∀ k < 8,
    (0xAAAA : Word16).getLsbD (2 * k + 1) = true ∧ (0xAAAA : Word16).getLsbD (2 * k) = false := by decide

/-- The mask 0x5555 has the even bits of a word. -/
theorem oddPlaneMask_getLsbD : ∀ k < 8,
    (0x5555 : Word16).getLsbD (2 * k + 1) = false ∧ (0x5555 : Word16).getLsbD (2 * k) = true := by decide

/-- The shift by 15 brings the `k`-th data cell of the even-plane half to bit `2k + 1`. -/
theorem demod_getLsbD_odd (g : Word32) {k : Nat} (hk : k < 8) : (demod g).getLsbD (2 * k + 1) = g.getLsbD (16 + 2 * k) := by
  obtain ⟨heven, -⟩ := evenPlaneMask_getLsbD k hk
  obtain ⟨hodd, -⟩ := oddPlaneMask_getLsbD k hk
  have hlt : 2 * k + 1 < 16 := by omega
  have hpos : 15 + (2 * k + 1) = 16 + 2 * k := by omega
  simp only [demod, BitVec.getLsbD_or, BitVec.getLsbD_and, heven, hodd, BitVec.getLsbD_setWidth, BitVec.getLsbD_ushiftRight,
    hlt, hpos, decide_true, Bool.true_and, Bool.and_true, Bool.and_false, Bool.or_false]

/-- The `k`-th data cell of the odd-plane half stays at bit `2k`. -/
theorem demod_getLsbD_even (g : Word32) {k : Nat} (hk : k < 8) : (demod g).getLsbD (2 * k) = g.getLsbD (2 * k) := by
  obtain ⟨-, heven⟩ := evenPlaneMask_getLsbD k hk
  obtain ⟨-, hodd⟩ := oddPlaneMask_getLsbD k hk
  have hlt : 2 * k < 16 := by omega
  simp only [demod, BitVec.getLsbD_or, BitVec.getLsbD_and, heven, hodd, BitVec.getLsbD_setWidth, hlt, decide_true,
    Bool.true_and, Bool.and_true, Bool.and_false, Bool.false_or]

/-- Masking the group and taking its low half is masking the low half. -/
theorem demod_eq_setWidth (g : Word32) : demod g = (((g >>> 15) &&& 0x0000AAAA) ||| (g &&& 0x00005555)).setWidth 16 := by
  rw [BitVec.setWidth_or, BitVec.setWidth_and, BitVec.setWidth_and]
  rfl

/-- Settles O24: the formula by `demod_eq_setWidth`, its bits by the parity of their index. -/
theorem demodInterleavesPlanes : Obligations.DemodInterleavesPlanes := fun g =>
  ⟨demod_eq_setWidth g, fun _ hk => ⟨demod_getLsbD_odd g hk, demod_getLsbD_even g hk⟩⟩

/-! ### The DEMOD step (42_demodulator.md R103) -/

/-- A cell inside a group is only counted. -/
theorem Block.demodCell_of_cnt_ne {b : Block} (h : b.cnt + 1 ≠ 32) (c : Bool) :
    b.demodCell c = { b.takeCell c with cnt := b.cnt + 1 } :=
  if_neg h

/-- The 32nd cell stores the group's word; the 3078th word ends the reading (R105). -/
theorem Block.demodCell_of_cnt_eq {b : Block} (hp : b.phase = .dDemod) (h : b.cnt + 1 = 32) (c : Bool) :
    b.demodCell c =
      { b.takeCell c with
        wb := sparseWrite b.wb b.wi (demod (b.takeCell c).w)
        wi := b.wi + 1
        cnt := 0
        phase := if b.wi + 1 = 3078 then .dValidate else .dDemod } := by
  by_cases hwi : b.wi + 1 = 3078
  · rw [if_pos hwi]
    exact (if_pos h).trans (if_pos hwi)
  · rw [if_neg hwi, ← hp]
    exact (if_pos h).trans (if_neg hwi)

theorem step_demod {s : State} (hq : s.quiet) (hp : s.block.phase = .dDemod) : step s = .next (demodStep s) := by
  rw [step_quiet hq, blockStep, hp]

theorem demodStep_nil {s : State} (h : s.stream = []) : demodStep s = s.setPhase .dFinish := by
  rw [demodStep, readCell_nil h]

theorem demodStep_cons {s : State} {c : Bool} {rest : List SourceAnswer} (h : s.stream = .cell c :: rest) :
    demodStep s = { s with stream := rest, block := s.block.demodCell c } := by
  rw [demodStep, readCell_cons h]

/-- Settles O28: at the end of the stream by `demodStep_nil`; at a cell by whether it completes its group, the buffer then
being the write of the group's word, else the old one. Called `_holds` because the model's step has the obligation's name. -/
theorem demodStep_holds : Obligations.DemodStep := by
  intro s hq hp
  refine ⟨fun heos => ?_, fun c rest hcell => ?_⟩
  · rw [step_demod hq hp, demodStep_nil heos]
    rfl
  · rw [step_demod hq hp, demodStep_cons hcell]
    by_cases hcnt : s.block.cnt + 1 = 32
    · rw [Block.demodCell_of_cnt_eq hp hcnt, Block.takeCell_eq]
      refine ⟨_, fun i => ?_, by rw [if_pos hcnt]⟩
      simp only [sparseRead_sparseWrite, demod, hcnt, true_and]
    · rw [Block.demodCell_of_cnt_ne hcnt, Block.takeCell_eq]
      exact ⟨s.block.wb, fun i => by rw [if_neg fun h => hcnt h.1], by rw [if_neg hcnt]⟩

end Sys2Proof.Machine
end

section
/-! PROOFS of 43_checksum_validator.md. What VALIDATE does with one sector of a demodulated attempt, what it has done after
the first `n` of them, and the two outcomes of FINISH. -/

namespace Sys2Proof.Machine

/-! ### The words of a demodulated sector (43_checksum_validator.md R111) -/

/-- The 512 body words of sector `s`. -/
def wbBody (wb : WordBuffer) (s : Nat) : List Word16 := (List.range 512).map fun k => wbWord wb (513 * s + 1 + k)

@[simp] theorem wbBody_length (wb : WordBuffer) (s : Nat) : (wbBody wb s).length = 512 := by
  simp [wbBody]

@[simp] theorem wbBody_getElem (wb : WordBuffer) (s k : Nat) (hk : k < (wbBody wb s).length) :
    (wbBody wb s)[k] = wbWord wb (513 * s + 1 + k) := by
  simp [wbBody]

theorem wbWord_of_sparseRead {wb : WordBuffer} {i : Nat} {v : Word16} (h : sparseRead wb i = some v) : wbWord wb i = v := by
  rw [wbWord, h, Option.getD_some]

/-- The wraparound sum does not depend on the end it starts from. -/
theorem csum_wbBody (wb : WordBuffer) (s : Nat) : csum (wbBody wb s) = wbSum wb s := List.sum_eq_foldl.symm

/-- A sector of a demodulated attempt is its checksum word and its body. -/
theorem wbSector_eq {wb : WordBuffer} {s : Nat} (hs : s < 6) (hwb : wordsWritten wb Config.tw) :
    wbSector wb s = some (wbWord wb (513 * s), wbBody wb s) := by
  obtain ⟨c, body, hsector, hlength, hc, hbody⟩ := wbSector_isSome hs hwb
  have hbody_eq : wbBody wb s = body := by
    refine List.ext_getElem (by rw [wbBody_length, hlength]) fun k hk hk' => ?_
    rw [wbBody_getElem]
    exact wbWord_of_sparseRead ((hbody k (by omega)).trans (List.getElem?_eq_getElem hk'))
  rw [hsector, wbWord_of_sparseRead hc, hbody_eq]

/-! ### The slot of a sector (43_checksum_validator.md R114) -/

/-- The byte at buffer offset `a` once the sector it lies in is copied from the attempt. -/
def attemptByte (wb : WordBuffer) (a : Nat) : Byte :=
  let v := wbWord wb (513 * (a / 1024) + 1 + a % 1024 / 2)
  if a % 2 = 0 then v.extractLsb' 8 8 else v.extractLsb' 0 8

/-- The bytes of a word written with width 2: the high half first (20_memory.md R44). -/
theorem byteBE_word (v : Word16) (a : Nat) :
    byteBE 2 (a % 2) (v.setWidth 32) = if a % 2 = 0 then v.extractLsb' 8 8 else v.extractLsb' 0 8 := by
  rw [byteBE, BitVec.setWidth_ushiftRight_eq_extractLsb]
  obtain h | h := Nat.mod_two_eq_zero_or_one a
  · rw [if_pos h, h, BitVec.extractLsb'_setWidth_of_le (by decide)]
  · rw [if_neg (by omega), h, BitVec.extractLsb'_setWidth_of_le (by decide)]

/-- Slot `s` is the 1024 bytes whose offsets divide to `s`. -/
theorem memByte_writeSlot_wbBody (m : Memory) (wb : WordBuffer) (s a : Nat) :
    memByte (writeSlot m s (wbBody wb s)) a = if a / 1024 = s then some (attemptByte wb a) else memByte m a := by
  rw [memByte_writeSlot]
  simp only [Config.secBytes, wbBody_length, wbBody_getElem]
  by_cases h : a / 1024 = s
  · have hparity : (a - 1024 * s) % 2 = a % 2 := by omega
    have hindex : (a - 1024 * s) / 2 = a % 1024 / 2 := by omega
    rw [dif_pos (by omega), if_pos h, hparity, hindex, byteBE_word, attemptByte, h]
  · rw [dif_neg (by omega), if_neg h]

/-! ### One sector (43_checksum_validator.md R112, R113, R115) -/

/-- Sector `s` made valid and its body copied. -/
def Block.acceptSector (b : Block) (s : Nat) : Block :=
  { b with validMask := setValid b.validMask s, secbuf := writeSlot b.secbuf s (wbBody b.wb s), new := b.new + 1 }

theorem newlyValid_eq_true {b : Block} {s : Nat} :
    newlyValid b s = true ↔ validBit b.validMask s = false ∧ wbSum b.wb s = wbWord b.wb (513 * s) := by
  rw [newlyValid, Bool.and_eq_true, Bool.not_eq_true', decide_eq_true_iff]

/-- In a demodulated attempt VALIDATE accepts exactly the newly valid sectors, and changes nothing for any other. -/
theorem Block.validateSector_eq {b : Block} {s : Nat} (hs : s < 6) (hwb : wordsWritten b.wb Config.tw) :
    b.validateSector s = .ok (if newlyValid b s then b.acceptSector s else b) := by
  have hsector := wbSector_eq hs hwb
  obtain ⟨hvalid, hok⟩ | ⟨hnone, -⟩ | ⟨c, body, hsome, hne, hok⟩ | ⟨body, hinvalid, hsome, hok⟩ := validateSector_cases b s
  · have hnot : ¬ newlyValid b s = true := fun h => by simp [(newlyValid_eq_true.mp h).1] at hvalid
    rw [hok, if_neg hnot]
  · simp [hsector] at hnone
  · obtain ⟨rfl, rfl⟩ : wbWord b.wb (513 * s) = c ∧ wbBody b.wb s = body := by simpa [hsector] using hsome
    rw [csum_wbBody] at hne
    have hnot : ¬ newlyValid b s = true := fun h => hne (newlyValid_eq_true.mp h).2
    rw [hok, if_neg hnot]
  · obtain ⟨hsum, rfl⟩ : wbWord b.wb (513 * s) = csum body ∧ wbBody b.wb s = body := by simpa [hsector] using hsome
    rw [csum_wbBody] at hsum
    rw [hok, if_pos (newlyValid_eq_true.mpr ⟨hinvalid, hsum.symm⟩), acceptSector]

/-! ### The sectors in index order (43_checksum_validator.md R112) -/

/-- The number of newly valid sectors among the first `n`. -/
def newlyValidCount (b : Block) (n : Nat) : Nat := ((List.range n).filter (newlyValid b)).length

theorem newlyValidCount_succ (b : Block) (n : Nat) :
    newlyValidCount b (n + 1) = newlyValidCount b n + if newlyValid b n then 1 else 0 := by
  rw [newlyValidCount, List.range_succ, List.filter_append, List.length_append, ← newlyValidCount, List.filter_singleton]
  cases newlyValid b n <;> rfl

/-- The block that VALIDATE entered as `b`, once it has been through the first `n` sectors. -/
def Block.judged (b : Block) (n : Nat) (mask : BitVec 6) (m : Memory) : Block :=
  { b with validMask := mask, secbuf := m, new := b.new + newlyValidCount b n }

/-- The mask and the buffer after the first `n` sectors: those newly valid have their bit and their body, everything else is
as it was. -/
structure JudgedBelow (b : Block) (n : Nat) (mask : BitVec 6) (m : Memory) : Prop where
  valid : ∀ i, validBit mask i = (validBit b.validMask i || (decide (i < n) && newlyValid b i))
  bytes : ∀ a, memByte m a =
    if a < 1024 * n ∧ newlyValid b (a / 1024) = true then some (attemptByte b.wb a) else memByte b.secbuf a

/-- Before the first sector. -/
theorem JudgedBelow.zero (b : Block) : JudgedBelow b 0 b.validMask b.secbuf where
  valid := fun i => by simp
  bytes := fun a => by simp

/-- The sectors before `n` have left the judgement of sector `n` what it was. -/
theorem newlyValid_judged {b : Block} {n : Nat} {mask : BitVec 6} {m : Memory} (h : JudgedBelow b n mask m) :
    newlyValid (b.judged n mask m) n = newlyValid b n := by
  have hbit : validBit mask n = validBit b.validMask n := by simp [h.valid n]
  rw [Bool.eq_iff_iff, newlyValid_eq_true, newlyValid_eq_true]
  simp only [Block.judged, hbit]

/-- A newly valid sector joins those before it. -/
theorem JudgedBelow.accept {b : Block} {n : Nat} {mask : BitVec 6} {m : Memory} (h : JudgedBelow b n mask m) (hn : n < 6)
    (hnew : newlyValid b n = true) : JudgedBelow b (n + 1) (setValid mask n) (writeSlot m n (wbBody b.wb n)) where
  valid := fun i => by
    rw [validBit_setValid hn, h.valid i]
    by_cases hi : i = n
    · simp [hi, hnew]
    · have : i < n + 1 ↔ i < n := by omega
      simp [hi, this]
  bytes := fun a => by
    rw [memByte_writeSlot_wbBody, h.bytes a]
    by_cases ha : a / 1024 = n
    · rw [if_pos ha, if_pos ⟨by omega, ha ▸ hnew⟩]
    · have : a < 1024 * (n + 1) ↔ a < 1024 * n := by omega
      simp only [if_neg ha, this]

/-- A sector that is not newly valid adds nothing. -/
theorem JudgedBelow.skip {b : Block} {n : Nat} {mask : BitVec 6} {m : Memory} (h : JudgedBelow b n mask m)
    (hnew : newlyValid b n = false) : JudgedBelow b (n + 1) mask m where
  valid := fun i => by
    rw [h.valid i]
    by_cases hi : i = n
    · simp [hi, hnew]
    · have : i < n + 1 ↔ i < n := by omega
      simp [this]
  bytes := fun a => by
    rw [h.bytes a]
    by_cases ha : a / 1024 = n
    · simp [ha, hnew]
    · have : a < 1024 * (n + 1) ↔ a < 1024 * n := by omega
      simp only [this]

/-- VALIDATE of the next sector: its judgement is the one it would have had on entry. -/
theorem validateSector_judged {b : Block} {n : Nat} {mask : BitVec 6} {m : Memory} (hn : n < 6)
    (hwb : wordsWritten b.wb Config.tw) (h : JudgedBelow b n mask m) :
    ∃ mask' m', (b.judged n mask m).validateSector n = .ok (b.judged (n + 1) mask' m') ∧
      JudgedBelow b (n + 1) mask' m' := by
  rw [Block.validateSector_eq (b := b.judged n mask m) hn hwb, newlyValid_judged h]
  cases hnew : newlyValid b n with
  | true =>
    refine ⟨_, _, ?_, h.accept hn hnew⟩
    simp [Block.judged, Block.acceptSector, newlyValidCount_succ, hnew, Nat.add_assoc]
  | false =>
    refine ⟨_, _, ?_, h.skip hnew⟩
    simp [Block.judged, newlyValidCount_succ, hnew]

/-- VALIDATE from sector `s` on, over `n` more. -/
theorem validateFrom_judged {b : Block} (hwb : wordsWritten b.wb Config.tw) {s n : Nat} {mask : BitVec 6} {m : Memory}
    (hs : s + n ≤ 6) (h : JudgedBelow b s mask m) :
    ∃ mask' m', Block.validateFrom s n (b.judged s mask m) = .ok (b.judged (s + n) mask' m') ∧
      JudgedBelow b (s + n) mask' m' := by
  induction n generalizing s mask m with
  | zero => exact ⟨mask, m, rfl, h⟩
  | succ n ih =>
    obtain ⟨mask₁, m₁, hok, h₁⟩ := validateSector_judged (by omega) hwb h
    obtain ⟨mask', m', hrest, h'⟩ := ih (by omega) h₁
    rw [Nat.add_right_comm] at hrest h'
    refine ⟨mask', m', ?_, h'⟩
    simp only [Block.validateFrom, hok]
    exact hrest

/-! ### The VALIDATE step -/

theorem step_validate {s : State} (hq : s.quiet) (hp : s.block.phase = .dValidate) : step s = validateStep s := by
  rw [step_quiet hq, blockStep, hp]

/-- All six sectors judged, then the end of the attempt. -/
theorem validateStep_judged {s : State} (hwb : wordsWritten s.block.wb Config.tw) :
    ∃ mask m, validateStep s = .next { s with block := (s.block.judged 6 mask m).endAttempt } ∧
      JudgedBelow s.block 6 mask m := by
  obtain ⟨mask, m, hok, h⟩ := validateFrom_judged hwb (n := Config.nsec) (by decide) (JudgedBelow.zero s.block)
  have hfrom : Block.validateFrom 0 Config.nsec s.block = .ok (s.block.judged 6 mask m) := hok
  exact ⟨mask, m, by rw [validateStep, hfrom], h⟩

/-- Settles O30: the step leaves the block judged over all six sectors; the mask's bits and the buffer's bytes are then what
`JudgedBelow` says. -/
theorem validateStepJudgesSectors : Obligations.ValidateStepJudgesSectors := by
  intro s hq hp hwb
  obtain ⟨mask, m, hstep, h⟩ := validateStep_judged hwb
  refine ⟨m, mask, fun i hi => ?_, h.bytes, ?_⟩
  · have hbit := h.valid i
    rwa [decide_eq_true hi, Bool.true_and] at hbit
  · rw [step_validate hq hp, hstep]
    rfl

/-! ### The FINISH step (43_checksum_validator.md R119) -/

theorem step_finish {s : State} (hq : s.quiet) (hp : s.block.phase = .dFinish) :
    step s = .next { s with block := s.block.finish } := by
  rw [step_quiet hq, blockStep, hp]
  rfl

theorem Block.finish_of_validMask_ne {b : Block} (h : b.validMask ≠ 0) : b.finish =
    { b with hdrSecsize := 1024, hdrNsec := 6, hdrLen := 6144, result := .ok, phase := .idle } :=
  if_pos h

theorem Block.finish_of_validMask_eq {b : Block} (h : b.validMask = 0) :
    b.finish = { b with result := .noData, phase := .idle } :=
  if_neg (not_not.mpr h)

/-- Settles O32: a mask other than 0 by `finish_of_validMask_ne`, the mask 0 by `finish_of_validMask_eq`. -/
theorem finishStepReportsResult : Obligations.FinishStepReportsResult := by
  intro s hq hp
  rw [step_finish hq hp]
  exact ⟨fun hok => by rw [Block.finish_of_validMask_ne hok], fun hnodata => by rw [Block.finish_of_validMask_eq hnodata]⟩

end Sys2Proof.Machine
end

section
/-! PROOFS of 44_remodulator.md. The TXN at each index of an ENCODE and the word of each group, and from these the transaction
sequence of a fully written buffer. -/

namespace Sys2Proof.Machine

/-! ### The data words of a sector (20_memory.md R53) -/

theorem secWord_of_secWordsFrom {m : Memory} {s k n : Nat} {ws : List Word16} (h : secWordsFrom m s k n = some ws) :
    ws.length = n ∧ ∀ j < n, secWord m s (k + j) = ws[j]? := by
  induction n generalizing k ws with
  | zero =>
    cases h
    exact ⟨rfl, fun j hj => absurd hj (Nat.not_lt_zero j)⟩
  | succ n ih =>
    rw [secWordsFrom] at h
    split at h
    · next v vs hfirst hrest =>
      cases h
      obtain ⟨hlength, hword⟩ := ih hrest
      refine ⟨by rw [List.length_cons, hlength], fun j hj => ?_⟩
      cases j with
      | zero => exact hfirst
      | succ j =>
        rw [List.getElem?_cons_succ, ← hword j (by omega)]
        congr 1
        omega
    · cases h

/-- The data words of a sector are 512, in order. -/
theorem secWord_of_secWords {m : Memory} {s : Nat} {ws : List Word16} (h : secWords m s = some ws) :
    ws.length = 512 ∧ ∀ k < 512, secWord m s k = ws[k]? := by
  simpa using secWord_of_secWordsFrom h

/-! ### The word of a group (44_remodulator.md R124, R127, R128) -/

/-- A sector's checksum word: the sum does not depend on the end it starts from. -/
theorem encCsum_of_secWords {m : Memory} {s : Nat} {ws : List Word16} (emask : BitVec 6) (h : secWords m s = some ws) :
    encCsum m emask s = some (if emask.getLsbD s then ws.sum else ~~~ ws.sum) := by
  rw [encCsum, trueCsum, h, Option.map_some, Option.map_some, csum, ← List.sum_eq_foldl, validBit]

/-- The first word of a sector's groups is its checksum word. -/
theorem groupWord_first (m : Memory) (emask : BitVec 6) (s : Nat) : groupWord m emask (513 * s) = encCsum m emask s := by
  rw [groupWord, if_pos (by simp only [Config.gw]; omega)]
  congr 1
  simp only [Config.gw]
  omega

/-- The others are its data words. -/
theorem groupWord_data (m : Memory) (emask : BitVec 6) {s r : Nat} (hr : r ≠ 0) (hlt : r < 513) :
    groupWord m emask (513 * s + r) = secWord m s (r - 1) := by
  rw [groupWord, if_neg (by simp only [Config.gw]; omega)]
  congr 1 <;> simp only [Config.gw] <;> omega

/-! ### The TXN at each index (44_remodulator.md R124, R129, R130) -/

theorem txnAt_setup (p : Params) (b : Block) : txnAt p b 0 = .ok (setupRecord b.eoff p.trackLen) := rfl

theorem txnAt_mark1 (p : Params) (b : Block) : txnAt p b 1 = .ok (emitRecord 0x40 16 p.speed (p.mark1.setWidth 32)) := rfl

theorem txnAt_mark2 (p : Params) (b : Block) : txnAt p b 2 = .ok (emitRecord 0x40 32 p.speed p.mark2) := rfl

theorem txnAt_finalize (p : Params) (b : Block) : txnAt p b 6159 = .ok finalizeRecord := rfl

/-- Between the marks and FINALIZE, the plane TXNs. -/
theorem txnAt_of_planeTxn {p : Params} {b : Block} {j : Nat} {r : TxnRecord} (hj : j < 6156)
    (h : planeTxn p b j = some r) : txnAt p b (3 + j) = .ok r := by
  rw [txnAt, if_neg (by omega), if_neg (by omega), if_neg (by omega), if_pos (by omega), Nat.add_sub_cancel_left, h]

/-- The first of a group's two TXNs is its EVEN. -/
theorem txnAt_even {p : Params} {b : Block} {g : Nat} {v : Word16} (hg : g < 3078)
    (h : groupWord b.secbuf b.emask g = some v) :
    txnAt p b (3 + 2 * g) = .ok (emitRecord 0x50 16 p.speed (v.setWidth 32)) := by
  refine txnAt_of_planeTxn (by omega) ?_
  rw [planeTxn, Nat.mul_div_cancel_left g Nat.two_pos, h, Option.map_some, if_pos (by omega)]

/-- The second is its ODD, of the same word. -/
theorem txnAt_odd {p : Params} {b : Block} {g : Nat} {v : Word16} (hg : g < 3078)
    (h : groupWord b.secbuf b.emask g = some v) :
    txnAt p b (4 + 2 * g) = .ok (emitRecord 0x60 16 p.speed (v.setWidth 32)) := by
  have hgroup : (2 * g + 1) / 2 = g := by omega
  rw [show 4 + 2 * g = 3 + (2 * g + 1) by omega]
  refine txnAt_of_planeTxn (by omega) ?_
  rw [planeTxn, hgroup, h, Option.map_some, if_neg (by omega)]

/-- Settles O33: the TXNs outside the groups by their lemmas; group 513 s + r has a word, which its EVEN and its ODD carry,
and which is the checksum word for r = 0 and a data word otherwise. -/
theorem transactionSequence : Obligations.TransactionSequence := by
  intro p b hbytes
  have hwritten : allWritten b.secbuf = true := allWritten_iff.mpr hbytes
  refine ⟨⟨_, txnAt_setup p b, decodeTxn_setup _ _⟩, ⟨_, txnAt_mark1 p b, decodeTxn_emitRaw _ _ _⟩,
    ⟨_, txnAt_mark2 p b, decodeTxn_emitRaw _ _ _⟩, fun s hs r hr => ?_, ⟨_, txnAt_finalize p b, decodeTxn_finalize⟩⟩
  have hg : 513 * s + r < 3078 := by omega
  obtain ⟨v, hv⟩ := groupWord_isSome b.emask hwritten hg
  refine ⟨v, fun hfirst => ?_, fun hdata => ?_, ⟨_, txnAt_even hg hv, decodeTxn_emitEven _ _ _⟩,
    ⟨_, txnAt_odd hg hv, decodeTxn_emitOdd _ _ _⟩⟩
  · obtain ⟨ws, hws⟩ := secWords_isSome hwritten hs
    obtain ⟨hlength, hword⟩ := secWord_of_secWords hws
    rw [hfirst, Nat.add_zero, groupWord_first, encCsum_of_secWords b.emask hws] at hv
    exact ⟨ws, hlength, hword, (Option.some.inj hv).symm⟩
  · rwa [groupWord_data b.secbuf b.emask hdata hr] at hv

end Sys2Proof.Machine
end

section
/-! PROOFS of 45_flux_encoder.md. The cells each kind of EMIT adds at the sink, as `rendered` of a list of `cellRecords`. -/

namespace Sys2Proof.Machine

/-! ### The meaning of each TXN (45_flux_encoder.md R136) -/

theorem exec_setup (start len : Word32) (s : State) : exec (.setup start len) s =
    .next { s with block := { s.block with opos := start, prev := false } } := rfl

theorem exec_emitRaw (nbits : BitVec 6) (speed : Word16) (value : Word32) (s : State) :
    exec (.emitRaw nbits speed value) s = .next (emitRawBits speed value nbits.toNat s) := rfl

theorem exec_emitEven (nbits : BitVec 6) (speed : Word16) (value : Word32) (s : State) :
    exec (.emitEven nbits speed value) s = .next (emitPlaneBits speed value 1 (nbits.toNat / 2) s) := rfl

theorem exec_emitOdd (nbits : BitVec 6) (speed : Word16) (value : Word32) (s : State) :
    exec (.emitOdd nbits speed value) s = .next (emitPlaneBits speed value 0 (nbits.toNat / 2) s) := rfl

theorem exec_finalize (s : State) : exec .finalize s = .next s := rfl

/-! ### What a rendered TXN leaves -/

@[simp] theorem rendered_opos (s : State) (cells : List CellRecord) (p : Bool) (f : Nat) :
    (rendered s cells p f).block.opos = s.block.opos + BitVec.ofNat 32 cells.length := rfl

@[simp] theorem rendered_prev (s : State) (cells : List CellRecord) (p : Bool) (f : Nat) :
    (rendered s cells p f).block.prev = p := rfl

@[simp] theorem rendered_freeCount (s : State) (cells : List CellRecord) (p : Bool) (f : Nat) :
    (rendered s cells p f).freeCount = f := rfl

/-- Rendering that takes no free cell changes the sink's cells, `OPOS` and `PREV` only. -/
theorem rendered_cellRecords (s : State) (pos : Word32) (speed : Word16) (n : Nat) (f : Nat → Bool) (p : Bool) :
    rendered s (cellRecords pos speed n f) p s.freeCount = { s with
      sinkCells := cellRecords pos speed n f ++ s.sinkCells
      block := { s.block with opos := s.block.opos + BitVec.ofNat 32 n, prev := p } } := by
  rw [rendered, cellRecords_length]

/-! ### EMIT.RAW (45_flux_encoder.md R138) -/

theorem emitRawBit_of_lt {value : Word32} {i : Nat} (speed : Word16) (s : State) (hi : i < 32) :
    emitRawBit speed value i s =
      rendered s [⟨s.block.opos, value.getLsbD i, speed⟩] (value.getLsbD i) s.freeCount := by
  rw [emitRawBit, valueBit_of_lt hi]
  rfl

/-- The bits `VALUE[n]` down to `VALUE[0]`: the first is one record, the others are those of the shorter EMIT from the next
position on. -/
theorem emitRawBits_succ_eq {n : Nat} (speed : Word16) (value : Word32) (s : State) (hn : n < 32) :
    emitRawBits speed value (n + 1) s =
      rendered s (cellRecords s.block.opos speed (n + 1) fun j => value.getLsbD (n - j)) (value.getLsbD 0) s.freeCount := by
  induction n generalizing s with
  | zero =>
    rw [emitRawBits, emitRawBits, emitRawBit_of_lt speed s hn, cellRecords_succ]
    rfl
  | succ n ih =>
    rw [emitRawBits, emitRawBit_of_lt speed s hn, ih _ (by omega), rendered_rendered, cellRecords_succ _ _ (n + 1)]
    simp only [rendered_opos, rendered_freeCount, Nat.add_sub_add_right, Nat.sub_zero, List.length_singleton]
    rfl

/-! ### EMIT.EVEN and EMIT.ODD (45_flux_encoder.md R139, R140, R143) -/

/-- The first cell is the clock cell of the highest data bit. -/
theorem planeCell_zero (prev : Bool) (value : Word32) (odd n : Nat) :
    planeCell prev value odd (n + 1) 0 = clockCell prev (planeBit value odd n) := by
  cases prev <;> simp [planeCell, clockCell]

/-- The second is that bit. -/
theorem planeCell_one (prev : Bool) (value : Word32) (odd n : Nat) :
    planeCell prev value odd (n + 1) 1 = planeBit value odd n := by
  simp [planeCell]

/-- After the highest data bit, the cells are those of the bits below it, with it as the bit before them. -/
theorem planeCell_add_two (prev : Bool) (value : Word32) (odd n j : Nat) :
    planeCell prev value odd (n + 2) (j + 2) = planeCell (planeBit value odd (n + 1)) value odd (n + 1) j := by
  have hbit : n + 2 - 1 - (j + 2) / 2 = n - j / 2 := by omega
  have hparity : (j + 2) % 2 = j % 2 := by omega
  have hlater : n - j / 2 + 1 ≠ n + 2 := by omega
  have hbefore : (if n - j / 2 + 1 = n + 1 then planeBit value odd (n + 1) else planeBit value odd (n - j / 2 + 1)) =
      planeBit value odd (n - j / 2 + 1) := ite_eq_right_iff.mpr fun h => by rw [h]
  simp only [planeCell, hbit, hparity, if_neg hlater, Nat.add_sub_cancel, hbefore]

/-- The records of two more cells, the first two of them taken off. -/
theorem cellRecords_add_two (pos : Word32) (speed : Word16) (n : Nat) (f : Nat → Bool) :
    cellRecords pos speed (n + 2) f =
      cellRecords (pos + 2) speed n (fun j => f (j + 2)) ++ [⟨pos + 1, f 1, speed⟩, ⟨pos, f 0, speed⟩] := by
  rw [cellRecords_succ, cellRecords_succ, List.append_assoc, BitVec.add_assoc]
  rfl

theorem emitPlaneBit_of_lt {value : Word32} {odd k : Nat} (speed : Word16) (s : State) (hk : 2 * k + odd < 32) :
    emitPlaneBit speed value (2 * k + odd) s =
      rendered s [⟨s.block.opos + 1, planeBit value odd k, speed⟩,
        ⟨s.block.opos, clockCell s.block.prev (planeBit value odd k), speed⟩] (planeBit value odd k) s.freeCount := by
  rw [emitPlaneBit, valueBit_of_lt hk]
  simp only [rendered, State.emitCell, State.setPrev, planeBit, BitVec.add_assoc]
  rfl

/-- The data bits `n` down to 0 of a plane: the highest gives its two records, the others are those of the shorter EMIT that
follows a data bit of its value. -/
theorem emitPlaneBits_succ_eq {odd n : Nat} (speed : Word16) (value : Word32) (s : State) (hn : 2 * n + odd < 32) :
    emitPlaneBits speed value odd (n + 1) s =
      rendered s (cellRecords s.block.opos speed (2 * (n + 1)) (planeCell s.block.prev value odd (n + 1)))
        (planeBit value odd 0) s.freeCount := by
  induction n generalizing s with
  | zero =>
    rw [emitPlaneBits, emitPlaneBits, emitPlaneBit_of_lt speed s hn, cellRecords_add_two, planeCell_zero, planeCell_one]
    rfl
  | succ n ih =>
    rw [emitPlaneBits, emitPlaneBit_of_lt speed s hn, ih _ (by omega), rendered_rendered, Nat.mul_succ 2 (n + 1),
      cellRecords_add_two, planeCell_zero, planeCell_one]
    simp only [rendered_opos, rendered_prev, rendered_freeCount, planeCell_add_two]
    rfl

/-! ### The obligations -/

/-- Settles O15: the meaning of SETUP is the statement. -/
theorem setupSetsPosition : Obligations.SetupSetsPosition :=
  fun s start len => exec_setup start len s

/-- Settles O16, by `emitRawBits_succ_eq` at `NBITS` - 1. -/
theorem rawEmitsValueBits : Obligations.RawEmitsValueBits := by
  intro s nbits speed value hpos hle
  obtain ⟨n, hn⟩ : ∃ n, nbits.toNat = n + 1 := ⟨nbits.toNat - 1, by omega⟩
  rw [exec_emitRaw, hn, emitRawBits_succ_eq speed value s (by omega), rendered_cellRecords, Nat.add_sub_cancel]

/-- Settles O17, by `emitPlaneBits_succ_eq` for the odd positions. -/
theorem evenEmitsOddPositionBits : Obligations.EvenEmitsOddPositionBits := by
  intro s nbits speed value m hnbits hpos hle
  obtain ⟨n, rfl⟩ : ∃ n, m = n + 1 := ⟨m - 1, by omega⟩
  rw [exec_emitEven, hnbits, Nat.mul_div_cancel_left _ Nat.two_pos, emitPlaneBits_succ_eq speed value s (by omega),
    rendered_cellRecords, planeBit]

/-- Settles O18, by `emitPlaneBits_succ_eq` for the even positions. -/
theorem oddEmitsEvenPositionBits : Obligations.OddEmitsEvenPositionBits := by
  intro s nbits speed value m hnbits hpos hle
  obtain ⟨n, rfl⟩ : ∃ n, m = n + 1 := ⟨m - 1, by omega⟩
  rw [exec_emitOdd, hnbits, Nat.mul_div_cancel_left _ Nat.two_pos, emitPlaneBits_succ_eq speed value s (by omega),
    rendered_cellRecords, planeBit]

/-- Settles O21: the meaning of FINALIZE is the statement. -/
theorem finalizeChangesNothing : Obligations.FinalizeChangesNothing :=
  exec_finalize

end Sys2Proof.Machine
end

section
/-! PROOFS of 60_exceptions.md. The end of the stream in the three reading phases. -/

namespace Sys2Proof.Machine

/-- Settles O29: the `EOS` clause of the SCAN, the CONFIRM or the DEMOD step, by the phase that reads. -/
theorem streamExhaustedFinishes : Obligations.StreamExhaustedFinishes := by
  intro s hq hp heos
  obtain hscan | hconfirm | hdemod := hp
  · obtain ⟨hend, -⟩ := scanStep_holds s hq hscan
    exact hend heos
  · obtain ⟨hend, -⟩ := confirmStep_holds s hq hconfirm
    exact hend heos
  · obtain ⟨hend, -⟩ := demodStep_holds s hq hdemod
    exact hend heos

end Sys2Proof.Machine
end

section
/-! PROOFS of 30_encoding.md, continued. Which words and which records decode, to what, and from these that the decoder and
the encoder agree. -/

namespace Sys2Proof.Machine

/-! ### Command words (30_encoding.md R67) -/

/-- A word is one of the three, or it is reserved. -/
theorem decodeCommand_eq_ok_iff (w : Word32) (i : Instr) : decodeCommand w = .ok i ↔
    (w = 0x00000000 ∧ i = .nop) ∨ (w = 0x00000001 ∧ i = .decode) ∨ (w = 0x00000002 ∧ i = .encode) := by
  constructor
  · intro h
    by_cases hnop : w = 0x00000000
    · subst hnop
      exact .inl ⟨rfl, (Except.ok.inj h).symm⟩
    by_cases hdecode : w = 0x00000001
    · subst hdecode
      exact .inr (.inl ⟨rfl, (Except.ok.inj h).symm⟩)
    by_cases hencode : w = 0x00000002
    · subst hencode
      exact .inr (.inr ⟨rfl, (Except.ok.inj h).symm⟩)
    obtain ⟨e, he⟩ := decodeCommand_reserved hnop hdecode hencode
    rw [he] at h
    cases h
  · rintro (⟨rfl, rfl⟩ | ⟨rfl, rfl⟩ | ⟨rfl, rfl⟩) <;> rfl

/-! ### TXN headers (30_encoding.md R73) -/

/-- A header is its three fields. -/
theorem headerKind_append_headerTag_append_headerLow (h : Byte) : headerKind h ++ headerTag h ++ headerLow h = h := by
  have hhigh : headerKind h ++ headerTag h = h.extractLsb' 4 4 := BitVec.extractLsb'_append_extractLsb'_eq_extractLsb' rfl
  rw [hhigh]
  exact BitVec.extractLsb'_append_extractLsb' (w := 4) (len := 4)

/-- The header with `H[3:0]` = 0 is its `KIND` and its `TAG`. -/
theorem header_eq_of_fields {h : Byte} {kind tag : BitVec 2} (hlow : headerLow h = 0) (hkind : headerKind h = kind)
    (htag : headerTag h = tag) : h = kind ++ tag ++ (0 : BitVec 4) := by
  rw [← hlow, ← hkind, ← htag, headerKind_append_headerTag_append_headerLow]

/-- An EMIT whose `TAG` is none of the first three has the last. -/
theorem tag_eq_three {t : BitVec 2} : t ≠ 0b00 → t ≠ 0b01 → t ≠ 0b10 → t = 0b11 := by
  revert t
  decide

/-- A record decodes as its header says, whatever payload fields it has besides (30_encoding.md R81): what decodes fixes
`H[3:0]`, the kind and the tag, and they the header. -/
theorem decodeTxn_eq_ok_iff (r : TxnRecord) (i : Instr) : decodeTxn r = .ok i ↔
    (r.header = 0x00 ∧ i = .setup r.start r.len) ∨ (r.header = 0x40 ∧ i = .emitRaw r.nbits r.speed r.value) ∨
    (r.header = 0x50 ∧ i = .emitEven r.nbits r.speed r.value) ∨ (r.header = 0x60 ∧ i = .emitOdd r.nbits r.speed r.value) ∨
    (r.header = 0x70 ∧ i = .emitAll r.nbits r.speed r.value) ∨ (r.header = 0x80 ∧ i = .finalize) := by
  constructor
  · intro h
    by_cases hlow : headerLow r.header = 0
    · rw [decodeTxn, if_neg (not_not.mpr hlow)] at h
      split at h
      · next hkind =>
        split at h
        · next htag => cases h; exact .inl ⟨header_eq_of_fields hlow hkind htag, rfl⟩
        · cases h
      split at h
      · next hkind =>
        split at h
        · next htag => cases h; exact .inr (.inl ⟨header_eq_of_fields hlow hkind htag, rfl⟩)
        split at h
        · next htag => cases h; exact .inr (.inr (.inl ⟨header_eq_of_fields hlow hkind htag, rfl⟩))
        split at h
        · next htag => cases h; exact .inr (.inr (.inr (.inl ⟨header_eq_of_fields hlow hkind htag, rfl⟩)))
        · next hraw heven hodd =>
          cases h
          exact .inr (.inr (.inr (.inr (.inl ⟨header_eq_of_fields hlow hkind (tag_eq_three hraw heven hodd), rfl⟩))))
      split at h
      · next hkind =>
        split at h
        · next htag => cases h; exact .inr (.inr (.inr (.inr (.inr ⟨header_eq_of_fields hlow hkind htag, rfl⟩))))
        · cases h
      · cases h
    · cases (decodeTxn_headerLowBits hlow).symm.trans h
  · rintro (⟨hh, rfl⟩ | ⟨hh, rfl⟩ | ⟨hh, rfl⟩ | ⟨hh, rfl⟩ | ⟨hh, rfl⟩ | ⟨hh, rfl⟩) <;>
      simp [decodeTxn, hh, headerLow, headerKind, headerTag]

/-! ### Decode after encode -/

/-- Every instruction, well formed or not, decodes from its encoding. -/
theorem decode_encode (i : Instr) : Sys2Proof.decode (Sys2Proof.encode i) = .ok i := by
  cases i with
  | nop => rfl
  | decode => rfl
  | encode => rfl
  | setup start len => exact decodeTxn_setup start len
  | emitRaw n sp v => exact decodeTxn_emitRaw n sp v
  | emitEven n sp v => exact decodeTxn_emitEven n sp v
  | emitOdd n sp v => exact decodeTxn_emitOdd n sp v
  | emitAll n sp v => exact decodeTxn_emitAll rfl
  | finalize => exact decodeTxn_finalize

/-! ### Encode after decode -/

/-- A command word that decodes is the word of its command. -/
theorem encode_of_decodeCommand {w : Word32} {i : Instr} (h : decodeCommand w = .ok i) :
    Sys2Proof.encode i = .command w := by
  obtain ⟨rfl, rfl⟩ | ⟨rfl, rfl⟩ | ⟨rfl, rfl⟩ := (decodeCommand_eq_ok_iff w i).mp h <;> rfl

/-- A record that decodes has the header of its instruction's record. -/
theorem encode_of_decodeTxn {r : TxnRecord} {i : Instr} (h : decodeTxn r = .ok i) :
    ∃ r', Sys2Proof.encode i = .transaction r' ∧ r'.header = r.header := by
  obtain ⟨hh, rfl⟩ | ⟨hh, rfl⟩ | ⟨hh, rfl⟩ | ⟨hh, rfl⟩ | ⟨hh, rfl⟩ | ⟨hh, rfl⟩ :=
    (decodeTxn_eq_ok_iff r i).mp h <;>
    exact ⟨_, rfl, hh.symm⟩

/-! ### The obligations -/

/-- Settles O6: decode after encode by `decode_encode`; the other direction for words and for records, whose instruction's
own record decodes to it by `decode_encode` again. -/
theorem decodeAndEncodeAgree : Obligations.DecodeAndEncodeAgree := by
  refine ⟨fun i _ => decode_encode i, fun w i h => encode_of_decodeCommand h, fun r i h => ?_⟩
  have hdecode : decodeTxn r = .ok i := h
  obtain ⟨r', hencode, hheader⟩ := encode_of_decodeTxn hdecode
  have hown : decodeTxn r' = .ok i := (congrArg Sys2Proof.decode hencode).symm.trans (decode_encode i)
  exact ⟨r', hencode, hheader, hown.trans hdecode.symm⟩

/-- Settles O4. -/
theorem commandWordsAreThree : Obligations.CommandWordsAreThree := decodeCommand_eq_ok_iff

/-- Settles O5. -/
theorem txnHeadersAreSix : Obligations.TxnHeadersAreSix := decodeTxn_eq_ok_iff

/-- Settles O3: each word of the table is evaluated. -/
theorem tableWordsDecode : Obligations.TableWordsDecode := by
  refine ⟨?_, ?_, ?_, ?_, ?_, ?_, ?_, ?_, ?_, ?_, ?_⟩ <;> rfl

end Sys2Proof.Machine
end

section
/-! PROOFS about the ports, from 20_memory.md section 7 and 10_state.md section 4: what a step of each phase does at each answer
of its port, and from these what it leaves alone. -/

namespace Sys2Proof.Machine

/-! ### The reading phases (20_memory.md R58, R59) -/

theorem readCell_notReady {s : State} {rest : List SourceAnswer} (h : s.stream = .notReady :: rest) :
    readCell s = .hold { s with stream := rest } := by
  rw [readCell, h]

theorem readCell_never {s : State} {rest : List SourceAnswer} (h : s.stream = .never :: rest) : readCell s = .hold s := by
  rw [readCell, h]

/-- The phases that read a cell a step. -/
def Phase.reading (p : Phase) : Prop := p = .dScan ∨ p = .dConfirm ∨ p = .dDemod

/-- What a cell does to the block in the phase that reads it. -/
def Block.cellStep (b : Block) (p : Params) (c : Bool) : Block :=
  match b.phase with
  | .dScan => b.scanCell p.mark1 c
  | .dConfirm => b.confirmCell p.mark2 c
  | .dDemod => b.demodCell c
  | _ => b

theorem Block.cellStep_scan {b : Block} (h : b.phase = .dScan) (p : Params) (c : Bool) :
    b.cellStep p c = b.scanCell p.mark1 c := by rw [cellStep, h]

theorem Block.cellStep_confirm {b : Block} (h : b.phase = .dConfirm) (p : Params) (c : Bool) :
    b.cellStep p c = b.confirmCell p.mark2 c := by rw [cellStep, h]

theorem Block.cellStep_demod {b : Block} (h : b.phase = .dDemod) (p : Params) (c : Bool) :
    b.cellStep p c = b.demodCell c := by rw [cellStep, h]

theorem blockStep_scan {s : State} (h : s.block.phase = .dScan) : blockStep s = .next (scanStep s) := by rw [blockStep, h]

theorem blockStep_confirm {s : State} (h : s.block.phase = .dConfirm) : blockStep s = .next (confirmStep s) := by
  rw [blockStep, h]

theorem blockStep_demod {s : State} (h : s.block.phase = .dDemod) : blockStep s = .next (demodStep s) := by rw [blockStep, h]

theorem blockStep_validate {s : State} (h : s.block.phase = .dValidate) : blockStep s = validateStep s := by rw [blockStep, h]

theorem blockStep_finish {s : State} (h : s.block.phase = .dFinish) :
    blockStep s = .next { s with block := s.block.finish } := by
  rw [blockStep, h]
  rfl

theorem blockStep_emit {s : State} (h : s.block.phase = .eEmit) : blockStep s = emitStep s := by rw [blockStep, h]

theorem blockStep_idle {s : State} (h : s.block.phase = .idle) : blockStep s = .next s := by rw [blockStep, h]

/-- `EOS` ends the DECODE through D_FINISH (60_exceptions.md R149). -/
theorem blockStep_eos {s : State} (hp : s.block.phase.reading) (h : s.stream = []) :
    blockStep s = .next (s.setPhase .dFinish) := by
  obtain hp | hp | hp := hp
  · rw [blockStep_scan hp, scanStep_nil h]
  · rw [blockStep_confirm hp, confirmStep_nil h]
  · rw [blockStep_demod hp, demodStep_nil h]

/-- A cell is taken from the stream and changes the block. -/
theorem blockStep_cell {s : State} {c : Bool} {rest : List SourceAnswer} (hp : s.block.phase.reading)
    (h : s.stream = .cell c :: rest) :
    blockStep s = .next { s with stream := rest, block := s.block.cellStep s.params c } := by
  obtain hp | hp | hp := hp
  · rw [blockStep_scan hp, scanStep_cons h, Block.cellStep_scan hp]
  · rw [blockStep_confirm hp, confirmStep_cons h, Block.cellStep_confirm hp]
  · rw [blockStep_demod hp, demodStep_cons h, Block.cellStep_demod hp]

/-- A source that is not ready holds the block (20_memory.md R59). -/
theorem blockStep_notReady {s : State} {rest : List SourceAnswer} (hp : s.block.phase.reading)
    (h : s.stream = .notReady :: rest) : blockStep s = .next { s with stream := rest } := by
  obtain hp | hp | hp := hp
  · rw [blockStep_scan hp, scanStep, readCell_notReady h]
  · rw [blockStep_confirm hp, confirmStep, readCell_notReady h]
  · rw [blockStep_demod hp, demodStep, readCell_notReady h]

/-- One that never answers holds it for ever. -/
theorem blockStep_never {s : State} {rest : List SourceAnswer} (hp : s.block.phase.reading)
    (h : s.stream = .never :: rest) : blockStep s = .next s := by
  obtain hp | hp | hp := hp
  · rw [blockStep_scan hp, scanStep, readCell_never h]
  · rw [blockStep_confirm hp, confirmStep, readCell_never h]
  · rw [blockStep_demod hp, demodStep, readCell_never h]

/-! ### The emitting phase (20_memory.md R60) -/

theorem emitStep_notReady {s : State} {rest : List SinkAnswer} (h : s.sinkAnswers = .notReady :: rest) :
    emitStep s = .next { s with sinkAnswers := rest } := by
  simp only [emitStep, askSink, h]

theorem emitStep_never {s : State} {rest : List SinkAnswer} (h : s.sinkAnswers = .never :: rest) : emitStep s = .next s := by
  simp only [emitStep, askSink, h]

/-- With a ready sink the TXN of `TI` is emitted and rendered, and `TI` advances (44_remodulator.md R123). -/
theorem emitStep_ready {s t : State} {r : TxnRecord} {answers : List SinkAnswer} (hsink : SinkReady s.sinkAnswers answers)
    (htxn : txnAt s.params s.block s.block.ti = .ok r)
    (hrender : renderTxn r ({ s with sinkAnswers := answers }.emitTxn r) = .next t) :
    emitStep s = .next { t with block := t.block.advanceTxn } := by
  rw [emitStep, askSink_ready hsink]
  simp only [htxn, hrender]

/-- `TI` advances, and after TXN 6159 the ENCODE ends with OK (40_commands.md R89). -/
theorem Block.advanceTxn_eq (b : Block) : b.advanceTxn =
    { b with
      ti := b.ti + 1
      result := if b.ti + 1 = 6160 then .ok else b.result
      phase := if b.ti + 1 = 6160 then .idle else b.phase } := by
  unfold advanceTxn
  split
  · rfl
  · rfl

/-! ### What a step of the decoder leaves alone (10_state.md section 4) -/

/-- The elements of the block that no step of the decoder writes. -/
structure DecoderKeeps (b b' : Block) : Prop where
  startPos : b'.startPos = b.startPos
  ti : b'.ti = b.ti
  prev : b'.prev = b.prev
  opos : b'.opos = b.opos
  emask : b'.emask = b.emask
  eoff : b'.eoff = b.eoff
  cmdErr : b'.cmdErr = b.cmdErr
  lastCmd : b'.lastCmd = b.lastCmd

theorem DecoderKeeps.refl (b : Block) : DecoderKeeps b b := ⟨rfl, rfl, rfl, rfl, rfl, rfl, rfl, rfl⟩

theorem DecoderKeeps.trans {b b' b'' : Block} (h : DecoderKeeps b b') (h' : DecoderKeeps b' b'') : DecoderKeeps b b'' :=
  ⟨h'.startPos.trans h.startPos, h'.ti.trans h.ti, h'.prev.trans h.prev, h'.opos.trans h.opos, h'.emask.trans h.emask,
    h'.eoff.trans h.eoff, h'.cmdErr.trans h.cmdErr, h'.lastCmd.trans h.lastCmd⟩

/-- A cell leaves the decoder's outside alone, in each of the three phases. -/
theorem decoderKeeps_cellStep (b : Block) (p : Params) (c : Bool) : DecoderKeeps b (b.cellStep p c) := by
  unfold Block.cellStep
  split
  · unfold Block.scanCell
    extract_lets b'
    split <;> exact ⟨rfl, rfl, rfl, rfl, rfl, rfl, rfl, rfl⟩
  · unfold Block.confirmCell
    extract_lets b'
    repeat' split
    all_goals exact ⟨rfl, rfl, rfl, rfl, rfl, rfl, rfl, rfl⟩
  · unfold Block.demodCell
    extract_lets b' b''
    repeat' split
    all_goals exact ⟨rfl, rfl, rfl, rfl, rfl, rfl, rfl, rfl⟩
  · exact .refl b

theorem decoderKeeps_validateSector {b b' : Block} {s : Nat} (h : b.validateSector s = .ok b') : DecoderKeeps b b' := by
  obtain ⟨-, hok⟩ | ⟨-, herror⟩ | ⟨_, _, -, -, hok⟩ | ⟨_, -, -, hok⟩ := validateSector_cases b s
  · cases hok.symm.trans h
    exact .refl _
  · cases herror.symm.trans h
  · cases hok.symm.trans h
    exact .refl _
  · cases hok.symm.trans h
    exact ⟨rfl, rfl, rfl, rfl, rfl, rfl, rfl, rfl⟩

theorem decoderKeeps_validateFrom {b b' : Block} {s n : Nat} (h : Block.validateFrom s n b = .ok b') : DecoderKeeps b b' := by
  induction n generalizing s b with
  | zero =>
    cases h
    exact .refl _
  | succ n ih =>
    rw [Block.validateFrom] at h
    split at h
    · cases h
    · next b₁ hsector => exact (decoderKeeps_validateSector hsector).trans (ih h)

/-- VALIDATE gives a next state only from a block whose sectors it has gone through. -/
theorem validateStep_next {s t : State} (h : validateStep s = .next t) :
    ∃ b, Block.validateFrom 0 Config.nsec s.block = .ok b ∧ t = { s with block := b.endAttempt } := by
  unfold validateStep at h
  split at h
  · cases h
  · next b hfrom =>
    cases h
    exact ⟨b, hfrom, rfl⟩

theorem decoderKeeps_finish (b : Block) : DecoderKeeps b b.finish := by
  unfold Block.finish
  split <;> exact ⟨rfl, rfl, rfl, rfl, rfl, rfl, rfl, rfl⟩

/-- A phase of the decoder reads, or is D_VALIDATE or D_FINISH. -/
theorem Phase.decoding_iff (p : Phase) : p.decoding ↔ p.reading ∨ p = .dValidate ∨ p = .dFinish := by
  cases p <;> simp [Phase.decoding, Phase.reading]

/-- A step of the decoder changes the stream and the decoder's own elements. -/
theorem blockStep_decoding_frame {s t : State} (hp : s.block.phase.decoding) (h : blockStep s = .next t) :
    ∃ l b, t = { s with stream := l, block := b } ∧ DecoderKeeps s.block b := by
  obtain hp | hp | hp := (Phase.decoding_iff _).mp hp
  · obtain ⟨hl, -⟩ | ⟨c, rest, hl, -⟩ | ⟨rest, hl, -⟩ | ⟨rest, hl, -⟩ := readCell_cases s
    · cases (blockStep_eos hp hl).symm.trans h
      exact ⟨s.stream, _, rfl, ⟨rfl, rfl, rfl, rfl, rfl, rfl, rfl, rfl⟩⟩
    · cases (blockStep_cell hp hl).symm.trans h
      exact ⟨rest, _, rfl, decoderKeeps_cellStep _ _ _⟩
    · cases (blockStep_notReady hp hl).symm.trans h
      exact ⟨rest, _, rfl, .refl _⟩
    · cases (blockStep_never hp hl).symm.trans h
      exact ⟨s.stream, _, rfl, .refl _⟩
  · rw [blockStep_validate hp] at h
    obtain ⟨b, hfrom, rfl⟩ := validateStep_next h
    exact ⟨s.stream, _, rfl, (decoderKeeps_validateFrom hfrom).trans ⟨rfl, rfl, rfl, rfl, rfl, rfl, rfl, rfl⟩⟩
  · cases (blockStep_finish hp).symm.trans h
    exact ⟨s.stream, _, rfl, decoderKeeps_finish _⟩

/-- Settles O36: the frame of a step of the decoder. -/
theorem decoderEmitsNothing : Obligations.DecoderEmitsNothing := by
  intro s t hq hp hstep
  obtain ⟨l, b, rfl, hkeeps⟩ := blockStep_decoding_frame hp ((step_quiet hq).symm.trans hstep)
  exact ⟨rfl, rfl, rfl, rfl, hkeeps.startPos, hkeeps.ti, hkeeps.prev, hkeeps.opos, hkeeps.emask, hkeeps.eoff, hkeeps.cmdErr,
    hkeeps.lastCmd⟩

/-! ### What a step of the encoder leaves alone (10_state.md section 4) -/

/-- What a rendered TXN adds at the sink, and the fields it writes. -/
theorem renderTxn_frame {r : TxnRecord} {s t : State} (h : renderTxn r s = .next t) :
    ∃ cells opos prev free, t = { s with
      sinkCells := cells ++ s.sinkCells, freeCount := free, block := { s.block with opos := opos, prev := prev } } := by
  obtain ⟨e, he⟩ | hsetup | ⟨cells, p, f, hcells⟩ := renderTxn_cases r s
  · cases he.symm.trans h
  · cases hsetup.symm.trans h
    exact ⟨[], r.start, false, s.freeCount, rfl⟩
  · cases hcells.symm.trans h
    exact ⟨cells, _, p, f, rfl⟩

/-- A step of the encoder adds TXNs and cells at the sink and writes `RESULT`, `phase`, `TI`, `PREV` and `OPOS`. -/
theorem emitStep_frame {s t : State} (h : emitStep s = .next t) :
    ∃ answers txns cells free result phase ti prev opos, t = { s with
      sinkAnswers := answers, sinkTxns := txns ++ s.sinkTxns, sinkCells := cells ++ s.sinkCells, freeCount := free
      block := { s.block with result := result, phase := phase, ti := ti, prev := prev, opos := opos } } := by
  obtain ⟨l, hhold⟩ | ⟨f, -, hfault⟩ | ⟨r, l, -, ⟨e, -, he⟩ | ⟨u, hrender, hnext⟩⟩ := emitStep_cases s
  · cases hhold.symm.trans h
    exact ⟨l, [], [], s.freeCount, _, _, _, _, _, rfl⟩
  · cases hfault.symm.trans h
  · cases he.symm.trans h
  · cases hnext.symm.trans h
    obtain ⟨cells, opos, prev, free, rfl⟩ := renderTxn_frame hrender
    rw [Block.advanceTxn_eq]
    exact ⟨l, [r], cells, free, _, _, _, _, _, rfl⟩

/-- Settles O35: the frame of the EMIT step. -/
theorem encoderWritesOnlyStatus : Obligations.EncoderWritesOnlyStatus := by
  intro s t hq hp hstep
  obtain ⟨answers, txns, cells, free, result, phase, ti, prev, opos, rfl⟩ :=
    emitStep_frame ((blockStep_emit hp).symm.trans ((step_quiet hq).symm.trans hstep))
  exact ⟨rfl, rfl, rfl, rfl⟩

/-! ### What no step takes back -/

/-- The parameters are the same, and every record of before is still there, below the newer ones. -/
structure RecordsKept (s t : State) : Prop where
  params : t.params = s.params
  faults : s.faults <:+ t.faults
  sinkTxns : s.sinkTxns <:+ t.sinkTxns
  sinkCells : s.sinkCells <:+ t.sinkCells
  reads : s.reads <:+ t.reads

theorem RecordsKept.refl (s : State) : RecordsKept s s :=
  ⟨rfl, List.suffix_rfl, List.suffix_rfl, List.suffix_rfl, List.suffix_rfl⟩

theorem RecordsKept.trans {s t u : State} (h : RecordsKept s t) (h' : RecordsKept t u) : RecordsKept s u :=
  ⟨h'.params.trans h.params, h.faults.trans h'.faults, h.sinkTxns.trans h'.sinkTxns, h.sinkCells.trans h'.sinkCells,
    h.reads.trans h'.reads⟩

/-- The fields that a step may change without touching the records. -/
theorem RecordsKept.of_rest (s : State) (b : Block) (script : List HostOp) (next stream : List SourceAnswer)
    (answers : List SinkAnswer) (fluxIn : List TxnRecord) (free : Nat) :
    RecordsKept s { s with
      block := b, script := script, nextStream := next, stream := stream, sinkAnswers := answers, fluxIn := fluxIn
      freeCount := free } :=
  ⟨rfl, List.suffix_rfl, List.suffix_rfl, List.suffix_rfl, List.suffix_rfl⟩

theorem recordsKept_raise (s : State) (f : RecordedFault) : RecordsKept s (s.raise f) :=
  ⟨rfl, List.suffix_cons f _, List.suffix_rfl, List.suffix_rfl, List.suffix_rfl⟩

theorem recordsKept_recordRead (s : State) (o : BitVec 16) (n : Nat) (v : Word32) : RecordsKept s (s.recordRead o n v) :=
  ⟨rfl, List.suffix_rfl, List.suffix_rfl, List.suffix_rfl, List.suffix_cons _ _⟩

theorem recordsKept_hostRead (o : BitVec 16) (n : Nat) (s : State) : RecordsKept s (hostRead o n s) := by
  obtain ⟨v, hv⟩ | ⟨f, hf⟩ := hostRead_cases o n s
  · rw [hv]
    exact recordsKept_recordRead s o n v
  · rw [hf]
    exact recordsKept_raise s f

theorem recordsKept_renderTxn {r : TxnRecord} {s t : State} (h : renderTxn r s = .next t) : RecordsKept s t := by
  obtain ⟨cells, opos, prev, free, rfl⟩ := renderTxn_frame h
  exact ⟨rfl, List.suffix_rfl, List.suffix_rfl, List.suffix_append cells _, List.suffix_rfl⟩

theorem recordsKept_emitStep {s t : State} (h : emitStep s = .next t) : RecordsKept s t := by
  obtain ⟨answers, txns, cells, free, result, phase, ti, prev, opos, rfl⟩ := emitStep_frame h
  exact ⟨rfl, List.suffix_rfl, List.suffix_append txns _, List.suffix_append cells _, List.suffix_rfl⟩

theorem recordsKept_blockStep {s t : State} (h : blockStep s = .next t) : RecordsKept s t := by
  by_cases hidle : s.block.phase = .idle
  · cases (blockStep_idle hidle).symm.trans h
    exact .refl s
  by_cases hemit : s.block.phase = .eEmit
  · exact recordsKept_emitStep ((blockStep_emit hemit).symm.trans h)
  · obtain ⟨l, b, rfl, -⟩ := blockStep_decoding_frame ⟨hidle, hemit⟩ h
    exact .of_rest s _ _ _ _ _ _ _

theorem recordsKept_fluxPortStep {r : TxnRecord} {rest : List TxnRecord} {s t : State}
    (h : fluxPortStep r rest s = .next t) : RecordsKept s t := by
  unfold fluxPortStep at h
  obtain ⟨l, hsink⟩ | ⟨l, hsink⟩ := askSink_cases s
  · rw [hsink] at h
    exact (RecordsKept.of_rest s _ _ _ _ _ _ _).trans (recordsKept_renderTxn h)
  · rw [hsink] at h
    cases h
    exact .of_rest s _ _ _ _ _ _ _

/-- A command records at most that it could not start. -/
theorem recordsKept_command {w : Word32} {i : Instr} (hi : decodeCommand w = .ok i) {s t : State} (h : exec i s = .next t) :
    RecordsKept s t := by
  obtain ⟨-, hexec⟩ | ⟨-, -, hexec⟩ | ⟨-, -, hexec⟩ | ⟨-, -, off, -, hexec⟩ | ⟨-, -, -, hexec⟩ :=
    decodeCommand_exec_cases hi s
  · cases hexec.symm.trans h
    exact .of_rest s _ _ _ _ _ _ _
  · cases hexec.symm.trans h
    exact .refl s
  · cases hexec.symm.trans h
    exact .of_rest s _ _ _ _ _ _ _
  · cases hexec.symm.trans h
    exact recordsKept_raise s _
  · cases hexec.symm.trans h
    exact .of_rest s _ _ _ _ _ _ _

theorem recordsKept_hostWrite {o : BitVec 16} {n : Nat} {v : Word32} {s t : State} (h : hostWrite o n v s = .next t) :
    RecordsKept s t := by
  obtain ⟨f, hf⟩ | ⟨i, hi, hexec⟩ | hdrop | ⟨-, r, hreg⟩ | ⟨-, -, hbuf⟩ := hostWrite_cases o n v s
  · cases hf.symm.trans h
    exact recordsKept_raise s f
  · exact recordsKept_command hi (hexec.symm.trans h)
  · cases hdrop.symm.trans h
    exact .of_rest s _ _ _ _ _ _ _
  · cases hreg.symm.trans h
    exact .of_rest s _ _ _ _ _ _ _
  · cases hbuf.symm.trans h
    exact .of_rest s _ _ _ _ _ _ _

/-- While busy, WAIT lets the block move (30_encoding.md R82; log 2). -/
theorem scriptStep_wait_busy {s : State} (h : s.block.phase ≠ .idle) (rest : List HostOp) :
    scriptStep .wait rest s = blockStep s :=
  if_pos (busy_eq_true.mpr h)

/-- While idle, it reads `STATUS`. -/
theorem scriptStep_wait_idle {s : State} (h : s.block.phase = .idle) (rest : List HostOp) :
    scriptStep .wait rest s = .next (hostRead 0x0004 4 { s with script := rest }) :=
  if_neg (by rw [busy_eq_false.mpr h]; decide)

theorem recordsKept_scriptStep {op : HostOp} {rest : List HostOp} {s t : State} (h : scriptStep op rest s = .next t) :
    RecordsKept s t := by
  have hrest : RecordsKept s { s with script := rest } := .of_rest s _ _ _ _ _ _ _
  cases op with
  | read o n =>
    cases h
    exact hrest.trans (recordsKept_hostRead o n _)
  | write o n v => exact hrest.trans (recordsKept_hostWrite h)
  | stream answers =>
    cases h
    exact .of_rest s _ _ _ _ _ _ _
  | wait =>
    by_cases hidle : s.block.phase = .idle
    · cases (scriptStep_wait_idle hidle rest).symm.trans h
      exact hrest.trans (recordsKept_hostRead _ _ _)
    · exact recordsKept_blockStep ((scriptStep_wait_busy hidle rest).symm.trans h)
  | run => exact hrest.trans (recordsKept_blockStep h)
  | reset =>
    cases h
    exact .of_rest s _ _ _ _ _ _ _

/-- No step of any agent takes a record back or changes a parameter. -/
theorem recordsKept_step {s t : State} (h : step s = .next t) : RecordsKept s t := by
  obtain ⟨r, rest, -, hstep⟩ | ⟨-, op, rest, -, hstep⟩ | ⟨-, hstep⟩ := step_agent_cases s
  · exact recordsKept_fluxPortStep (hstep.symm.trans h)
  · exact recordsKept_scriptStep (hstep.symm.trans h)
  · exact recordsKept_blockStep (hstep.symm.trans h)

/-- Settles O45, by the agent that moves. -/
theorem recordsOnlyGrow : Obligations.RecordsOnlyGrow := by
  intro s t hstep
  obtain ⟨hparams, hfaults, htxns, hcells, hreads⟩ := recordsKept_step hstep
  exact ⟨hparams, hfaults, htxns, hcells, hreads⟩

/-! ### The agents (00_scope.md R18, 20_memory.md R54) -/

/-- Settles O2: the reset input is the next operation. -/
theorem resetInputRestoresBlock : Obligations.ResetInputRestoresBlock := by
  intro s rest hflux hscript
  rw [step_script hflux hscript]
  rfl

/-- Settles O7: the write issues its word, which is the command's. -/
theorem commandWriteRunsDecodedCommand : Obligations.CommandWriteRunsDecodedCommand := by
  intro s rest w i hflux hscript hdecode
  rw [step_cmd_write hflux hscript, issueCommand, hdecode]

/-- Settles O8: the port asks the ready sink and renders the record. -/
theorem fluxPortRunsDecodedTxn : Obligations.FluxPortRunsDecodedTxn := by
  intro s r rest answers i hflux hsink hdecode
  rw [step_fluxIn hflux, fluxPortStep, askSink_ready hsink]
  simp only [renderTxn, hdecode]

/-- Settles O9: the EMIT step with a ready sink, its TXN rendered as the instruction it decodes to. -/
theorem emitStepRunsTransaction : Obligations.EmitStepRunsTransaction := by
  intro s t r answers i hq hsink hp htxn hdecode hexec
  have hrender : renderTxn r ({ s with sinkAnswers := answers }.emitTxn r) = .next t := by
    rw [renderTxn, hdecode]
    exact hexec
  rw [step_quiet hq, blockStep_emit hp, emitStep_ready hsink htxn hrender, Block.advanceTxn_eq]

/-- Settles O43: the hold of each port, by its lemma. -/
theorem blockHoldsForPorts : Obligations.BlockHoldsForPorts := by
  intro s hq
  rw [step_quiet hq]
  refine ⟨fun hp => ⟨fun rest h => blockStep_notReady hp h, fun rest h => blockStep_never hp h⟩,
    fun hp => ⟨fun rest h => ?_, fun rest h => ?_⟩⟩
  · rw [blockStep_emit hp, emitStep_notReady h]
  · rw [blockStep_emit hp, emitStep_never h]

/-- Settles O54: the operation sets the source's sequence. -/
theorem streamSetsNextSequence : Obligations.StreamSetsNextSequence := by
  intro s rest answers hflux hscript
  rw [step_script hflux hscript]
  rfl

/-- Settles O55: the operation is the block's step, which while idle is none. -/
theorem runTakesOneBlockStep : Obligations.RunTakesOneBlockStep := by
  intro s rest hflux hscript
  have hstep : step s = blockStep { s with script := rest } := by
    rw [step_script hflux hscript]
    rfl
  exact ⟨hstep, fun hidle => hstep.trans (blockStep_idle hidle)⟩

end Sys2Proof.Machine
end

section
/-! PROOFS about the host bus, from 10_state.md section 2 and 20_memory.md sections 2 and 3: the fields of `STATUS`, the first
fault of an access, and what a legal access of a register or of `SECBUF` does. -/

namespace Sys2Proof.Machine

/-! ### `STATUS` (10_state.md R22) -/

/-- Each field of the word that is put together from its fields. -/
theorem status_fields : ∀ (last : BitVec 2) (err : Bool) (result : BitVec 2) (busy : Bool),
    let w : Word32 := 0#26 ++ last ++ BitVec.ofBool err ++ result ++ BitVec.ofBool busy
    w.extractLsb' 0 1 = BitVec.ofBool busy ∧ w.extractLsb' 1 2 = result ∧ w.extractLsb' 3 1 = BitVec.ofBool err ∧
      w.extractLsb' 4 2 = last ∧ w.extractLsb' 6 26 = 0 := by decide

/-- Settles O37: the fields by `status_fields`, each code by the values of its element. -/
theorem statusFields : Obligations.StatusFields := by
  intro b
  obtain ⟨hbusy, hresult, herr, hlast, hrest⟩ := status_fields b.lastCmd.bits b.cmdErr b.result.bits b.busy
  refine ⟨hbusy.trans ?_, hresult.trans ?_, herr.trans ?_, hlast.trans ?_, hrest⟩
  · by_cases hidle : b.phase = .idle
    · rw [if_pos hidle, busy_eq_false.mpr hidle]
      rfl
    · rw [if_neg hidle, busy_eq_true.mpr hidle]
      rfl
  · cases b.result <;> rfl
  · cases b.cmdErr <;> rfl
  · cases b.lastCmd <;> rfl

/-! ### The conditions of the faults (20_memory.md R47 to R49, 10_state.md R40) -/

theorem bitVec16_eq_iff_toNat (o : BitVec 16) (k : Nat) (hk : k < 2 ^ 16) : o = BitVec.ofNat 16 k ↔ o.toNat = k := by
  rw [← BitVec.toNat_inj, BitVec.toNat_ofNat, Nat.mod_eq_of_lt hk]

/-- The two accesses of 10_state.md R40. -/
theorem allowedWhileBusy_iff (o : BitVec 16) (n : Nat) (d : Direction) : allowedWhileBusy o n d = true ↔
    n = 4 ∧ ((d = .read ∧ o.toNat = 0x0004) ∨ (d = .write ∧ o.toNat = 0x0000)) := by
  have hstatus : o = 4#16 ↔ o.toNat = 0x0004 := bitVec16_eq_iff_toNat o 4 (by decide)
  have hcmd : o = 0#16 ↔ o.toNat = 0x0000 := bitVec16_eq_iff_toNat o 0 (by decide)
  cases d with
  | read => simp [allowedWhileBusy, hstatus, and_comm]
  | write => simp [allowedWhileBusy, hcmd, and_comm]

/-- The reserved and the unmapped offsets (20_memory.md R49). -/
theorem regionOf_eq_none_iff (o : BitVec 16) :
    regionOf o = .none ↔ (0x0020 ≤ o.toNat ∧ o.toNat ≤ 0x0FFF) ∨ 0x2800 ≤ o.toNat := by
  unfold regionOf
  split
  · simp; omega
  split
  · simp; omega
  split
  · simp; omega
  · simp; omega

/-- The widths of the two mapped parts (20_memory.md R47, R48). -/
theorem widthOk_eq_false_iff {o : BitVec 16} (n : Nat) (h : regionOf o ≠ .none) :
    widthOk (regionOf o) n = false ↔ if o.toNat < 0x0020 then n ≠ 4 else n ≠ 1 ∧ n ≠ 2 ∧ n ≠ 4 := by
  unfold regionOf at h ⊢
  split
  · simp [widthOk]
  split
  · next hreg hlow => simp [hreg, hlow] at h
  split
  · simp [widthOk]
  · next hreg hlow hhigh => simp [hreg, hlow, hhigh] at h

/-! ### The first fault (20_memory.md R51) -/

/-- An access that BUSY = 1 forbids (10_state.md R40). -/
def forbiddenWhileBusy (b : Block) (o : BitVec 16) (n : Nat) (d : Direction) : Prop :=
  b.phase ≠ .idle ∧ ¬ allowedWhileBusy o n d = true

theorem accessFault_busyAccess {b : Block} {o : BitVec 16} {n : Nat} {d : Direction} (h : forbiddenWhileBusy b o n d) :
    accessFault b o n d = some (.busyAccess o n d) := by
  obtain ⟨hbusy, hforbidden⟩ := h
  rw [accessFault, if_pos]
  simp [busy_eq_true.mpr hbusy, hforbidden]

/-- Once BUSY_ACCESS does not apply, the other three are tried. -/
theorem accessFault_of_not_busy {b : Block} {o : BitVec 16} {n : Nat} {d : Direction} (h : ¬ forbiddenWhileBusy b o n d) :
    accessFault b o n d =
      if regionOf o = .none then some (.busUnmapped o n d)
      else if !widthOk (regionOf o) n then some (.busWidth o n)
      else if o.toNat % n ≠ 0 then some (.busAlign o n)
      else none := by
  rw [accessFault, if_neg]
  intro hbusy
  rw [Bool.and_eq_true, busy_eq_true, Bool.not_eq_true', ← Bool.not_eq_true] at hbusy
  exact h hbusy

/-! ### What the host's operation does -/

/-- The host's access of this direction, at this offset and of this width. -/
def HostOp.accesses (op : HostOp) (o : BitVec 16) (n : Nat) (d : Direction) : Prop :=
  (op = .read o n ∧ d = .read) ∨ ((∃ v, op = .write o n v) ∧ d = .write)

/-- An access that meets a fault records it and does nothing else (60_exceptions.md R154). -/
theorem step_accessFault {s : State} {op : HostOp} {rest : List HostOp} {o : BitVec 16} {n : Nat} {d : Direction}
    {f : RecordedFault} (hflux : s.fluxIn = []) (hscript : s.script = op :: rest) (hop : op.accesses o n d)
    (hfault : accessFault s.block o n d = some f) : step s = .next { s with script := rest, faults := f :: s.faults } := by
  rw [step_script hflux hscript]
  obtain ⟨rfl, rfl⟩ | ⟨⟨v, rfl⟩, rfl⟩ := hop
  · simp only [scriptStep, hostRead, hfault]
    rfl
  · simp only [scriptStep, hostWrite, hfault]
    rfl

theorem step_read {s : State} {rest : List HostOp} {o : BitVec 16} {n : Nat} (hflux : s.fluxIn = [])
    (hscript : s.script = .read o n :: rest) (hlegal : accessFault s.block o n .read = none) :
    step s = .next (legalRead o n { s with script := rest }) := by
  rw [step_script hflux hscript]
  simp only [scriptStep, hostRead, hlegal]

theorem step_write {s : State} {rest : List HostOp} {o : BitVec 16} {n : Nat} {v : Word32} (hflux : s.fluxIn = [])
    (hscript : s.script = .write o n v :: rest) (hlegal : accessFault s.block o n .write = none) :
    step s = legalWrite o n v { s with script := rest } := by
  rw [step_script hflux hscript]
  simp only [scriptStep, hostWrite, hlegal]

/-! ### The registers (10_state.md R21 to R26) -/

theorem registerAt_offset {o : BitVec 16} {r : Register} (h : registerAt o = some r) :
    o.toNat < 0x20 ∧ o.toNat % 4 = 0 := by
  unfold registerAt at h
  repeat' split at h
  case isFalse => cases h
  all_goals next ho => rw [ho]; decide

/-- `SECBUF` has no register. -/
theorem registerAt_secbuf {o : BitVec 16} (h : 0x1000 ≤ o.toNat) : registerAt o = none := by
  cases hr : registerAt o with
  | none => rfl
  | some r =>
    obtain ⟨hlt, -⟩ := registerAt_offset hr
    omega

/-- A 32-bit access of a register raises no fault while IDLE. -/
theorem accessFault_register {b : Block} {o : BitVec 16} {r : Register} {d : Direction} (hr : registerAt o = some r)
    (hb : ¬ forbiddenWhileBusy b o 4 d) : accessFault b o 4 d = none := by
  obtain ⟨hlt, halign⟩ := registerAt_offset hr
  have hregion : regionOf o = .registers := if_pos hlt
  simp [accessFault_of_not_busy hb, hregion, widthOk, halign]

theorem not_forbiddenWhileBusy_of_idle {b : Block} (h : b.phase = .idle) (o : BitVec 16) (n : Nat) (d : Direction) :
    ¬ forbiddenWhileBusy b o n d := fun hf => hf.1 h

/-- The 32-bit read of `STATUS` is allowed at any time (10_state.md R40). -/
theorem not_forbiddenWhileBusy_status (b : Block) : ¬ forbiddenWhileBusy b 0x0004 4 .read :=
  fun hf => hf.2 ((allowedWhileBusy_iff _ _ _).mpr ⟨rfl, .inl ⟨rfl, rfl⟩⟩)

theorem step_register_read {s : State} {rest : List HostOp} {o : BitVec 16} {r : Register} (hflux : s.fluxIn = [])
    (hscript : s.script = .read o 4 :: rest) (hr : registerAt o = some r)
    (hb : ¬ forbiddenWhileBusy s.block o 4 .read) :
    step s = .next { s with script := rest, reads := ⟨o, 4, s.block.readRegister r⟩ :: s.reads } := by
  rw [step_read hflux hscript (accessFault_register hr hb), legalRead, hr]
  rfl

/-- A write of a register that issues no command. -/
theorem step_register_write {s : State} {rest : List HostOp} {o : BitVec 16} {r : Register} {v : Word32}
    (hflux : s.fluxIn = []) (hscript : s.script = .write o 4 v :: rest) (hr : registerAt o = some r) (hcmd : r ≠ .cmd)
    (hidle : s.block.phase = .idle) :
    step s = .next { s with script := rest, block := s.block.writeRegister r v } := by
  rw [step_write hflux hscript (accessFault_register hr (not_forbiddenWhileBusy_of_idle hidle _ _ _)), legalWrite, hr]
  cases r with
  | cmd => exact absurd rfl hcmd
  | status | validMask | dataBitoff | startPos | hdrSecsize | hdrNsec | hdrLen => rfl

/-- Settles O41: the register at the offset is read, `STATUS` also while busy. -/
theorem registerReads : Obligations.RegisterReads := by
  intro s rest o v hflux hscript hphase hvalue
  have hb : ¬ forbiddenWhileBusy s.block o 4 .read := by
    obtain hidle | rfl := hphase
    · exact not_forbiddenWhileBusy_of_idle hidle _ _ _
    · exact not_forbiddenWhileBusy_status _
  have key {r : Register} (hr : registerAt o = some r) := step_register_read hflux hscript hr hb
  obtain ⟨rfl, rfl⟩ | ⟨rfl, rfl⟩ | ⟨rfl, rfl⟩ | ⟨rfl, rfl⟩ | ⟨rfl, rfl⟩ | ⟨rfl, rfl⟩ | ⟨rfl, rfl⟩ | ⟨rfl, rfl⟩ := hvalue
  · exact key (r := .cmd) rfl
  · exact key (r := .status) rfl
  · exact key (r := .validMask) rfl
  · exact key (r := .dataBitoff) rfl
  · exact key (r := .startPos) rfl
  · exact key (r := .hdrSecsize) rfl
  · exact key (r := .hdrNsec) rfl
  · exact key (r := .hdrLen) rfl

/-- A 1 in bit 3 clears `CMDERR`. -/
theorem cmdErrAfterWrite_eq (err : Bool) (v : Word32) : cmdErrAfterWrite err v = if v.getLsbD 3 then false else err := by
  unfold cmdErrAfterWrite
  cases v.getLsbD 3 <;> simp

/-- Settles O42: the register at the offset is written. -/
theorem registerWrites : Obligations.RegisterWrites := by
  intro s rest o v hflux hscript hidle
  have key {r : Register} (hr : registerAt o = some r) (hcmd : r ≠ .cmd) :=
    step_register_write hflux hscript hr hcmd hidle
  refine ⟨?_, ?_, ?_, ?_, ?_⟩
  · rintro rfl
    rw [key (r := .status) rfl (by decide), Block.writeRegister, cmdErrAfterWrite_eq]
  · rintro rfl
    rw [key (r := .validMask) rfl (by decide), Block.writeRegister, BitVec.setWidth_eq_extractLsb' (by decide)]
  · rintro rfl
    exact key (r := .dataBitoff) rfl (by decide)
  · rintro rfl
    exact key (r := .startPos) rfl (by decide)
  · rintro (rfl | rfl | rfl)
    · exact key (r := .hdrSecsize) rfl (by decide)
    · exact key (r := .hdrNsec) rfl (by decide)
    · exact key (r := .hdrLen) rfl (by decide)

/-- Settles O53: while busy WAIT is a step of the block, while idle the read of `STATUS`. -/
theorem waitEndsWhenIdle : Obligations.WaitEndsWhenIdle := by
  intro s rest hflux hscript
  rw [step_script hflux hscript]
  refine ⟨fun hbusy => scriptStep_wait_busy hbusy rest, fun hidle => ?_⟩
  have hlegal : accessFault s.block 0x0004 4 .read = none :=
    accessFault_register (r := .status) rfl (not_forbiddenWhileBusy_status _)
  rw [scriptStep_wait_idle hidle]
  simp only [hostRead, hlegal]
  rfl

/-! ### Reads of `SECBUF` (20_memory.md R45, R50) -/

/-- The bits of a big-endian composition: byte `j / 8` counted from the last one holds bit `j`. -/
theorem bytesBE_getLsbD (vs : List Byte) {j : Nat} (hj : j < 32) :
    (bytesBE vs).getLsbD j = (vs.reverse[j / 8]?.getD 0).getLsbD (j % 8) := by
  induction vs using List.reverseRecOn generalizing j with
  | nil => simp [bytesBE]
  | append_singleton vs b ih =>
    have hsucc : bytesBE (vs ++ [b]) = (bytesBE vs <<< 8) ||| b.setWidth 32 := by simp [bytesBE]
    rw [hsucc, List.reverse_append, List.reverse_singleton, List.singleton_append, BitVec.getLsbD_or,
      BitVec.getLsbD_shiftLeft, BitVec.getLsbD_setWidth]
    by_cases hlow : j < 8
    · have hdiv : j / 8 = 0 := by omega
      have hmod : j % 8 = j := by omega
      simp [hlow, hj, hdiv, hmod]
    · have hdiv : j / 8 = (j - 8) / 8 + 1 := by omega
      have hmod : j % 8 = (j - 8) % 8 := by omega
      rw [hdiv, hmod, List.getElem?_cons_succ, ← ih (by omega), BitVec.getLsbD_of_ge b j (by omega)]
      simp [hlow, hj]

/-- The bytes of the composition are the bytes composed. -/
theorem extractLsb'_bytesBE {vs : List Byte} {i : Nat} (hlen : vs.length ≤ 4) (hi : i < vs.length) :
    (bytesBE vs).extractLsb' (8 * (vs.length - 1 - i)) 8 = vs[i] := by
  apply BitVec.eq_of_getLsbD_eq
  intro t ht
  have hdiv : (8 * (vs.length - 1 - i) + t) / 8 = vs.length - 1 - i := by omega
  have hmod : (8 * (vs.length - 1 - i) + t) % 8 = t := by omega
  have hindex : vs.length - 1 - (vs.length - 1 - i) = i := by omega
  have hrev : vs.reverse[vs.length - 1 - i]? = some vs[i] := by
    rw [List.getElem?_reverse (by omega), hindex, List.getElem?_eq_getElem hi]
  rw [BitVec.getLsbD_extractLsb', bytesBE_getLsbD vs (by omega), hdiv, hmod, hrev]
  simp [ht]

/-- Nothing stands above them. -/
theorem bytesBE_toNat_lt (vs : List Byte) : (bytesBE vs).toNat < 2 ^ (8 * vs.length) := by
  refine Nat.lt_pow_two_of_testBit _ fun j hj => ?_
  rw [BitVec.testBit_toNat]
  by_cases hlt : j < 32
  · rw [bytesBE_getLsbD vs hlt, List.getElem?_eq_none (by rw [List.length_reverse]; omega)]
    simp
  · exact BitVec.getLsbD_of_ge _ j (by omega)

/-- A read that meets an unwritten byte has no value. -/
theorem memRead_eq_none {m : Memory} {off n i : Nat} (hi : i < n) (h : memByte m (off + i) = none) :
    memRead m off n = none := by
  cases hrun : sparseRun m off n with
  | none => rw [memRead, hrun, Option.map_none]
  | some vs =>
    obtain ⟨hlen, hread⟩ := sparseRun_eq_some.mp hrun
    have hsome := (hread i hi).symm.trans h
    rw [List.getElem?_eq_getElem (by omega)] at hsome
    cases hsome

/-- A naturally aligned access inside `SECBUF` raises none of the first four faults while IDLE (20_memory.md R48). -/
theorem accessFault_secbuf {b : Block} {o : BitVec 16} {n : Nat} {d : Direction} (hidle : b.phase = .idle)
    (hlo : 0x1000 ≤ o.toNat) (hhi : o.toNat < 0x2800) (hn : n = 1 ∨ n = 2 ∨ n = 4) (halign : o.toNat % n = 0) :
    accessFault b o n d = none := by
  have hregion : regionOf o = .secbuf := by
    rw [regionOf, if_neg (by omega), if_neg (by omega), if_pos hhi]
  simp [accessFault_of_not_busy (not_forbiddenWhileBusy_of_idle hidle _ _ _), hregion, widthOk, hn, halign]

/-- A read whose bytes are all written returns them. -/
theorem legalRead_written {s : State} {o : BitVec 16} {n : Nat} {v : Word32} (hlo : 0x1000 ≤ o.toNat)
    (h : memRead s.block.secbuf (bufferOffset o) n = some v) : legalRead o n s = s.recordRead o n v := by
  simp only [legalRead, registerAt_secbuf hlo, h]

/-- A read that meets an unwritten byte raises UNINIT_READ (20_memory.md R50). -/
theorem legalRead_unwritten {s : State} {o : BitVec 16} {n : Nat} (hlo : 0x1000 ≤ o.toNat)
    (h : memRead s.block.secbuf (bufferOffset o) n = none) : legalRead o n s = s.raise (.uninitRead o n) := by
  simp only [legalRead, registerAt_secbuf hlo, h]

/-- Settles O39: the bytes read are a list whose composition has them as its bytes. -/
theorem secbufReadIsBigEndian : Obligations.SecbufReadIsBigEndian := by
  intro s rest o n f hflux hscript hidle hlo hhi hn halign hbytes
  have hlen : ((List.range n).map f).length = n := by simp
  have hread : memRead s.block.secbuf (bufferOffset o) n = some (bytesBE ((List.range n).map f)) := by
    have hall : ∀ k < ((List.range n).map f).length,
        memByte s.block.secbuf (bufferOffset o + k) = ((List.range n).map f)[k]? := by
      intro k hk
      rw [hlen] at hk
      have hbyte : memByte s.block.secbuf (bufferOffset o + k) = some (f k) := hbytes k hk
      rw [hbyte, List.getElem?_map, List.getElem?_range hk, Option.map_some]
    simpa only [hlen] using memRead_of_memByte hall
  refine ⟨bytesBE ((List.range n).map f), fun i hi => ?_, ?_, ?_⟩
  · have hbyte := extractLsb'_bytesBE (vs := (List.range n).map f) (i := i) (by omega) (by omega)
    simpa [hlen] using hbyte
  · simpa only [hlen] using bytesBE_toNat_lt ((List.range n).map f)
  · rw [step_read hflux hscript (accessFault_secbuf hidle hlo hhi hn halign),
      legalRead_written (s := { s with script := rest }) hlo hread]
    rfl

/-! ### Writes of `SECBUF` (20_memory.md R45, R50) -/

/-- Byte `i` of a value written with width `n`. -/
theorem byteBE_eq_extractLsb' (n i : Nat) (v : Word32) : byteBE n i v = v.extractLsb' (8 * (n - 1 - i)) 8 :=
  BitVec.setWidth_ushiftRight_eq_extractLsb

/-- Settles O40: the buffer is `memWrite` of the value. -/
theorem secbufWriteIsBigEndian : Obligations.SecbufWriteIsBigEndian := by
  intro s rest o n v hflux hscript hidle hlo hhi hn halign
  refine ⟨memWrite s.block.secbuf (bufferOffset o) n v, fun i hi => ?_, fun a ha => ?_, ?_⟩
  · have hindex : o.toNat - 0x1000 + i - bufferOffset o = i := Nat.add_sub_cancel_left _ i
    rw [memByte_memWrite, if_pos (by unfold bufferOffset; omega), byteBE_eq_extractLsb', hindex]
  · rw [memByte_memWrite, if_neg (by unfold bufferOffset; omega)]
  · rw [step_write hflux hscript (accessFault_secbuf hidle hlo hhi hn halign), legalWrite, registerAt_secbuf hlo]

/-! ### The order of the faults -/

/-- Settles O38: each of the first four conditions, when those before it fail, gives its fault; when all four fail, the read
of an unwritten byte of `SECBUF` gives UNINIT_READ. -/
theorem accessFaultsInOrder : Obligations.AccessFaultsInOrder := by
  intro s op rest o n d hflux hscript hop allowed busy unmapped width align uninit
  have hbusy : busy ↔ forbiddenWhileBusy s.block o n d := by rw [forbiddenWhileBusy, allowedWhileBusy_iff]
  have hunmapped : unmapped ↔ regionOf o = .none := (regionOf_eq_none_iff o).symm
  have hwidth (h : regionOf o ≠ .none) : width ↔ widthOk (regionOf o) n = false := (widthOk_eq_false_iff n h).symm
  have key {f : RecordedFault} (h : accessFault s.block o n d = some f) := step_accessFault hflux hscript hop h
  refine ⟨fun hb => key (accessFault_busyAccess (hbusy.mp hb)), fun hb hu => key ?_, fun hb hu hw => key ?_,
    fun hb hu hw ha => key ?_, fun hb hu hw ha hun => ?_⟩
  · rw [accessFault_of_not_busy (mt hbusy.mpr hb), if_pos (hunmapped.mp hu)]
  · have hmapped := mt hunmapped.mpr hu
    rw [accessFault_of_not_busy (mt hbusy.mpr hb), if_neg hmapped, (hwidth hmapped).mp hw]
    rfl
  · have hmapped := mt hunmapped.mpr hu
    rw [hwidth hmapped, Bool.not_eq_false] at hw
    rw [accessFault_of_not_busy (mt hbusy.mpr hb), if_neg hmapped, hw]
    exact if_pos ha
  · have hmapped := mt hunmapped.mpr hu
    rw [hwidth hmapped, Bool.not_eq_false] at hw
    obtain ⟨rfl, hlo, i, hi, hnone⟩ := hun
    have hlegal : accessFault s.block o n .read = none := by
      rw [accessFault_of_not_busy (mt hbusy.mpr hb), if_neg hmapped, hw]
      exact if_neg ha
    have hread : op = .read o n := by
      obtain ⟨hread, -⟩ | ⟨-, hdir⟩ := hop
      · exact hread
      · cases hdir
    rw [step_read hflux (hread ▸ hscript) hlegal,
      legalRead_unwritten (s := { s with script := rest }) hlo (memRead_eq_none hi hnone)]
    rfl

end Sys2Proof.Machine
end

section
/-! PROOFS about the invariant, from 10_state.md section 3, 41_sync_detector.md R96, 43_checksum_validator.md R118 and
45_flux_encoder.md R144: every move of every agent gives a next state with `State.Inv`. -/

namespace Sys2Proof.Machine

/-! ### What the invariant asks in each phase -/

theorem phaseInv_idle {t : Sentinel} {b : Block} (hp : b.phase = .idle) : b.phaseInv t := by
  rw [Block.phaseInv, hp]
  trivial

theorem phaseInv_scan {t : Sentinel} {b : Block} (hp : b.phase = .dScan) : b.phaseInv t ↔ b.decodeRunning t := by
  rw [Block.phaseInv, hp]

theorem phaseInv_confirm {t : Sentinel} {b : Block} (hp : b.phase = .dConfirm) :
    b.phaseInv t ↔ b.decodeRunning t ∧ b.candOff = b.pos - BitVec.ofNat 32 (16 + b.cnt) := by
  rw [Block.phaseInv, hp]

theorem phaseInv_demod {t : Sentinel} {b : Block} (hp : b.phase = .dDemod) :
    b.phaseInv t ↔ b.decodeRunning t ∧ b.wi < Config.tw ∧ b.new = 0 ∧ wordsWritten b.wb b.wi ∧
      b.candOff = b.pos - BitVec.ofNat 32 (48 + 32 * b.wi + b.cnt) := by
  rw [Block.phaseInv, hp]

theorem phaseInv_validate {t : Sentinel} {b : Block} (hp : b.phase = .dValidate) :
    b.phaseInv t ↔ b.decodeRunning t ∧ b.new = 0 ∧ wordsWritten b.wb Config.tw ∧
      b.candOff = b.pos - BitVec.ofNat 32 98544 := by
  rw [Block.phaseInv, hp]

theorem phaseInv_finish {t : Sentinel} {b : Block} (hp : b.phase = .dFinish) : b.phaseInv t ↔ b.decodeRunning t := by
  rw [Block.phaseInv, hp]

theorem phaseInv_emit {t : Sentinel} {b : Block} (hp : b.phase = .eEmit) :
    b.phaseInv t ↔ b.lastCmd = .encode ∧ allWritten b.secbuf = true ∧ b.ti < Config.txnCount ∧
      (1 ≤ b.ti → b.opos = b.eoff + BitVec.ofNat 32 (cellsBefore b.ti)) := by
  rw [Block.phaseInv, hp]

/-- In every phase of the decoder the DECODE is running as `decodeRunning` says. -/
theorem Block.Inv.decodeRunning {t : Sentinel} {b : Block} (h : b.Inv t) (hp : b.phase.decoding) : b.decodeRunning t := by
  have hphase := h.phase_inv
  obtain (hp | hp | hp) | hp | hp := (Phase.decoding_iff _).mp hp
  · exact (phaseInv_scan hp).mp hphase
  · exact ((phaseInv_confirm hp).mp hphase).1
  · exact ((phaseInv_demod hp).mp hphase).1
  · exact ((phaseInv_validate hp).mp hphase).1
  · exact (phaseInv_finish hp).mp hphase

/-! ### The commands and the idle block -/

/-- `CMDERR` is no part of the invariant. -/
theorem inv_cmdErr {t : Sentinel} {b : Block} (h : b.Inv t) (e : Bool) : Block.Inv t { b with cmdErr := e } :=
  ⟨h.secbuf_wf, h.wb_wf, h.fill_le, h.cnt_lt, h.wi_le, h.new_le, h.ti_le, h.header, h.phase_inv⟩

theorem inv_startDecode {t : Sentinel} {b : Block} (h : b.Inv t) : (b.startDecode t).Inv t where
  secbuf_wf := sentinelFill_wf t
  wb_wf := h.wb_wf
  fill_le := Nat.zero_le 16
  cnt_lt := Nat.zero_lt_succ 31
  wi_le := Nat.zero_le _
  new_le := Nat.zero_le _
  ti_le := h.ti_le
  header := .inl ⟨rfl, rfl, rfl⟩
  phase_inv := by
    refine (phaseInv_scan rfl).mpr ⟨rfl, ⟨rfl, rfl, rfl⟩, allWritten_sentinelFill t, fun i hi _ => ?_, fun _ => rfl⟩
    rw [Block.startDecode_secbuf, memByte_sentinelFill, if_pos hi]

theorem inv_startEncode {t : Sentinel} {b : Block} (h : b.Inv t) (hw : allWritten b.secbuf = true) : b.startEncode.Inv t where
  secbuf_wf := h.secbuf_wf
  wb_wf := h.wb_wf
  fill_le := h.fill_le
  cnt_lt := h.cnt_lt
  wi_le := h.wi_le
  new_le := h.new_le
  ti_le := Nat.zero_le _
  header := h.header
  phase_inv := (phaseInv_emit rfl).mpr ⟨rfl, hw, Nat.zero_lt_succ _, fun hti => absurd hti (Nat.not_succ_le_zero 0)⟩

/-- A register that takes a write while IDLE is no part of the invariant. -/
theorem inv_writeRegister {t : Sentinel} {b : Block} (h : b.Inv t) (hidle : b.phase = .idle) (r : Register) (v : Word32) :
    (b.writeRegister r v).Inv t := by
  have hwritten (err : Bool) (mask : BitVec 6) (off start : Word32) :
      Block.Inv t { b with cmdErr := err, validMask := mask, dataBitoff := off, startPos := start } :=
    ⟨h.secbuf_wf, h.wb_wf, h.fill_le, h.cnt_lt, h.wi_le, h.new_le, h.ti_le, h.header, phaseInv_idle hidle⟩
  cases r with
  | cmd | hdrSecsize | hdrNsec | hdrLen => exact h
  | status => exact hwritten _ b.validMask b.dataBitoff b.startPos
  | validMask => exact hwritten b.cmdErr _ b.dataBitoff b.startPos
  | dataBitoff => exact hwritten b.cmdErr b.validMask _ b.startPos
  | startPos => exact hwritten b.cmdErr b.validMask b.dataBitoff _

/-- So are the bytes of `SECBUF`, but for their canonical form. -/
theorem inv_memWrite {t : Sentinel} {b : Block} (h : b.Inv t) (hidle : b.phase = .idle) {off n : Nat} (v : Word32)
    (hin : off + n ≤ Config.bufLen) : Block.Inv t { b with secbuf := memWrite b.secbuf off n v } :=
  ⟨memWrite_wf v hin h.secbuf_wf, h.wb_wf, h.fill_le, h.cnt_lt, h.wi_le, h.new_le, h.ti_le, h.header, phaseInv_idle hidle⟩

/-- The block after reset. -/
theorem inv_reset (t : Sentinel) : Block.reset.Inv t :=
  ⟨reset_secbuf_wf, rfl, Nat.zero_le _, Nat.zero_lt_succ 31, Nat.zero_le _, Nat.zero_le _, Nat.zero_le _, .inl ⟨rfl, rfl, rfl⟩,
    phaseInv_idle rfl⟩

/-- Settles O46: the block after reset, and an empty flux port. -/
theorem resetSatisfiesInvariant : Obligations.ResetSatisfiesInvariant := ⟨inv_reset _, rfl⟩

/-! ### The reading phases -/

/-- A position that is `k` cells back is `k + 1` cells back from the next one. -/
theorem sub_ofNat_eq_succ (x : Word32) (k : Nat) : x - BitVec.ofNat 32 k = x + 1 - BitVec.ofNat 32 (k + 1) := by
  rw [BitVec.ofNat_add]
  bv_omega

/-- `EOS` leaves a running DECODE running. -/
theorem inv_eos {t : Sentinel} {b : Block} (h : b.Inv t) (hp : b.phase.decoding) :
    Block.Inv t { b with phase := .dFinish } :=
  ⟨h.secbuf_wf, h.wb_wf, h.fill_le, h.cnt_lt, h.wi_le, h.new_le, h.ti_le, h.header,
    (phaseInv_finish rfl).mpr (h.decodeRunning hp)⟩

/-- The candidate offset is the position of the first cell of the mark (41_sync_detector.md R96). -/
theorem inv_scanCell {t : Sentinel} {b : Block} (h : b.Inv t) (hp : b.phase = .dScan) (mark1 : Word16) (c : Bool) :
    (b.scanCell mark1 c).Inv t := by
  have hrun := (phaseInv_scan hp).mp h.phase_inv
  rw [Block.scanCell_eq]
  split
  · have hcand : b.pos - 15 = b.pos + 1 - BitVec.ofNat 32 (16 + 0) := sub_ofNat_eq_succ b.pos 15
    exact ⟨h.secbuf_wf, h.wb_wf, Nat.min_le_right _ _, Nat.zero_lt_succ 31, h.wi_le, h.new_le, h.ti_le, h.header,
      (phaseInv_confirm rfl).mpr ⟨hrun, hcand⟩⟩
  · exact ⟨h.secbuf_wf, h.wb_wf, Nat.min_le_right _ _, h.cnt_lt, h.wi_le, h.new_le, h.ti_le, h.header,
      (phaseInv_scan (b := b.takeCell c) hp).mpr hrun⟩

theorem inv_confirmCell {t : Sentinel} {b : Block} (h : b.Inv t) (hp : b.phase = .dConfirm) (mark2 : Word32) (c : Bool) :
    (b.confirmCell mark2 c).Inv t := by
  obtain ⟨hrun, hcand⟩ := (phaseInv_confirm hp).mp h.phase_inv
  have hnext : b.candOff = b.pos + 1 - BitVec.ofNat 32 (16 + (b.cnt + 1)) := hcand.trans (sub_ofNat_eq_succ _ _)
  have hcnt := h.cnt_lt
  rw [Block.confirmCell_eq]
  split
  · next hlast =>
    split
    · refine ⟨h.secbuf_wf, h.wb_wf, Nat.min_le_right _ _, Nat.zero_lt_succ 31, Nat.zero_le _, Nat.zero_le _, h.ti_le, h.header,
        (phaseInv_demod rfl).mpr ⟨hrun, Nat.zero_lt_succ _, rfl, fun i hi => absurd hi (Nat.not_lt_zero i), ?_⟩⟩
      rw [hlast] at hnext
      exact hnext
    · exact ⟨h.secbuf_wf, h.wb_wf, Nat.min_le_right _ _, Nat.zero_lt_succ 31, h.wi_le, h.new_le, h.ti_le, h.header,
        (phaseInv_scan rfl).mpr hrun⟩
  · next hinside =>
    have hlt : b.cnt + 1 < 32 := by omega
    exact ⟨h.secbuf_wf, h.wb_wf, Nat.min_le_right _ _, hlt, h.wi_le, h.new_le, h.ti_le, h.header,
      (phaseInv_confirm (b := { b.takeCell c with cnt := b.cnt + 1 }) hp).mpr ⟨hrun, hnext⟩⟩

/-- The next word of `WB` joins those read so far. -/
theorem wordsWritten_sparseWrite {wb : WordBuffer} {n : Nat} (h : wordsWritten wb n) (v : Word16) :
    wordsWritten (sparseWrite wb n v) (n + 1) := by
  intro i hi
  rw [sparseRead_sparseWrite]
  split
  · rfl
  · exact h i (by omega)

theorem inv_demodCell {t : Sentinel} {b : Block} (h : b.Inv t) (hp : b.phase = .dDemod) (c : Bool) :
    (b.demodCell c).Inv t := by
  obtain ⟨hrun, hwi, hnew, hwords, hcand⟩ := (phaseInv_demod hp).mp h.phase_inv
  have hnext : b.candOff = b.pos + 1 - BitVec.ofNat 32 (48 + 32 * b.wi + (b.cnt + 1)) := hcand.trans (sub_ofNat_eq_succ _ _)
  have hcnt := h.cnt_lt
  by_cases hlast : b.cnt + 1 = 32
  · have hwb := sparseWf_sparseWrite (demod (b.takeCell c).w) (Nat.zero_le _) hwi h.wb_wf
    have hwords' := wordsWritten_sparseWrite hwords (demod (b.takeCell c).w)
    rw [hlast] at hnext
    rw [Block.demodCell_of_cnt_eq hp hlast]
    refine ⟨h.secbuf_wf, hwb, Nat.min_le_right _ _, Nat.zero_lt_succ 31, hwi, h.new_le, h.ti_le, h.header, ?_⟩
    by_cases hend : b.wi + 1 = 3078
    · rw [hend] at hwords'
      refine (phaseInv_validate (if_pos hend)).mpr ⟨hrun, hnew, hwords', ?_⟩
      rw [show b.wi = 3077 by omega] at hnext
      exact hnext
    · refine (phaseInv_demod (if_neg hend)).mpr ⟨hrun, Nat.lt_of_le_of_ne hwi hend, hnew, hwords', ?_⟩
      rw [show 48 + 32 * b.wi + 32 = 48 + 32 * (b.wi + 1) + 0 by omega] at hnext
      exact hnext
  · have hlt : b.cnt + 1 < 32 := by omega
    rw [Block.demodCell_of_cnt_ne hlast]
    exact ⟨h.secbuf_wf, h.wb_wf, Nat.min_le_right _ _, hlt, h.wi_le, h.new_le, h.ti_le, h.header,
      (phaseInv_demod (b := { b.takeCell c with cnt := b.cnt + 1 }) hp).mpr ⟨hrun, hwi, hnew, hwords, hnext⟩⟩

theorem inv_cellStep {t : Sentinel} {b : Block} (h : b.Inv t) (hp : b.phase.reading) (p : Params) (c : Bool) :
    (b.cellStep p c).Inv t := by
  obtain hp | hp | hp := hp
  · rw [Block.cellStep_scan hp]
    exact inv_scanCell h hp _ c
  · rw [Block.cellStep_confirm hp]
    exact inv_confirmCell h hp _ c
  · rw [Block.cellStep_demod hp]
    exact inv_demodCell h hp c

/-! ### VALIDATE and FINISH -/

theorem Block.acceptSector_secbuf (b : Block) (s : Nat) :
    (b.acceptSector s).secbuf = writeSlot b.secbuf s (wbBody b.wb s) := by simp only [Block.acceptSector]

theorem Block.acceptSector_wb (b : Block) (s : Nat) : (b.acceptSector s).wb = b.wb := rfl

/-- The slots VALIDATE writes lie inside `SECBUF`. -/
theorem validateSector_wf {b b' : Block} {s : Nat} (hs : s < 6) (hwb : wordsWritten b.wb Config.tw)
    (hm : b.secbuf.wf = true) (h : b.validateSector s = .ok b') : b'.secbuf.wf = true ∧ b'.wb = b.wb := by
  have hin : Config.secBytes * s + 2 * (wbBody b.wb s).length ≤ Config.bufLen := by
    rw [wbBody_length]
    simp only [Config.secBytes, Config.bufLen]
    omega
  have hslot : Memory.wf (writeSlot b.secbuf s (wbBody b.wb s)) = true := writeSlot_wf hin hm
  rw [Block.validateSector_eq hs hwb] at h
  cases h
  split
  · rw [Block.acceptSector_secbuf, Block.acceptSector_wb]
    exact ⟨hslot, rfl⟩
  · exact ⟨hm, rfl⟩

theorem validateFrom_wf {b b' : Block} {s n : Nat} (hs : s + n ≤ 6) (hwb : wordsWritten b.wb Config.tw)
    (hm : b.secbuf.wf = true) (h : Block.validateFrom s n b = .ok b') : b'.secbuf.wf = true := by
  induction n generalizing s b with
  | zero =>
    cases h
    exact hm
  | succ n ih =>
    rw [Block.validateFrom] at h
    split at h
    · cases h
    · next b₁ hsector =>
      obtain ⟨hm₁, hwb₁⟩ := validateSector_wf (by omega) hwb hm hsector
      exact ih (by omega) (hwb₁ ▸ hwb) hm₁ h

theorem newlyValidCount_le (b : Block) (n : Nat) : newlyValidCount b n ≤ n :=
  (List.length_filter_le _ _).trans_eq (List.length_range ..)

/-- Once all six sectors are judged, a mask of 0 says that none was valid before and none has become so. -/
theorem judged_mask_eq_zero {b : Block} {m : Memory} (h : JudgedBelow b 6 0 m) :
    b.validMask = 0 ∧ newlyValidCount b 6 = 0 := by
  have hvalid (i : Nat) : validBit b.validMask i = false ∧ (i < 6 → newlyValid b i = false) := by
    simpa [validBit, or_iff_not_imp_left] using h.valid i
  refine ⟨BitVec.eq_of_getLsbD_eq fun i _ => by simpa [validBit] using (hvalid i).1, ?_⟩
  rw [newlyValidCount, List.filter_eq_nil_iff.mpr, List.length_nil]
  intro i hi
  rw [(hvalid i).2 (List.mem_range.mp hi)]
  exact Bool.false_ne_true

/-- The bytes of the judged buffer are written where those of the old one were. -/
theorem JudgedBelow.allWritten {b : Block} {n : Nat} {mask : BitVec 6} {m : Memory} (h : JudgedBelow b n mask m)
    (hw : allWritten b.secbuf = true) : allWritten m = true := by
  rw [allWritten_iff] at hw ⊢
  intro i hi
  rw [h.bytes i]
  split
  · rfl
  · exact hw i hi

/-- The slot of a sector that is still invalid has not been written (43_checksum_validator.md R118). -/
theorem JudgedBelow.sentinelSlots {t : Sentinel} {b : Block} {mask : BitVec 6} {m : Memory} (h : JudgedBelow b 6 mask m)
    (hs : b.sentinelSlots t) :
    ∀ i < Config.bufLen, validBit mask (i / Config.secBytes) = false → memByte m i = some (sentinelByte t i) := by
  intro i hi hmask
  have hlt : i / 1024 < 6 := by simp only [Config.bufLen] at hi; omega
  rw [h.valid, Bool.or_eq_false_iff, decide_eq_true hlt, Bool.true_and] at hmask
  obtain ⟨hold, hnew⟩ := hmask
  have hnew : newlyValid b (i / 1024) = false := hnew
  rw [h.bytes i, if_neg (by simp [hnew])]
  exact hs i hi hold

theorem inv_validateStep {s : State} (h : s.block.Inv s.params.sentinel) (hp : s.block.phase = .dValidate) :
    ∃ b, validateStep s = .next { s with block := b } ∧ b.Inv s.params.sentinel := by
  obtain ⟨hrun, hnew, hwords, -⟩ := (phaseInv_validate hp).mp h.phase_inv
  obtain ⟨hlast, hhdr, hwritten, hslots, hoff⟩ := hrun
  obtain ⟨mask, m, hstep, hjudged⟩ := validateStep_judged hwords
  obtain ⟨b', hfrom, hb'⟩ := validateStep_next hstep
  have hm : b'.secbuf = m := congrArg (·.block.secbuf) hb'.symm
  have hwf : Memory.wf m = true := hm ▸ validateFrom_wf (by decide) hwords h.secbuf_wf hfrom
  have hcount : s.block.new + newlyValidCount s.block 6 ≤ 6 := by
    rw [hnew, Nat.zero_add]
    exact newlyValidCount_le _ _
  have hrun' : (s.block.judged 6 mask m).endAttempt.decodeRunning s.params.sentinel := by
    refine ⟨hlast, hhdr, hjudged.allWritten hwritten, hjudged.sentinelSlots hslots, fun hmask => ?_⟩
    have hmask : mask = 0 := hmask
    subst hmask
    obtain ⟨hvalid, hnone⟩ := judged_mask_eq_zero hjudged
    rw [Block.endAttempt_dataBitoff, if_neg]
    · exact hoff hvalid
    · simp [Block.judged, hnew, hnone]
  refine ⟨_, hstep, hwf, h.wb_wf, h.fill_le, h.cnt_lt, h.wi_le, hcount, h.ti_le, h.header, ?_⟩
  by_cases hmask : mask = 0x3F
  · exact (phaseInv_finish (if_pos hmask)).mpr hrun'
  · exact (phaseInv_scan (if_neg hmask)).mpr hrun'

theorem inv_finish {t : Sentinel} {b : Block} (h : b.Inv t) : b.finish.Inv t := by
  by_cases hvalid : b.validMask = 0
  · rw [Block.finish_of_validMask_eq hvalid]
    exact ⟨h.secbuf_wf, h.wb_wf, h.fill_le, h.cnt_lt, h.wi_le, h.new_le, h.ti_le, h.header, phaseInv_idle rfl⟩
  · rw [Block.finish_of_validMask_ne hvalid]
    exact ⟨h.secbuf_wf, h.wb_wf, h.fill_le, h.cnt_lt, h.wi_le, h.new_le, h.ti_le, .inr ⟨rfl, rfl, rfl⟩, phaseInv_idle rfl⟩

/-! ### EMIT -/

/-- The cells of TXN `i` (44_remodulator.md R124). -/
theorem cellsBefore_succ {i : Nat} (hi : i < Config.txnCount) : cellsBefore (i + 1) =
    cellsBefore i + if i = 0 ∨ i = 6159 then 0 else if i = 2 then 32 else 16 := by
  simp only [Config.txnCount] at hi
  simp only [cellsBefore]
  split_ifs <;> omega

/-- Every TXN of the sequence is rendered, and leaves `OPOS` after the cells emitted so far (45_flux_encoder.md R144). -/
theorem renderTxn_txnAt {p : Params} {b : Block} {r : TxnRecord} {s : State} (hw : allWritten b.secbuf = true)
    {i : Nat} (hi : i < Config.txnCount) (htxn : txnAt p b i = .ok r)
    (hopos : 1 ≤ i → s.block.opos = b.eoff + BitVec.ofNat 32 (cellsBefore i)) :
    ∃ t, renderTxn r s = .next t ∧ t.block.opos = b.eoff + BitVec.ofNat 32 (cellsBefore (i + 1)) := by
  have hemit {r : TxnRecord} {t : State} {k : Nat} (hrender : renderTxn r s = .next t)
      (hcells : ∃ cells p f, cells.length = k ∧ t = rendered s cells p f) (hpos : 1 ≤ i)
      (hk : cellsBefore (i + 1) = cellsBefore i + k) :
      ∃ t, renderTxn r s = .next t ∧ t.block.opos = b.eoff + BitVec.ofNat 32 (cellsBefore (i + 1)) := by
    obtain ⟨cells, q, f, hlen, rfl⟩ := hcells
    refine ⟨_, hrender, ?_⟩
    rw [rendered_opos, hlen, hopos hpos, hk, BitVec.ofNat_add, BitVec.add_assoc]
  obtain ⟨r', htxn', hcases⟩ := txnAt_cases p hw hi
  cases htxn.symm.trans htxn'
  have hcells := cellsBefore_succ hi
  obtain ⟨rfl, rfl⟩ | ⟨rfl, rfl⟩ | ⟨rfl, rfl⟩ | ⟨hlo, hhi, v, -, rfl⟩ | ⟨rfl, rfl⟩ := hcases
  · exact ⟨_, renderTxn_setup _ _ s, (BitVec.add_zero _).symm⟩
  · exact hemit (renderTxn_emitRaw 16 _ _ s) (emitRawBits_cases _ _ 16 s) (by decide) hcells
  · exact hemit (renderTxn_emitRaw 32 _ _ s) (emitRawBits_cases _ _ 32 s) (by decide) hcells
  · have hplane : cellsBefore (i + 1) = cellsBefore i + 16 := by
      rw [hcells, if_neg (by omega), if_neg (by omega)]
    by_cases heven : (i - 3) % 2 = 0
    · rw [if_pos heven]
      exact hemit (renderTxn_emitEven 16 _ _ s) (emitPlaneBits_cases _ _ 1 8 s) (by omega) hplane
    · rw [if_neg heven]
      exact hemit (renderTxn_emitOdd 16 _ _ s) (emitPlaneBits_cases _ _ 0 8 s) (by omega) hplane
  · exact hemit (renderTxn_finalize s) ⟨[], s.block.prev, s.freeCount, rfl, by simp [rendered]⟩ (by decide) hcells

theorem inv_emitStep {s : State} (h : s.Inv) (hp : s.block.phase = .eEmit) : ∃ t, emitStep s = .next t ∧ t.Inv := by
  obtain ⟨hb, hflux⟩ := h
  obtain ⟨hlast, hwritten, hti, hopos⟩ := (phaseInv_emit hp).mp hb.phase_inv
  obtain ⟨l, hhold⟩ | ⟨f, htxn, -⟩ | ⟨r, l, htxn, hrendered⟩ := emitStep_cases s
  · exact ⟨_, hhold, hb, hflux⟩
  · obtain ⟨r, hok, -⟩ := txnAt_cases s.params hwritten hti
    cases htxn.symm.trans hok
  · obtain ⟨u, hrender, hpos⟩ :=
      renderTxn_txnAt (s := { s with sinkAnswers := l }.emitTxn r) hwritten hti htxn hopos
    obtain ⟨e, hrefused, -⟩ | ⟨u', hrender', hnext⟩ := hrendered
    · cases hrender.symm.trans hrefused
    cases hrender.symm.trans hrender'
    obtain ⟨cells, opos, prev, free, rfl⟩ := renderTxn_frame hrender
    refine ⟨_, hnext, ?_, hflux⟩
    rw [Block.advanceTxn_eq]
    refine ⟨hb.secbuf_wf, hb.wb_wf, hb.fill_le, hb.cnt_lt, hb.wi_le, hb.new_le, hti, hb.header, ?_⟩
    by_cases hend : s.block.ti + 1 = 6160
    · exact phaseInv_idle (if_pos hend)
    · exact (phaseInv_emit ((if_neg hend).trans hp)).mpr ⟨hlast, hwritten, Nat.lt_of_le_of_ne hti hend, fun _ => hpos⟩

/-! ### The agents -/

theorem inv_blockStep {s : State} (h : s.Inv) : ∃ t, blockStep s = .next t ∧ t.Inv := by
  have hb := h.1
  by_cases hidle : s.block.phase = .idle
  · exact ⟨s, blockStep_idle hidle, h⟩
  by_cases hemit : s.block.phase = .eEmit
  · rw [blockStep_emit hemit]
    exact inv_emitStep h hemit
  have hdec : s.block.phase.decoding := ⟨hidle, hemit⟩
  obtain hread | hvalidate | hfinish := (Phase.decoding_iff _).mp hdec
  · obtain ⟨hl, -⟩ | ⟨c, rest, hl, -⟩ | ⟨rest, hl, -⟩ | ⟨rest, hl, -⟩ := readCell_cases s
    · exact ⟨_, blockStep_eos hread hl, inv_eos hb hdec, h.2⟩
    · exact ⟨_, blockStep_cell hread hl, inv_cellStep hb hread _ c, h.2⟩
    · exact ⟨_, blockStep_notReady hread hl, h⟩
    · exact ⟨s, blockStep_never hread hl, h⟩
  · obtain ⟨b, hstep, hb'⟩ := inv_validateStep hb hvalidate
    exact ⟨_, (blockStep_validate hvalidate).trans hstep, hb', h.2⟩
  · exact ⟨_, blockStep_finish hfinish, inv_finish hb, h.2⟩

/-- A read changes nothing that the invariant speaks of. -/
theorem inv_hostRead {s : State} (h : s.Inv) (o : BitVec 16) (n : Nat) : (hostRead o n s).Inv := by
  obtain ⟨v, hv⟩ | ⟨f, hf⟩ := hostRead_cases o n s
  · rw [hv]
    exact h
  · rw [hf]
    exact h

theorem inv_command {s : State} (h : s.Inv) {w : Word32} {i : Instr} (hi : decodeCommand w = .ok i) :
    ∃ t, exec i s = .next t ∧ t.Inv := by
  obtain ⟨hb, hflux⟩ := h
  obtain ⟨-, hexec⟩ | ⟨-, -, hexec⟩ | ⟨-, -, hexec⟩ | ⟨-, -, off, -, hexec⟩ | ⟨-, -, hwritten, hexec⟩ :=
    decodeCommand_exec_cases hi s
  · exact ⟨_, hexec, inv_cmdErr hb true, hflux⟩
  · exact ⟨_, hexec, hb, hflux⟩
  · exact ⟨_, hexec, inv_startDecode hb, hflux⟩
  · exact ⟨_, hexec, hb, hflux⟩
  · exact ⟨_, hexec, inv_startEncode hb (Option.isNone_iff_eq_none.mpr hwritten), hflux⟩

theorem inv_hostWrite {s : State} (h : s.Inv) (o : BitVec 16) (n : Nat) (v : Word32) :
    ∃ t, hostWrite o n v s = .next t ∧ t.Inv := by
  obtain ⟨f, hf⟩ | ⟨i, hi, hexec⟩ | hdrop | ⟨hidle, r, hreg⟩ | ⟨hidle, hin, hbuf⟩ := hostWrite_cases o n v s
  · exact ⟨_, hf, h⟩
  · rw [hexec]
    exact inv_command h hi
  · exact ⟨_, hdrop, inv_cmdErr h.1 true, h.2⟩
  · exact ⟨_, hreg, inv_writeRegister h.1 hidle r v, h.2⟩
  · exact ⟨_, hbuf, inv_memWrite h.1 hidle v hin, h.2⟩

theorem inv_scriptStep {s : State} (h : s.Inv) (op : HostOp) (rest : List HostOp) :
    ∃ t, scriptStep op rest s = .next t ∧ t.Inv := by
  have hrest : State.Inv { s with script := rest } := h
  cases op with
  | read o n => exact ⟨_, rfl, inv_hostRead hrest o n⟩
  | write o n v => exact inv_hostWrite hrest o n v
  | stream answers => exact ⟨_, rfl, h⟩
  | wait =>
    by_cases hidle : s.block.phase = .idle
    · exact ⟨_, scriptStep_wait_idle hidle rest, inv_hostRead hrest _ _⟩
    · rw [scriptStep_wait_busy hidle]
      exact inv_blockStep h
  | run => exact inv_blockStep hrest
  | reset => exact ⟨_, rfl, inv_reset _, h.2⟩

/-- Settles O47, by the agent that moves; no record stands at the flux port. -/
theorem stepKeepsInvariant : Obligations.StepKeepsInvariant := by
  intro s h
  obtain ⟨r, rest, hflux, -⟩ | ⟨-, op, rest, -, hstep⟩ | ⟨-, hstep⟩ := step_agent_cases s
  · cases h.2.symm.trans hflux
  · rw [hstep]
    exact inv_scriptStep h op rest
  · rw [hstep]
    exact inv_blockStep h

/-! ### Inverted checksums (43_checksum_validator.md) -/

/-- Over sectors of which none is newly valid VALIDATE changes nothing. -/
theorem validateFrom_of_none {b : Block} {s n : Nat} (hs : s + n ≤ 6) (hwb : wordsWritten b.wb Config.tw)
    (h : ∀ k < 6, newlyValid b k = false) : Block.validateFrom s n b = .ok b := by
  induction n generalizing s with
  | zero => rfl
  | succ n ih =>
    have hsector : b.validateSector s = .ok b := by
      rw [Block.validateSector_eq (by omega) hwb, if_neg (by rw [h s (by omega)]; exact Bool.false_ne_true)]
    rw [Block.validateFrom, hsector]
    exact ih (by omega)

/-- Settles O31: an inverted checksum word makes no sector newly valid, so VALIDATE leaves the block as it was. -/
theorem invertedChecksumsNeverValidate : Obligations.InvertedChecksumsNeverValidate := by
  intro s hq hp hwords hinverted
  have hnone : ∀ k < 6, newlyValid s.block k = false := by
    intro k hk
    rw [← Bool.not_eq_true, newlyValid_eq_true]
    rintro ⟨hinvalid, hsum⟩
    exact BitVec.ne_not_self (by decide) (hsum.trans (hinverted k hk hinvalid))
  have hfrom : Block.validateFrom 0 Config.nsec s.block = .ok s.block := validateFrom_of_none (by decide) hwords hnone
  rw [step_validate hq hp, validateStep, hfrom]
  rfl

end Sys2Proof.Machine
end

section
/-! PROOFS about the run of a DECODE, from 40_commands.md, 43_checksum_validator.md and 20_memory.md R59: it ends when the source
answers, and its block does not depend on how long the source held it. -/

namespace Sys2Proof.Machine

/-! ### Runs -/

/-- `k` steps lead from `s` to `t`. -/
def Runs (k : Nat) (s t : State) : Prop := Host.Core.run Sys2Proof.core k s = .next t

theorem Runs.zero (s : State) : Runs 0 s s := rfl

theorem core_run_succ_iff (M : Host.Core) {k : Nat} {s t : M.State} :
    M.run (k + 1) s = .next t ↔ ∃ u, M.step s = .next u ∧ M.run k u = .next t := by
  rw [Host.Core.run]
  constructor
  · intro h
    split at h
    · next u hu => exact ⟨u, hu, h⟩
    · cases h
    · cases h
  · rintro ⟨u, hu, h⟩
    rw [hu]
    exact h

/-- A run of `k + 1` steps is a step and a run of `k`. -/
theorem runs_succ_iff {k : Nat} {s t : State} : Runs (k + 1) s t ↔ ∃ u, step s = .next u ∧ Runs k u t :=
  core_run_succ_iff Sys2Proof.core

theorem Runs.step {s t : State} (h : step s = .next t) : Runs 1 s t := runs_succ_iff.mpr ⟨t, h, .zero t⟩

theorem Runs.trans {j k : Nat} {s t u : State} (h : Runs j s t) (h' : Runs k t u) : Runs (j + k) s u := by
  induction j generalizing s with
  | zero =>
    cases h
    rwa [Nat.zero_add]
  | succ j ih =>
    obtain ⟨s₁, hstep, hrest⟩ := runs_succ_iff.mp h
    rw [Nat.add_right_comm]
    exact runs_succ_iff.mpr ⟨s₁, hstep, ih hrest⟩

/-! ### The phases of a DECODE (10_state.md R33) -/

theorem Phase.reading.decoding {p : Phase} (h : p.reading) : p.decoding := (Phase.decoding_iff p).mpr (.inl h)

/-- After a cell the block reads on, or validates the attempt. -/
theorem cellStep_phase {b : Block} (hp : b.phase.reading) (p : Params) (c : Bool) :
    (b.cellStep p c).phase.reading ∨ (b.cellStep p c).phase = .dValidate := by
  obtain hp | hp | hp := hp
  · rw [Block.cellStep_scan hp, Block.scanCell_eq]
    split
    · exact .inl (.inr (.inl rfl))
    · exact .inl (.inl hp)
  · rw [Block.cellStep_confirm hp, Block.confirmCell_eq]
    split
    · split
      · exact .inl (.inr (.inr rfl))
      · exact .inl (.inl rfl)
    · exact .inl (.inr (.inl hp))
  · rw [Block.cellStep_demod hp]
    by_cases hcnt : b.cnt + 1 = 32
    · rw [Block.demodCell_of_cnt_eq hp hcnt]
      by_cases hend : b.wi + 1 = 3078
      · exact .inr (if_pos hend)
      · exact .inl (.inr (.inr (if_neg hend)))
    · rw [Block.demodCell_of_cnt_ne hcnt]
      exact .inl (.inr (.inr hp))

/-- After an attempt the block scans on, or finishes (41_sync_detector.md R100). -/
theorem endAttempt_phase (b : Block) : b.endAttempt.phase = .dScan ∨ b.endAttempt.phase = .dFinish := by
  rw [Block.endAttempt_phase]
  split
  · exact .inr rfl
  · exact .inl rfl

theorem finish_phase (b : Block) : b.finish.phase = .idle := by
  unfold Block.finish
  split <;> rfl

/-! ### Progress (70_reset_and_hazards.md section 4) -/

/-- The most steps that a DECODE in phase `p` can still take with `n` answers left: each answer may be followed by one
VALIDATE, and at the end come `EOS` and FINISH. -/
def decodeBound (p : Phase) (n : Nat) : Nat :=
  match p with
  | .idle => 0
  | .dFinish => 1
  | .dValidate => 2 * n + 3
  | _ => 2 * n + 2

theorem decodeBound_reading {p : Phase} (h : p.reading) (n : Nat) : decodeBound p n = 2 * n + 2 := by
  obtain rfl | rfl | rfl := h <;> rfl

theorem decodeBound_le (p : Phase) (n : Nat) : decodeBound p n ≤ 2 * n + 3 := by
  cases p <;> simp [decodeBound]

/-- How a DECODE has ended: OK with a valid sector, or NODATA with nothing but the sentinel (43_checksum_validator.md R121,
R122). -/
def DecodeEnded (t : Sentinel) (b : Block) : Prop :=
  b.phase = .idle ∧
    ((b.result = .ok ∧ b.validMask ≠ 0 ∧ b.hdrSecsize = 1024 ∧ b.hdrNsec = 6 ∧ b.hdrLen = 6144) ∨
      (b.result = .noData ∧ b.validMask = 0 ∧ b.dataBitoff = 0 ∧ b.hdrSecsize = 0 ∧ b.hdrNsec = 0 ∧ b.hdrLen = 0 ∧
        ∀ i < 6144, memByte b.secbuf i = some (sentinelByte t i)))

/-- FINISH ends a running DECODE so. -/
theorem decodeEnded_finish {t : Sentinel} {b : Block} (h : b.decodeRunning t) : DecodeEnded t b.finish := by
  obtain ⟨-, ⟨hsize, hnsec, hlen⟩, -, hslots, hoff⟩ := h
  refine ⟨finish_phase b, ?_⟩
  by_cases hvalid : b.validMask = 0
  · rw [Block.finish_of_validMask_eq hvalid]
    refine .inr ⟨rfl, hvalid, hoff hvalid, hsize, hnsec, hlen, fun i hi => hslots i hi ?_⟩
    rw [hvalid]
    exact BitVec.getLsbD_zero
  · rw [Block.finish_of_validMask_ne hvalid]
    exact .inl ⟨rfl, hvalid, rfl, rfl, rfl⟩

/-- A DECODE that goes on: still with the invariant and a source that answers, and with fewer steps left. -/
structure DecodeGoesOn (s t : State) : Prop where
  inv : t.Inv
  quiet : t.quiet
  decoding : t.block.phase.decoding
  answers : SourceAnswers t.stream
  params : t.params = s.params
  less : decodeBound t.block.phase t.stream.length < decodeBound s.block.phase s.stream.length

/-- A step of a DECODE whose source answers goes on or, from D_FINISH, ends it. -/
theorem blockStep_decode_progress {s : State} (h : s.Inv) (hq : s.quiet) (hp : s.block.phase.decoding)
    (ha : SourceAnswers s.stream) :
    ∃ t, blockStep s = .next t ∧ (DecodeGoesOn s t ∨ (t.params = s.params ∧ DecodeEnded s.params.sentinel t.block)) := by
  obtain ⟨hb, hflux⟩ := h
  obtain hread | hvalidate | hfinish := (Phase.decoding_iff _).mp hp
  · have hbound := decodeBound_reading hread s.stream.length
    obtain ⟨hl, -⟩ | ⟨c, rest, hl, -⟩ | ⟨rest, hl, -⟩ | ⟨rest, hl, -⟩ := readCell_cases s
    · refine ⟨_, blockStep_eos hread hl, .inl ⟨⟨inv_eos hb hp, hflux⟩, hq, ⟨nofun, nofun⟩, ha, rfl, ?_⟩⟩
      rw [hbound]
      exact Nat.succ_lt_succ (Nat.zero_lt_succ _)
    · refine ⟨_, blockStep_cell hread hl, .inl ⟨⟨inv_cellStep hb hread _ c, hflux⟩, hq, ?_, fun hn => ha ?_, rfl, ?_⟩⟩
      · exact (Phase.decoding_iff _).mpr ((cellStep_phase hread s.params c).imp_right .inl)
      · rw [hl]
        exact List.mem_cons_of_mem _ hn
      · rw [hbound, hl, List.length_cons]
        exact Nat.lt_of_le_of_lt (decodeBound_le _ rest.length) (by omega)
    · refine ⟨_, blockStep_notReady hread hl, .inl ⟨⟨hb, hflux⟩, hq, hp, fun hn => ha ?_, rfl, ?_⟩⟩
      · rw [hl]
        exact List.mem_cons_of_mem _ hn
      · rw [hbound, hl, List.length_cons]
        exact Nat.lt_of_le_of_lt (decodeBound_le _ rest.length) (by omega)
    · exact absurd (hl ▸ List.mem_cons_self) ha
  · obtain ⟨b, hstep, hb'⟩ := inv_validateStep hb hvalidate
    obtain ⟨b₁, -, heq⟩ := validateStep_next hstep
    cases heq
    refine ⟨_, (blockStep_validate hvalidate).trans hstep, .inl ⟨⟨hb', hflux⟩, hq, ?_, ha, rfl, ?_⟩⟩
    · obtain hscan | hend := endAttempt_phase b₁
      · exact (Phase.decoding_iff _).mpr (.inl (.inl hscan))
      · exact (Phase.decoding_iff _).mpr (.inr (.inr hend))
    · obtain hscan | hend := endAttempt_phase b₁
      · simp only [hvalidate, hscan, decodeBound]
        omega
      · simp only [hvalidate, hend, decodeBound]
        omega
  · exact ⟨_, blockStep_finish hfinish, .inr ⟨rfl, decodeEnded_finish (hb.decodeRunning hp)⟩⟩

/-- A DECODE whose source answers ends within the bound of its phase. -/
theorem decode_runs_to_end {n : Nat} {s : State} (h : s.Inv) (hq : s.quiet) (hp : s.block.phase.decoding)
    (ha : SourceAnswers s.stream) (hn : decodeBound s.block.phase s.stream.length ≤ n) :
    ∃ k t, k ≤ n ∧ Runs k s t ∧ DecodeEnded s.params.sentinel t.block := by
  induction n generalizing s with
  | zero =>
    obtain hread | hvalidate | hfinish := (Phase.decoding_iff _).mp hp
    · rw [decodeBound_reading hread] at hn
      omega
    · rw [hvalidate] at hn
      cases hn
    · rw [hfinish] at hn
      cases hn
  | succ n ih =>
    obtain ⟨u, hstep, hon | ⟨-, hended⟩⟩ := blockStep_decode_progress h hq hp ha
    · have hless := hon.less
      obtain ⟨k, t, hk, hrun, hended⟩ := ih hon.inv hon.quiet hon.decoding hon.answers (by omega)
      rw [hon.params] at hended
      exact ⟨k + 1, t, by omega, runs_succ_iff.mpr ⟨u, (step_quiet hq).trans hstep, hrun⟩, hended⟩
    · exact ⟨1, u, by omega, .step ((step_quiet hq).trans hstep), hended⟩

/-- Settles O48: the bound of any phase is at most twice the answers and 3. -/
theorem decodeRunEnds : Obligations.DecodeRunEnds := by
  intro s h hq hp ha
  obtain ⟨k, t, hk, hrun, hidle, hresult⟩ := decode_runs_to_end h hq hp ha (decodeBound_le _ _)
  exact ⟨k, t, hk, hrun, hidle, hresult⟩

/-! ### Holds (20_memory.md R59) -/

/-- The same state, its source never holding the block. -/
def State.unheld (s : State) : State := { s with stream := withoutHolds s.stream }

theorem withoutHolds_cell (c : Bool) (rest : List SourceAnswer) :
    withoutHolds (.cell c :: rest) = .cell c :: withoutHolds rest := List.filter_cons_of_pos (by simp)

theorem withoutHolds_notReady (rest : List SourceAnswer) : withoutHolds (.notReady :: rest) = withoutHolds rest :=
  List.filter_cons_of_neg (by simp)

/-- A step that is not a hold is taken without the holds too; a hold is no step without them. -/
theorem blockStep_unheld {s t : State} (hp : s.block.phase ≠ .eEmit) (h : blockStep s = .next t) :
    t.block.phase ≠ .eEmit ∧ (blockStep s.unheld = .next t.unheld ∨ t.unheld = s.unheld) := by
  by_cases hidle : s.block.phase = .idle
  · cases (blockStep_idle hidle).symm.trans h
    exact ⟨hp, .inr rfl⟩
  obtain hread | hvalidate | hfinish := (Phase.decoding_iff _).mp ⟨hidle, hp⟩
  · have hread' : s.unheld.block.phase.reading := hread
    obtain ⟨hl, -⟩ | ⟨c, rest, hl, -⟩ | ⟨rest, hl, -⟩ | ⟨rest, hl, -⟩ := readCell_cases s
    · cases (blockStep_eos hread hl).symm.trans h
      have hl' : s.unheld.stream = [] := congrArg withoutHolds hl
      exact ⟨nofun, .inl (blockStep_eos hread' hl')⟩
    · cases (blockStep_cell hread hl).symm.trans h
      have hl' : s.unheld.stream = .cell c :: withoutHolds rest := (congrArg withoutHolds hl).trans (withoutHolds_cell c rest)
      refine ⟨?_, .inl (blockStep_cell hread' hl')⟩
      exact ((Phase.decoding_iff _).mpr ((cellStep_phase hread s.params c).imp_right .inl)).2
    · cases (blockStep_notReady hread hl).symm.trans h
      have hl' : s.unheld.stream = withoutHolds rest := (congrArg withoutHolds hl).trans (withoutHolds_notReady rest)
      refine ⟨hp, .inr ?_⟩
      rw [State.unheld, ← hl']
      rfl
    · cases (blockStep_never hread hl).symm.trans h
      exact ⟨hp, .inr rfl⟩
  · rw [blockStep_validate hvalidate] at h
    obtain ⟨b, hfrom, rfl⟩ := validateStep_next h
    refine ⟨?_, .inl ?_⟩
    · obtain hscan | hend := endAttempt_phase b
      · exact fun he => nomatch hscan.symm.trans he
      · exact fun he => nomatch hend.symm.trans he
    · rw [blockStep_validate (s := s.unheld) hvalidate, validateStep]
      have hfrom' : Block.validateFrom 0 Config.nsec s.unheld.block = .ok b := hfrom
      rw [hfrom']
      rfl
  · cases (blockStep_finish hfinish).symm.trans h
    exact ⟨(fun he => nomatch (finish_phase s.block).symm.trans he), .inl (blockStep_finish (s := s.unheld) hfinish)⟩

/-- A run without the holds follows the one with them. -/
theorem runs_unheld {k : Nat} {s t : State} (hq : s.quiet) (hp : s.block.phase ≠ .eEmit) (h : Runs k s t) :
    ∃ k' ≤ k, Runs k' s.unheld t.unheld := by
  induction k generalizing s with
  | zero =>
    cases h
    exact ⟨0, Nat.le_refl 0, .zero _⟩
  | succ k ih =>
    obtain ⟨u, hstep, hrest⟩ := runs_succ_iff.mp h
    rw [step_quiet hq] at hstep
    obtain ⟨hpu, hu⟩ := blockStep_unheld hp hstep
    have hqu : u.quiet := by
      by_cases hidle : s.block.phase = .idle
      · cases (blockStep_idle hidle).symm.trans hstep
        exact hq
      · obtain ⟨l, b, rfl, -⟩ := blockStep_decoding_frame ⟨hidle, hp⟩ hstep
        exact hq
    obtain ⟨k', hk', hrun⟩ := ih hqu hpu hrest
    obtain hmove | hhold := hu
    · exact ⟨k' + 1, by omega, runs_succ_iff.mpr ⟨_, (step_quiet (s := s.unheld) hq).trans hmove, hrun⟩⟩
    · exact ⟨k', by omega, hhold ▸ hrun⟩

/-- Settles O44: the run without the holds ends in the same state but for the stream. -/
theorem holdsDoNotChangeResult : Obligations.HoldsDoNotChangeResult := by
  intro s t k hq hp hrun _
  obtain ⟨k', hk', hrun'⟩ := runs_unheld hq hp.2 hrun
  exact ⟨k', t.unheld, hk', hrun', rfl⟩

end Sys2Proof.Machine
end

section
/-! PROOFS about cells, from 45_flux_encoder.md (cell-level properties) and 42_demodulator.md (demodulation function, plane
split): the clock cells between data cells, the cells of every EMIT for every `NBITS`, and the word a group of cells carries. -/

namespace Sys2Proof.Machine

/-! ### Words and planes (42_demodulator.md R104, R108) -/

/-- A word is its odd and its even bits. -/
theorem word_ext {v w : Word16}
    (h : ∀ k < 8, v.getLsbD (2 * k + 1) = w.getLsbD (2 * k + 1) ∧ v.getLsbD (2 * k) = w.getLsbD (2 * k)) : v = w := by
  refine BitVec.eq_of_getLsbD_eq fun i hi => ?_
  obtain ⟨hodd, heven⟩ := h (i / 2) (by omega)
  obtain hparity | hparity := Nat.mod_two_eq_zero_or_one i
  · rwa [show 2 * (i / 2) = i by omega] at heven
  · rwa [show 2 * (i / 2) + 1 = i by omega] at hodd

/-- The word a group demodulates to, by the data cells of its halves. -/
theorem demod_eq_of_dataCells {g : Word32} {w : Word16}
    (h : ∀ k < 8, g.getLsbD (16 + 2 * k) = w.getLsbD (2 * k + 1) ∧ g.getLsbD (2 * k) = w.getLsbD (2 * k)) : demod g = w := by
  refine word_ext fun k hk => ?_
  obtain ⟨heven, hodd⟩ := h k hk
  exact ⟨(demod_getLsbD_odd g hk).trans heven, (demod_getLsbD_even g hk).trans hodd⟩

theorem oddPlane_getLsbD (w : Word16) {k : Nat} (hk : k < 8) : (oddPlane w).getLsbD k = w.getLsbD (2 * k) := by
  interval_cases k <;> simp [oddPlane, byteOfBits]

theorem evenPlane_getLsbD (w : Word16) {k : Nat} (hk : k < 8) : (evenPlane w).getLsbD k = w.getLsbD (2 * k + 1) := by
  interval_cases k <;> simp [evenPlane, byteOfBits]

/-- The data cells of the even-plane half are at the group's even positions from 16 on. -/
theorem dataCells_evenHalf_getLsbD (g : Word32) {k : Nat} (hk : k < 8) :
    (dataCells (evenHalf g)).getLsbD k = g.getLsbD (16 + 2 * k) := by
  rw [dataCells, oddPlane_getLsbD _ hk, evenHalf, BitVec.getLsbD_extractLsb', decide_eq_true (by omega : 2 * k < 16),
    Bool.true_and]

theorem dataCells_oddHalf_getLsbD (g : Word32) {k : Nat} (hk : k < 8) :
    (dataCells (oddHalf g)).getLsbD k = g.getLsbD (2 * k) := by
  rw [dataCells, oddPlane_getLsbD _ hk, oddHalf, BitVec.getLsbD_extractLsb', decide_eq_true (by omega : 2 * k < 16),
    Bool.true_and, Nat.zero_add]

/-- Settles O25: both directions bit by bit of the planes. -/
theorem planesAreRecovered : Obligations.PlanesAreRecovered := by
  refine ⟨fun g => ⟨BitVec.eq_of_getLsbD_eq fun k hk => ?_, BitVec.eq_of_getLsbD_eq fun k hk => ?_⟩,
    fun g w heven hodd => demod_eq_of_dataCells fun k hk => ⟨?_, ?_⟩⟩
  · rw [evenPlane_getLsbD _ hk, demod_getLsbD_odd g hk, dataCells_evenHalf_getLsbD g hk]
  · rw [oddPlane_getLsbD _ hk, demod_getLsbD_even g hk, dataCells_oddHalf_getLsbD g hk]
  · rw [← dataCells_evenHalf_getLsbD g hk, heven, evenPlane_getLsbD w hk]
  · rw [← dataCells_oddHalf_getLsbD g hk, hodd, oddPlane_getLsbD w hk]

/-! ### Clock cells (45_flux_encoder.md R143) -/

/-- Cell `j` of a plane whose data bits in the order of time are `d 0`, `d 1`, … after a cell `prev`: each data bit after its
clock cell. -/
def clocked (prev : Bool) (d : Nat → Bool) (j : Nat) : Bool :=
  if j % 2 = 1 then d (j / 2) else clockCell (if j = 0 then prev else d (j / 2 - 1)) (d (j / 2))

theorem clocked_data (prev : Bool) (d : Nat → Bool) (i : Nat) : clocked prev d (2 * i + 1) = d i := by
  rw [clocked, if_pos (by omega), show (2 * i + 1) / 2 = i by omega]

theorem clocked_first (prev : Bool) (d : Nat → Bool) : clocked prev d 0 = clockCell prev (d 0) := rfl

theorem clocked_clock (prev : Bool) (d : Nat → Bool) (i : Nat) :
    clocked prev d (2 * i + 2) = clockCell (d i) (d (i + 1)) := by
  rw [clocked, if_neg (by omega), if_neg (by omega), show (2 * i + 2) / 2 = i + 1 by omega, Nat.add_sub_cancel]

@[simp] theorem clockCell_eq_true (prev d : Bool) : clockCell prev d = true ↔ prev = false ∧ d = false := by
  cases prev <;> cases d <;> decide

/-- A clock cell is 1 only between two 0s, so no 1 follows a 1. -/
theorem clocked_no_adjacent_ones {prev : Bool} {d : Nat → Bool} {j : Nat} (h : clocked prev d j = true) :
    clocked prev d (j + 1) ≠ true := by
  obtain ⟨i, rfl | rfl⟩ := Nat.even_or_odd' j
  · rw [clocked_data]
    cases i with
    | zero => simp [(clockCell_eq_true _ _).mp h]
    | succ i =>
      rw [show 2 * (i + 1) = 2 * i + 2 by omega, clocked_clock, clockCell_eq_true] at h
      simp [h]
  · rw [clocked_data] at h
    rw [clocked_clock, ne_eq, clockCell_eq_true]
    simp [h]

/-- A data bit before the others. -/
def consBit (b : Bool) (d : Nat → Bool) : Nat → Bool
  | 0 => b
  | i + 1 => d i

/-- After the first data bit, the cells are those of the others, with it as the cell before them. -/
theorem clocked_consBit_add_two (prev b : Bool) (d : Nat → Bool) (j : Nat) :
    clocked prev (consBit b d) (j + 2) = clocked b d j := by
  obtain ⟨i, rfl | rfl⟩ := Nat.even_or_odd' j
  · rw [clocked_clock]
    cases i with
    | zero => rfl
    | succ i => rw [show 2 * (i + 1) = 2 * i + 2 by omega, clocked_clock]; rfl
  · rw [show 2 * i + 1 + 2 = 2 * (i + 1) + 1 by omega, clocked_data, clocked_data]
    rfl

/-- The cells of `planeCell` are the clocked bits of its plane, the highest first. -/
theorem planeCell_eq_clocked (prev : Bool) (value : Word32) (odd : Nat) {n j : Nat} (hj : j < 2 * n) :
    planeCell prev value odd n j = clocked prev (fun i => planeBit value odd (n - 1 - i)) j := by
  induction n generalizing prev j with
  | zero => omega
  | succ n ih =>
    match j with
    | 0 => rw [planeCell_zero]; rfl
    | 1 => rw [planeCell_one]; rfl
    | j + 2 =>
      obtain ⟨n, rfl⟩ : ∃ m, n = m + 1 := ⟨n - 1, by omega⟩
      rw [planeCell_add_two, ih _ (by omega), ← clocked_consBit_add_two prev]
      congr 1
      funext i
      cases i with
      | zero => rfl
      | succ i =>
        simp only [consBit]
        congr 1
        omega

/-! ### Every EMIT, for every `NBITS` (45_flux_encoder.md R138 to R140; logs 14, 15) -/

/-- One bit of a RAW EMIT, within `VALUE` or free. -/
theorem emitRawBit_eq (speed : Word16) (value : Word32) (i : Nat) (s : State) :
    ∃ b free, (i < 32 → b = value.getLsbD i) ∧
      emitRawBit speed value i s = rendered s [⟨s.block.opos, b, speed⟩] b free := by
  obtain ⟨free, hfree⟩ := valueBit_cases value i s
  refine ⟨(valueBit value i s).1, free, fun hi => by rw [valueBit_of_lt hi], ?_⟩
  simp only [emitRawBit, hfree]
  rfl

/-- A RAW EMIT of any number of bits: the bits that `VALUE` has, and free cells for the others. -/
theorem emitRawBits_eq (speed : Word16) (value : Word32) (n : Nat) (s : State) :
    ∃ f free, (∀ j < n, n - 1 - j < 32 → f j = value.getLsbD (n - 1 - j)) ∧
      emitRawBits speed value n s =
        rendered s (cellRecords s.block.opos speed n f) (if n = 0 then s.block.prev else f (n - 1)) free := by
  induction n generalizing s with
  | zero => exact ⟨fun _ => false, s.freeCount, nofun, by simp [emitRawBits, rendered]⟩
  | succ n ih =>
    obtain ⟨b, free, hb, hfirst⟩ := emitRawBit_eq speed value n s
    obtain ⟨f, free', hf, hrest⟩ := ih (emitRawBit speed value n s)
    refine ⟨consBit b f, free', fun j hj hlt => ?_, ?_⟩
    · cases j with
      | zero => exact hb (by omega)
      | succ j =>
        have hindex : n + 1 - 1 - (j + 1) = n - 1 - j := by omega
        rw [hindex] at hlt ⊢
        exact hf j (by omega) hlt
    · rw [emitRawBits, hrest, hfirst, rendered_rendered, cellRecords_succ]
      cases n with
      | zero => rfl
      | succ n => rfl

/-- One bit of a plane EMIT, within `VALUE` or free, after its clock cell. -/
theorem emitPlaneBit_eq (speed : Word16) (value : Word32) (i : Nat) (s : State) :
    ∃ b free, (i < 32 → b = value.getLsbD i) ∧
      emitPlaneBit speed value i s =
        rendered s [⟨s.block.opos + 1, b, speed⟩, ⟨s.block.opos, clockCell s.block.prev b, speed⟩] b free := by
  obtain ⟨free, hfree⟩ := valueBit_cases value i s
  refine ⟨(valueBit value i s).1, free, fun hi => by rw [valueBit_of_lt hi], ?_⟩
  simp only [emitPlaneBit, hfree, rendered, State.emitCell, State.setPrev, BitVec.add_assoc]
  rfl

/-- A plane EMIT of any number of data bits: the bits that `VALUE` has, free ones for the others, each after its clock cell. -/
theorem emitPlaneBits_eq (speed : Word16) (value : Word32) (odd n : Nat) (s : State) :
    ∃ d free, (∀ i < n, 2 * (n - 1 - i) + odd < 32 → d i = value.getLsbD (2 * (n - 1 - i) + odd)) ∧
      emitPlaneBits speed value odd n s =
        rendered s (cellRecords s.block.opos speed (2 * n) (clocked s.block.prev d))
          (if n = 0 then s.block.prev else d (n - 1)) free := by
  induction n generalizing s with
  | zero => exact ⟨fun _ => false, s.freeCount, nofun, by simp [emitPlaneBits, rendered]⟩
  | succ n ih =>
    obtain ⟨b, free, hb, hfirst⟩ := emitPlaneBit_eq speed value (2 * n + odd) s
    obtain ⟨d, free', hd, hrest⟩ := ih (emitPlaneBit speed value (2 * n + odd) s)
    refine ⟨consBit b d, free', fun i hi hlt => ?_, ?_⟩
    · cases i with
      | zero => exact hb (by omega)
      | succ i =>
        have hindex : n + 1 - 1 - (i + 1) = n - 1 - i := by omega
        rw [hindex] at hlt ⊢
        exact hd i (by omega) hlt
    · rw [emitPlaneBits, hrest, hfirst, rendered_rendered, Nat.mul_succ, cellRecords_add_two]
      simp only [clocked_consBit_add_two]
      cases n with
      | zero => rfl
      | succ n => rfl

/-- Rendering as a record update. -/
theorem rendered_eq (s : State) (pos : Word32) (speed : Word16) (n : Nat) (f : Nat → Bool) (p : Bool) (free : Nat) :
    rendered s (cellRecords pos speed n f) p free = { s with
      sinkCells := cellRecords pos speed n f ++ s.sinkCells
      block := { s.block with opos := s.block.opos + BitVec.ofNat 32 n, prev := p }
      freeCount := free } := by
  rw [rendered, cellRecords_length]

/-- The loop of EMIT.EVEN or EMIT.ODD, by which of the two it is. -/
theorem exec_plane {i : Instr} {nbits : BitVec 6} {speed : Word16} {value : Word32} {odd : Nat}
    (h : (i = .emitEven nbits speed value ∧ odd = 1) ∨ (i = .emitOdd nbits speed value ∧ odd = 0)) (s : State) :
    exec i s = .next (emitPlaneBits speed value odd (nbits.toNat / 2) s) := by
  obtain ⟨rfl, rfl⟩ | ⟨rfl, rfl⟩ := h
  · exact exec_emitEven nbits speed value s
  · exact exec_emitOdd nbits speed value s

/-- Settles O19: `NBITS` 0 runs no loop; an odd one halves as the even one below it; above 32 by `emitRawBits_eq` and
`emitPlaneBits_eq`. -/
theorem otherNbitsEmit : Obligations.OtherNbitsEmit := by
  intro s nbits speed value
  refine ⟨?_, fun m hm => ?_, fun hlarge => ?_, fun hlarge i odd hi => ?_⟩
  · rintro rfl
    exact ⟨exec_emitRaw 0 speed value s, exec_emitEven 0 speed value s, exec_emitOdd 0 speed value s⟩
  · have hlt := nbits.isLt
    have heven : (BitVec.ofNat 6 (2 * m)).toNat = 2 * m := by
      rw [BitVec.toNat_ofNat]
      exact Nat.mod_eq_of_lt (by omega)
    have hhalf : nbits.toNat / 2 = (BitVec.ofNat 6 (2 * m)).toNat / 2 := by omega
    simp only [exec_emitEven, exec_emitOdd, hhalf, and_self]
  · obtain ⟨f, free, hf, hemit⟩ := emitRawBits_eq speed value nbits.toNat s
    refine ⟨f, free, fun j hlo hhi => hf j hhi (by omega), ?_⟩
    have hlast : f (nbits.toNat - 1) = value.getLsbD 0 := by
      rw [hf _ (by omega) (by omega), Nat.sub_self]
    rw [exec_emitRaw, hemit, if_neg (by omega), hlast, rendered_eq]
  · obtain ⟨d, free, hd, hemit⟩ := emitPlaneBits_eq speed value odd (nbits.toNat / 2) s
    refine ⟨clocked s.block.prev d, free, fun k hk hlt => ?_, fun k hk => ?_, ?_⟩
    · have hindex : nbits.toNat / 2 - 1 - (nbits.toNat / 2 - 1 - k) = k := by omega
      rw [clocked_data, hd _ (by omega) (by rwa [hindex]), hindex]
    · rw [clocked_data]
      cases k with
      | zero => rfl
      | succ k =>
        rw [if_neg (Nat.succ_ne_zero k), show 2 * (k + 1) = 2 * k + 2 by omega, clocked_clock,
          show 2 * k + 2 - 1 = 2 * k + 1 by omega, clocked_data]
        rfl
    · have hlast : clocked s.block.prev d (2 * (nbits.toNat / 2) - 1) = d (nbits.toNat / 2 - 1) := by
        rw [show 2 * (nbits.toNat / 2) - 1 = 2 * (nbits.toNat / 2 - 1) + 1 by omega, clocked_data]
      rw [exec_plane hi, hemit, if_neg (by omega), hlast, rendered_eq]

/-! ### The cells in the order of time -/

/-- The cells of `n` clocked data bits. -/
def clockedCells (prev : Bool) (d : Nat → Bool) (n : Nat) : List Bool := (List.range (2 * n)).map (clocked prev d)

@[simp] theorem clockedCells_length (prev : Bool) (d : Nat → Bool) (n : Nat) : (clockedCells prev d n).length = 2 * n := by
  simp [clockedCells]

theorem clockedCells_getElem? (prev : Bool) (d : Nat → Bool) {n j : Nat} (hj : j < 2 * n) :
    (clockedCells prev d n)[j]? = some (clocked prev d j) := by
  rw [clockedCells, List.getElem?_map, List.getElem?_range hj, Option.map_some]

theorem clockedCells_getLast? (prev : Bool) (d : Nat → Bool) (n : Nat) :
    (clockedCells prev d (n + 1)).getLast? = some (d n) := by
  rw [List.getLast?_eq_getElem?, clockedCells_length, show 2 * (n + 1) - 1 = 2 * n + 1 by omega,
    clockedCells_getElem? prev d (by omega), clocked_data]

/-- Rendering adds its cells after those emitted before. -/
theorem rendered_emittedCells (s : State) (pos : Word32) (speed : Word16) (n : Nat) (f : Nat → Bool) (p : Bool)
    (free : Nat) : (rendered s (cellRecords pos speed n f) p free).emittedCells = s.emittedCells ++ (List.range n).map f := by
  simp [rendered, State.emittedCells, cellRecords]

/-- The plane `odd` of a value, as data bits in the order of time: `n` of them, the highest first. -/
def planeBits (value : Word32) (odd n i : Nat) : Bool := planeBit value odd (n - 1 - i)

theorem cellRecords_congr {pos : Word32} {speed : Word16} {n : Nat} {f g : Nat → Bool} (h : ∀ j < n, f j = g j) :
    cellRecords pos speed n f = cellRecords pos speed n g := by
  unfold cellRecords
  congr 1
  refine List.map_congr_left fun j hj => ?_
  rw [h j (List.mem_range.mp hj)]

/-- A plane EMIT within the 32 bits of `VALUE`, its cells as clocked data bits. -/
theorem emitPlaneBits_eq_clocked {odd n : Nat} (speed : Word16) (value : Word32) (s : State) (hn : 2 * n + odd < 32) :
    emitPlaneBits speed value odd (n + 1) s =
      rendered s (cellRecords s.block.opos speed (2 * (n + 1)) (clocked s.block.prev (planeBits value odd (n + 1))))
        (planeBits value odd (n + 1) n) s.freeCount := by
  rw [emitPlaneBits_succ_eq speed value s hn, cellRecords_congr fun j hj => planeCell_eq_clocked _ value odd hj, planeBits,
    Nat.add_sub_cancel, Nat.sub_self]
  rfl

/-- Settles O22: the new cells are clocked data bits. -/
theorem planeCellsHaveNoAdjacentOnes : Obligations.PlaneCellsHaveNoAdjacentOnes := by
  intro s i nbits speed value hlo hhi hi
  obtain ⟨odd, hodd, hi⟩ : ∃ odd ≤ 1, (i = .emitEven nbits speed value ∧ odd = 1) ∨ (i = .emitOdd nbits speed value ∧ odd = 0) := by
    obtain rfl | rfl := hi
    · exact ⟨1, Nat.le_refl 1, .inl ⟨rfl, rfl⟩⟩
    · exact ⟨0, Nat.zero_le 1, .inr ⟨rfl, rfl⟩⟩
  obtain ⟨n, hn⟩ : ∃ n, nbits.toNat / 2 = n + 1 := ⟨nbits.toNat / 2 - 1, by omega⟩
  have hemit := emitPlaneBits_eq_clocked (odd := odd) (n := n) speed value s (by omega)
  refine ⟨_, clockedCells s.block.prev (planeBits value odd (n + 1)) (n + 1), exec_plane hi s, ?_, ?_, fun j hj => ?_,
    fun hprev => ?_, ?_⟩
  · rw [hn, hemit, rendered_emittedCells, clockedCells]
  · rw [clockedCells_length, hn]
  · by_cases hlt : j + 1 < 2 * (n + 1)
    · rw [clockedCells_getElem? _ _ (by omega), Option.some.injEq] at hj
      rw [clockedCells_getElem? _ _ hlt, ne_eq, Option.some.injEq]
      exact clocked_no_adjacent_ones hj
    · rw [List.getElem?_eq_none (by rw [clockedCells_length]; omega)]
      exact nofun
  · rw [clockedCells_getElem? _ _ (by omega), clocked_first, hprev]
    rfl
  · rw [hn, hemit, rendered_prev, clockedCells_getLast?]

/-! ### The word of a group of cells -/

/-- Bit `i` of the collected cells is the `i`-th cell before the last (00_scope.md R14). -/
theorem collect_getLsbD (cells : List Bool) {i : Nat} (hi : i < 32) :
    (collect cells).getLsbD i = cells.reverse[i]?.getD false := by
  induction cells using List.reverseRecOn generalizing i with
  | nil => simp [collect]
  | append_singleton cells c ih =>
    have hlast : collect (cells ++ [c]) = shiftIn (collect cells) c := by simp [collect]
    rw [hlast, List.reverse_append, List.reverse_singleton, List.singleton_append, shiftIn, BitVec.getLsbD_concat]
    cases i with
    | zero => rfl
    | succ i =>
      rw [if_neg (Nat.succ_ne_zero i), Nat.add_sub_cancel, BitVec.getLsbD_setWidth, decide_eq_true (by omega : i < 31),
        Bool.true_and, ih (by omega), List.getElem?_cons_succ]

/-- The `i`-th cell before the last of 16 cells. -/
theorem reverse_clockedCells_getElem? (prev : Bool) (d : Nat → Bool) {k : Nat} (hk : k < 8) :
    (clockedCells prev d 8).reverse[2 * k]? = some (d (7 - k)) := by
  rw [List.getElem?_reverse (by rw [clockedCells_length]; omega), clockedCells_length,
    show 2 * 8 - 1 - 2 * k = 2 * (7 - k) + 1 by omega, clockedCells_getElem? _ _ (by omega), clocked_data]

/-- Sixteen cells clocking the odd bits of a word and sixteen clocking its even bits are a group that carries it, whatever the
cells before each half. -/
theorem demod_collect_clockedCells (prev prev' : Bool) (w : Word16) :
    demod (collect (clockedCells prev (planeBits (w.setWidth 32) 1 8) 8 ++
      clockedCells prev' (planeBits (w.setWidth 32) 0 8) 8)) = w := by
  refine demod_eq_of_dataCells fun k hk => ?_
  have hindex : 8 - 1 - (7 - k) = k := by omega
  have hlen (p : Bool) (d : Nat → Bool) : (clockedCells p d 8).reverse.length = 16 := by
    rw [List.length_reverse, clockedCells_length]
  constructor
  · rw [collect_getLsbD _ (by omega), List.reverse_append, List.getElem?_append_right (by rw [hlen]; omega), hlen,
      Nat.add_sub_cancel_left, reverse_clockedCells_getElem? _ _ hk]
    simp [planeBits, planeBit, hindex]
    omega
  · rw [collect_getLsbD _ (by omega), List.reverse_append, List.getElem?_append_left (by rw [hlen]; omega),
      reverse_clockedCells_getElem? _ _ hk]
    simp [planeBits, planeBit, hindex]
    omega

/-- Settles O23: the halves are the clocked planes of the word. -/
theorem emittedWordDemodulates : Obligations.EmittedWordDemodulates := by
  intro s speed word
  have heven := emitPlaneBits_eq_clocked (odd := 1) (n := 7) speed (word.setWidth 32) s (by decide)
  refine ⟨_, _, _, exec_emitEven 16 speed (word.setWidth 32) s, exec_emitOdd 16 speed (word.setWidth 32) _, ?_, ?_,
    demod_collect_clockedCells s.block.prev (planeBits (word.setWidth 32) 1 8 7) word⟩
  · change (emitPlaneBits speed (word.setWidth 32) 0 8 (emitPlaneBits speed (word.setWidth 32) 1 8 s)).emittedCells = _
    rw [emitPlaneBits_eq_clocked (odd := 0) (n := 7) speed (word.setWidth 32) _ (by decide), rendered_emittedCells, heven,
      rendered_emittedCells, List.append_assoc]
    rfl
  · rw [List.length_append, clockedCells_length, clockedCells_length]

end Sys2Proof.Machine
end

section
/-! PROOFS about the run of an ENCODE, from 40_commands.md, 44_remodulator.md (counts), 45_flux_encoder.md (positions, timing
class) and 30_encoding.md section 2 (track image). -/

namespace Sys2Proof.Machine

/-! ### Cells in the order of time, as records -/

/-- The records of some cells, the first of them at position `pos`. -/
def cellsAt (pos : Word32) (speed : Word16) (cells : List Bool) : List CellRecord :=
  cellRecords pos speed cells.length fun j => cells[j]?.getD false

@[simp] theorem cellsAt_nil (pos : Word32) (speed : Word16) : cellsAt pos speed [] = [] := rfl

@[simp] theorem cellsAt_length (pos : Word32) (speed : Word16) (cells : List Bool) :
    (cellsAt pos speed cells).length = cells.length := cellRecords_length _ _ _ _

theorem cellRecords_eq_cellsAt (pos : Word32) (speed : Word16) (n : Nat) (f : Nat → Bool) :
    cellRecords pos speed n f = cellsAt pos speed ((List.range n).map f) := by
  rw [cellsAt, List.length_map, List.length_range]
  refine cellRecords_congr fun j hj => ?_
  rw [List.getElem?_map, List.getElem?_range hj]
  rfl

/-- More cells stand at the positions after the first ones. -/
theorem cellsAt_append (pos : Word32) (speed : Word16) (cells new : List Bool) :
    cellsAt pos speed (cells ++ new) =
      cellsAt (pos + BitVec.ofNat 32 cells.length) speed new ++ cellsAt pos speed cells := by
  simp only [cellsAt, cellRecords, List.length_append, List.range_add, List.map_append, List.reverse_append, List.map_map]
  congr 2
  · refine List.map_congr_left fun j hj => ?_
    simp [BitVec.ofNat_add, BitVec.add_assoc, List.getElem?_append_right]
  · refine List.map_congr_left fun j hj => ?_
    rw [List.getElem?_append_left (List.mem_range.mp hj)]

theorem map_cell_cellsAt (pos : Word32) (speed : Word16) (cells : List Bool) :
    ((cellsAt pos speed cells).map (·.cell)).reverse = cells := by
  simp only [cellsAt, cellRecords, List.map_reverse, List.map_map, List.reverse_reverse]
  refine List.ext_getElem (by simp) fun j hj _ => ?_
  simp at hj
  simp [List.getElem?_eq_getElem hj]

/-- The last of some cells after others, or else what stood before. -/
theorem getLast?_append_getD (cells new : List Bool) (b : Bool) :
    (cells ++ new).getLast?.getD b = new.getLast?.getD (cells.getLast?.getD b) := by
  rw [List.getLast?_append]
  cases new.getLast? <;> rfl

/-! ### What each TXN of an ENCODE emits -/

/-- Rendering the record `r` at `u` adds the cells `new` from `OPOS` on, and `PREV` is the last of them. -/
def Emits (speed : Word16) (r : TxnRecord) (u : State) (new : List Bool) : Prop :=
  renderTxn r u =
    .next (rendered u (cellsAt u.block.opos speed new) (new.getLast?.getD u.block.prev) u.freeCount)

/-- The cells of an EMIT.RAW of `n` bits. -/
def rawCells (value : Word32) (n : Nat) : List Bool := (List.range n).map fun j => value.getLsbD (n - 1 - j)

@[simp] theorem rawCells_length (value : Word32) (n : Nat) : (rawCells value n).length = n := by simp [rawCells]

theorem rawCells_getElem? (value : Word32) {n j : Nat} (hj : j < n) :
    (rawCells value n)[j]? = some (value.getLsbD (n - 1 - j)) := by
  rw [rawCells, List.getElem?_map, List.getElem?_range hj, Option.map_some]

theorem emits_raw (speed : Word16) (value : Word32) (u : State) {nbits : BitVec 6} {n : Nat} (hbits : nbits.toNat = n + 1)
    (hn : n < 32) : Emits speed (emitRecord 0x40 nbits speed value) u (rawCells value (n + 1)) := by
  have hlast : (rawCells value (n + 1)).getLast? = some (value.getLsbD 0) := by
    rw [List.getLast?_eq_getElem?, rawCells_length, Nat.add_sub_cancel, rawCells_getElem? value (Nat.lt_succ_self n),
      Nat.succ_sub_one, Nat.sub_self]
  rw [Emits, renderTxn_emitRaw, hbits, emitRawBits_succ_eq speed value u hn, cellRecords_eq_cellsAt, hlast]
  rfl

theorem emits_even (speed : Word16) (value : Word32) (u : State) :
    Emits speed (emitRecord 0x50 16 speed value) u (clockedCells u.block.prev (planeBits value 1 8) 8) := by
  have hemit := emitPlaneBits_eq_clocked (odd := 1) (n := 7) speed value u (by decide)
  rw [cellRecords_eq_cellsAt] at hemit
  rw [Emits, renderTxn_emitEven, clockedCells_getLast?]
  exact congrArg _ hemit

theorem emits_odd (speed : Word16) (value : Word32) (u : State) :
    Emits speed (emitRecord 0x60 16 speed value) u (clockedCells u.block.prev (planeBits value 0 8) 8) := by
  have hemit := emitPlaneBits_eq_clocked (odd := 0) (n := 7) speed value u (by decide)
  rw [cellRecords_eq_cellsAt] at hemit
  rw [Emits, renderTxn_emitOdd, clockedCells_getLast?]
  exact congrArg _ hemit

theorem emits_finalize (speed : Word16) (u : State) : Emits speed finalizeRecord u [] := by
  rw [Emits, renderTxn_finalize]
  simp [rendered]

/-- The cells of a value whose bits from `n` on are 0 collect to it. -/
theorem collect_rawCells {value : Word32} {n : Nat} (hvalue : ∀ i, n ≤ i → value.getLsbD i = false) :
    collect (rawCells value n) = value := by
  refine BitVec.eq_of_getLsbD_eq fun i hi => ?_
  rw [collect_getLsbD _ hi]
  by_cases hlt : i < n
  · rw [List.getElem?_reverse (by rwa [rawCells_length]), rawCells_length, rawCells_getElem? value (by omega),
      show n - 1 - (n - 1 - i) = i by omega]
    rfl
  · rw [List.getElem?_eq_none (by rw [List.length_reverse, rawCells_length]; omega), hvalue i (by omega)]
    rfl

/-! ### The state of an ENCODE (40_commands.md R87 to R89) -/

/-- An ENCODE issued at `s` that has emitted the TXNs `txns`, newest first, and the cells `cells`, in the order of time. -/
def State.encoding (s : State) (txns : List TxnRecord) (cells : List Bool) : State :=
  { s with
    sinkTxns := txns ++ s.sinkTxns
    sinkCells := cellsAt s.block.dataBitoff s.params.speed cells ++ s.sinkCells
    block := { s.block.startEncode with
      ti := txns.length
      prev := cells.getLast?.getD false
      opos := s.block.dataBitoff + BitVec.ofNat 32 cells.length } }

/-- The same ENCODE, ended with OK. -/
def State.encoded (s : State) (txns : List TxnRecord) (cells : List Bool) : State :=
  { s.encoding txns cells with block := { (s.encoding txns cells).block with result := .ok, phase := .idle } }

/-- The host has issued the command. -/
theorem step_encode {s : State} (hq : s.quiet) (hidle : s.block.phase = .idle) (hw : allWritten s.block.secbuf = true) :
    step { s with script := [scriptEncode] } = .next { s with block := s.block.startEncode } := by
  have hexec : exec .encode { s with script := [] } = .next { s with script := [], block := s.block.startEncode } :=
    (exec_encode _).trans (execEncode_idle_written (s := { s with script := [] }) hidle (Option.isNone_iff_eq_none.mp hw))
  have hscript : { s with script := [], block := s.block.startEncode } = { s with block := s.block.startEncode } := by
    rw [← hq.2]
  rw [step_cmd_write (s := { s with script := [scriptEncode] }) hq.1 rfl, ← hscript, ← hexec]
  rfl

/-- With the sink's answers ended, an EMIT step emits its TXN, renders it and advances `TI`. -/
theorem step_emit {u t : State} {r : TxnRecord} (hq : u.quiet) (hsink : u.sinkAnswers = []) (hp : u.block.phase = .eEmit)
    (htxn : txnAt u.params u.block u.block.ti = .ok r) (hrender : renderTxn r (u.emitTxn r) = .next t) :
    step u = .next { t with block := t.block.advanceTxn } := by
  have hsame : { u with sinkAnswers := [] } = u := by rw [← hsink]
  rw [step_quiet hq, blockStep_emit hp]
  exact emitStep_ready (.inl ⟨hsink, rfl⟩) htxn (by rwa [hsame])

/-- SETUP: no cell yet, `OPOS` at the latched offset and `PREV` 0. -/
theorem step_encoding_setup {s : State} (hq : s.quiet) (hsink : s.sinkAnswers = []) :
    step { s with block := s.block.startEncode } =
      .next (s.encoding [setupRecord s.block.dataBitoff s.params.trackLen] []) := by
  rw [step_emit (u := { s with block := s.block.startEncode }) hq hsink rfl rfl (renderTxn_setup _ _ _),
    Block.advanceTxn_eq, State.encoding]
  simp [State.emitTxn, Block.startEncode]

/-- What one EMIT step of an ENCODE leaves: the TXN and its cells are added. -/
theorem advance_encoding (s : State) (txns : List TxnRecord) (cells new : List Bool) (r : TxnRecord) :
    let u := (s.encoding txns cells).emitTxn r
    let t := rendered u (cellsAt u.block.opos s.params.speed new) (new.getLast?.getD u.block.prev) u.freeCount
    { t with block := t.block.advanceTxn } =
      if txns.length + 1 = 6160 then s.encoded (r :: txns) (cells ++ new) else s.encoding (r :: txns) (cells ++ new) := by
  intro u t
  have hcells : cellsAt u.block.opos s.params.speed new ++ u.sinkCells =
      cellsAt s.block.dataBitoff s.params.speed (cells ++ new) ++ s.sinkCells := by
    rw [cellsAt_append, List.append_assoc]
    rfl
  have hopos : u.block.opos + BitVec.ofNat 32 (cellsAt u.block.opos s.params.speed new).length =
      s.block.dataBitoff + BitVec.ofNat 32 (cells ++ new).length := by
    rw [cellsAt_length, List.length_append, BitVec.ofNat_add, ← BitVec.add_assoc]
    rfl
  have hprev : new.getLast?.getD u.block.prev = (cells ++ new).getLast?.getD false := (getLast?_append_getD _ _ _).symm
  simp only [t, rendered, hcells, hopos, hprev, Block.advanceTxn_eq]
  by_cases hlast : txns.length + 1 = 6160
  · rw [if_pos hlast]
    simp only [u, State.emitTxn, State.encoding, State.encoded, hlast, if_true, List.cons_append, List.length_cons]
  · rw [if_neg hlast]
    simp only [u, State.emitTxn, State.encoding, hlast, if_false, List.cons_append, List.length_cons]

/-- An EMIT step of an ENCODE with the sink's answers ended, at any TXN but SETUP. -/
theorem step_encoding {s : State} {txns : List TxnRecord} {cells new : List Bool} {r : TxnRecord} (hq : s.quiet)
    (hsink : s.sinkAnswers = []) (htxn : txnAt s.params (s.encoding txns cells).block txns.length = .ok r)
    (hemits : Emits s.params.speed r ((s.encoding txns cells).emitTxn r) new) :
    step (s.encoding txns cells) = .next
      (if txns.length + 1 = 6160 then s.encoded (r :: txns) (cells ++ new) else s.encoding (r :: txns) (cells ++ new)) := by
  rw [step_emit (u := s.encoding txns cells) hq hsink rfl htxn hemits]
  exact congrArg _ (advance_encoding s txns cells new r)

/-! ### The TXNs by header (44_remodulator.md R135) -/

/-- How many of some TXNs have the header `h`. -/
def countHeader (h : Byte) (txns : List TxnRecord) : Nat := (txns.filter (·.header = h)).length

@[simp] theorem countHeader_nil (h : Byte) : countHeader h [] = 0 := rfl

@[simp] theorem countHeader_cons (h : Byte) (r : TxnRecord) (txns : List TxnRecord) :
    countHeader h (r :: txns) = countHeader h txns + if r.header = h then 1 else 0 := by
  unfold countHeader
  by_cases hr : r.header = h
  · rw [List.filter_cons_of_pos (by simpa using hr), if_pos hr, List.length_cons]
  · rw [List.filter_cons_of_neg (by simpa using hr), if_neg hr, Nat.add_zero]

/-- The TXNs of SETUP, the two marks, `n` groups and `f` FINALIZEs. -/
structure TxnCounts (n f : Nat) (txns : List TxnRecord) : Prop where
  length : txns.length = 3 + 2 * n + f
  setup : countHeader 0x00 txns = 1
  raw : countHeader 0x40 txns = 2
  even : countHeader 0x50 txns = n
  odd : countHeader 0x60 txns = n
  finalize : countHeader 0x80 txns = f

/-- One group more is an EVEN and an ODD. -/
theorem TxnCounts.addGroup {n f : Nat} {txns : List TxnRecord} (h : TxnCounts n f txns) (speed : Word16) (v : Word32) :
    TxnCounts (n + 1) f (emitRecord 0x60 16 speed v :: emitRecord 0x50 16 speed v :: txns) where
  length := by
    rw [List.length_cons, List.length_cons, h.length]
    omega
  setup := by rw [countHeader_cons, countHeader_cons, h.setup]; rfl
  raw := by rw [countHeader_cons, countHeader_cons, h.raw]; rfl
  even := by rw [countHeader_cons, countHeader_cons, h.even]; rfl
  odd := by rw [countHeader_cons, countHeader_cons, h.odd]; rfl
  finalize := by rw [countHeader_cons, countHeader_cons, h.finalize]; rfl

theorem TxnCounts.addFinalize {n f : Nat} {txns : List TxnRecord} (h : TxnCounts n f txns) :
    TxnCounts n (f + 1) (finalizeRecord :: txns) where
  length := by
    rw [List.length_cons, h.length]
    omega
  setup := by rw [countHeader_cons, h.setup]; rfl
  raw := by rw [countHeader_cons, h.raw]; rfl
  even := by rw [countHeader_cons, h.even]; rfl
  odd := by rw [countHeader_cons, h.odd]; rfl
  finalize := by rw [countHeader_cons, h.finalize]; rfl

/-! ### The groups of a track image (30_encoding.md section 2) -/

theorem slice_append_left {cells new : List Bool} {a n : Nat} (h : a + n ≤ cells.length) :
    slice (cells ++ new) a n = slice cells a n := by
  rw [slice, slice, List.drop_append_of_le_length (by omega), List.take_append_of_le_length (by rw [List.length_drop]; omega)]

theorem slice_append_right (cells new : List Bool) (a n : Nat) :
    slice (cells ++ new) (cells.length + a) n = slice new a n := by
  rw [slice, slice, List.drop_length_add_append]

theorem slice_all (cells : List Bool) : slice cells 0 cells.length = cells := by
  rw [slice, List.drop_zero, List.take_length]

/-- The cells are the groups of the words 0 to `n` - 1 of the sequence. -/
structure GroupCells (m : Memory) (mask : BitVec 6) (n : Nat) (cells : List Bool) : Prop where
  length : cells.length = 32 * n
  word : ∀ g < n, groupWord m mask g = some (demod (collect (slice cells (32 * g) 32)))

theorem GroupCells.nil (m : Memory) (mask : BitVec 6) : GroupCells m mask 0 [] := ⟨rfl, nofun⟩

theorem GroupCells.addGroup {m : Memory} {mask : BitVec 6} {n : Nat} {cells new : List Bool}
    (h : GroupCells m mask n cells) (hlen : new.length = 32) (hword : groupWord m mask n = some (demod (collect new))) :
    GroupCells m mask (n + 1) (cells ++ new) where
  length := by
    rw [List.length_append, h.length, hlen]
    omega
  word := fun g hg => by
    by_cases hlast : g = n
    · have hslice := slice_append_right cells new 0 new.length
      rw [h.length, Nat.add_zero, slice_all, hlen] at hslice
      rw [hlast, hslice, hword]
    · rw [slice_append_left (by rw [h.length]; omega), h.word g (by omega)]

/-- The cells of the two marks. -/
def markCells (p : Params) : List Bool := rawCells (p.mark1.setWidth 32) 16 ++ rawCells p.mark2 32

@[simp] theorem markCells_length (p : Params) : (markCells p).length = 48 := by simp [markCells]

/-! ### The run -/

/-- The TXNs of SETUP and the two marks, newest first. -/
def markTxns (s : State) : List TxnRecord :=
  [emitRecord 0x40 32 s.params.speed s.params.mark2, emitRecord 0x40 16 s.params.speed (s.params.mark1.setWidth 32),
    setupRecord s.block.dataBitoff s.params.trackLen]

theorem markTxns_counts (s : State) : TxnCounts 0 0 (markTxns s) :=
  ⟨rfl, by simp [markTxns], by simp [markTxns], by simp [markTxns], by simp [markTxns], by simp [markTxns]⟩

/-- The command, SETUP and the two marks. -/
theorem runs_encoding_marks {s : State} (hq : s.quiet) (hsink : s.sinkAnswers = []) (hidle : s.block.phase = .idle)
    (hw : allWritten s.block.secbuf = true) :
    Runs 4 { s with script := [scriptEncode] } (s.encoding (markTxns s) (markCells s.params)) := by
  have hmark1 := step_encoding (cells := []) hq hsink (txnAt_mark1 s.params _)
    (emits_raw (n := 15) s.params.speed _
      ((s.encoding [setupRecord s.block.dataBitoff s.params.trackLen] []).emitTxn _) rfl (by decide))
  have hmark2 := step_encoding
    (txns := [emitRecord 0x40 16 s.params.speed (s.params.mark1.setWidth 32),
      setupRecord s.block.dataBitoff s.params.trackLen])
    (cells := [] ++ rawCells (s.params.mark1.setWidth 32) 16) hq hsink
    (txnAt_mark2 s.params _) (emits_raw (n := 31) s.params.speed _ _ rfl (by decide))
  exact (((Runs.step (step_encode hq hidle hw)).trans (.step (step_encoding_setup hq hsink))).trans (.step hmark1)).trans
    (.step hmark2)

/-- The EVEN of a group. -/
theorem step_encoding_even {s : State} {n : Nat} {txns : List TxnRecord} {cells : List Bool} {v : Word16} (hq : s.quiet)
    (hsink : s.sinkAnswers = []) (hn : n < 3078) (hlen : txns.length = 3 + 2 * n)
    (hv : groupWord s.block.secbuf s.block.validMask n = some v) :
    ∃ prev, step (s.encoding txns cells) = .next (s.encoding (emitRecord 0x50 16 s.params.speed (v.setWidth 32) :: txns)
      (cells ++ clockedCells prev (planeBits (v.setWidth 32) 1 8) 8)) := by
  have htxn : txnAt s.params (s.encoding txns cells).block txns.length =
      .ok (emitRecord 0x50 16 s.params.speed (v.setWidth 32)) := by
    rw [hlen]
    exact txnAt_even hn hv
  have hstep := step_encoding hq hsink htxn (emits_even s.params.speed (v.setWidth 32) _)
  rw [if_neg (by omega)] at hstep
  exact ⟨_, hstep⟩

/-- The ODD of a group. -/
theorem step_encoding_odd {s : State} {n : Nat} {txns : List TxnRecord} {cells : List Bool} {v : Word16} (hq : s.quiet)
    (hsink : s.sinkAnswers = []) (hn : n < 3078) (hlen : txns.length = 4 + 2 * n)
    (hv : groupWord s.block.secbuf s.block.validMask n = some v) :
    ∃ prev, step (s.encoding txns cells) = .next (s.encoding (emitRecord 0x60 16 s.params.speed (v.setWidth 32) :: txns)
      (cells ++ clockedCells prev (planeBits (v.setWidth 32) 0 8) 8)) := by
  have htxn : txnAt s.params (s.encoding txns cells).block txns.length =
      .ok (emitRecord 0x60 16 s.params.speed (v.setWidth 32)) := by
    rw [hlen]
    exact txnAt_odd hn hv
  have hstep := step_encoding hq hsink htxn (emits_odd s.params.speed (v.setWidth 32) _)
  rw [if_neg (by omega)] at hstep
  exact ⟨_, hstep⟩

/-- The two TXNs of one group: their cells carry its word. -/
theorem runs_encoding_group {s : State} {n : Nat} {txns : List TxnRecord} {cells : List Bool} {v : Word16} (hq : s.quiet)
    (hsink : s.sinkAnswers = []) (hn : n < 3078) (hlen : txns.length = 3 + 2 * n)
    (hv : groupWord s.block.secbuf s.block.validMask n = some v) :
    ∃ new, new.length = 32 ∧ demod (collect new) = v ∧
      Runs 2 (s.encoding txns cells) (s.encoding (emitRecord 0x60 16 s.params.speed (v.setWidth 32) ::
        emitRecord 0x50 16 s.params.speed (v.setWidth 32) :: txns) (cells ++ new)) := by
  obtain ⟨prev, heven⟩ := step_encoding_even (cells := cells) hq hsink hn hlen hv
  obtain ⟨prev', hodd⟩ := step_encoding_odd (txns := emitRecord 0x50 16 s.params.speed (v.setWidth 32) :: txns)
    (cells := cells ++ clockedCells prev (planeBits (v.setWidth 32) 1 8) 8) hq hsink hn
    (by rw [List.length_cons, hlen]; omega) hv
  rw [List.append_assoc] at hodd
  refine ⟨_, ?_, demod_collect_clockedCells prev prev' v, (Runs.step heven).trans (.step hodd)⟩
  rw [List.length_append, clockedCells_length, clockedCells_length]

/-- The TXNs of the first `n` groups. -/
theorem runs_encoding_groups {s : State} (hq : s.quiet) (hsink : s.sinkAnswers = [])
    (hw : allWritten s.block.secbuf = true) {n : Nat} (hn : n ≤ 3078) :
    ∃ txns groups, TxnCounts n 0 txns ∧ GroupCells s.block.secbuf s.block.validMask n groups ∧
      Runs (2 * n) (s.encoding (markTxns s) (markCells s.params)) (s.encoding txns (markCells s.params ++ groups)) := by
  induction n with
  | zero =>
    refine ⟨markTxns s, [], markTxns_counts s, .nil _ _, ?_⟩
    rw [List.append_nil]
    exact .zero _
  | succ n ih =>
    obtain ⟨txns, groups, hcounts, hgroups, hrun⟩ := ih (by omega)
    obtain ⟨v, hv⟩ := groupWord_isSome s.block.validMask hw (show n < Config.tw from hn)
    obtain ⟨new, hlen, hword, hgroup⟩ :=
      runs_encoding_group (cells := markCells s.params ++ groups) hq hsink hn hcounts.length hv
    refine ⟨_, groups ++ new, hcounts.addGroup s.params.speed (v.setWidth 32), hgroups.addGroup hlen (hv.trans (congrArg some hword.symm)), ?_⟩
    rw [← List.append_assoc]
    exact hrun.trans hgroup

/-- The whole ENCODE: its start, the TXNs of the marks and of the groups, and FINALIZE. -/
theorem runs_encoded {s : State} (hq : s.quiet) (hsink : s.sinkAnswers = []) (hidle : s.block.phase = .idle)
    (hw : allWritten s.block.secbuf = true) :
    ∃ txns groups, TxnCounts 3078 1 txns ∧ GroupCells s.block.secbuf s.block.validMask 3078 groups ∧
      Runs 6161 { s with script := [scriptEncode] } (s.encoded txns (markCells s.params ++ groups)) := by
  obtain ⟨txns, groups, hcounts, hgroups, hrun⟩ := runs_encoding_groups hq hsink hw (Nat.le_refl 3078)
  have hlen : txns.length = 6159 := hcounts.length
  have hfinalize := step_encoding (txns := txns) (cells := markCells s.params ++ groups) hq hsink
    (by rw [hlen]; exact txnAt_finalize _ _) (emits_finalize s.params.speed _)
  rw [if_pos (by rw [hlen]), List.append_nil] at hfinalize
  exact ⟨_, groups, hcounts.addFinalize, hgroups,
    ((runs_encoding_marks hq hsink hidle hw).trans hrun).trans (.step hfinalize)⟩

/-! ### The obligations -/

theorem image_length {p : Params} {m : Memory} {mask : BitVec 6} {groups : List Bool} (h : GroupCells m mask 3078 groups) :
    (markCells p ++ groups).length = 98544 := by
  rw [List.length_append, markCells_length, h.length]

/-- Settles O49: the counts of `runs_encoded`, and its cells as a function of their index. -/
theorem encodeRunEmitsImage : Obligations.EncodeRunEmitsImage := by
  intro s hq hsink hidle hbytes
  obtain ⟨txns, groups, hcounts, hgroups, hrun⟩ := runs_encoded hq hsink hidle (allWritten_iff.mpr hbytes)
  have hlen : (markCells s.params ++ groups).length = 98544 := image_length hgroups
  refine ⟨_, fun j => (markCells s.params ++ groups)[j]?.getD false, txns, hrun, hcounts.length, hcounts.setup, hcounts.raw,
    hcounts.even, hcounts.odd, hcounts.finalize, ?_⟩
  rw [State.encoded, State.encoding, cellsAt, List.getLast?_eq_getElem?, hlen, hcounts.length]
  rfl

theorem encoded_emittedCells {s : State} (h : s.sinkCells = []) (txns : List TxnRecord) (cells : List Bool) :
    (s.encoded txns cells).emittedCells = cells := by
  rw [State.emittedCells]
  change ((cellsAt _ _ cells ++ s.sinkCells).map (·.cell)).reverse = cells
  rw [h, List.append_nil, map_cell_cellsAt]

theorem collect_mark1 (p : Params) : collect (rawCells (p.mark1.setWidth 32) 16) = p.mark1.setWidth 32 :=
  collect_rawCells fun i hi => by
    rw [BitVec.getLsbD_setWidth, BitVec.getLsbD_of_ge p.mark1 i hi, Bool.and_false]

theorem collect_mark2 (p : Params) : collect (rawCells p.mark2 32) = p.mark2 :=
  collect_rawCells fun i hi => BitVec.getLsbD_of_ge p.mark2 i hi

/-- Settles O50: the emitted cells are the marks' and then the groups'. -/
theorem encodedImageHoldsWords : Obligations.EncodedImageHoldsWords := by
  intro s hq hsink hcells hidle hbytes
  obtain ⟨txns, groups, -, hgroups, hrun⟩ := runs_encoded hq hsink hidle (allWritten_iff.mpr hbytes)
  refine ⟨_, hrun, ?_⟩
  rw [encoded_emittedCells hcells]
  refine ⟨?_, ?_, fun g hg => ?_⟩
  · have hslice := slice_all (rawCells (s.params.mark1.setWidth 32) 16)
    rw [rawCells_length] at hslice
    rw [slice_append_left (by rw [markCells_length]; decide), markCells, slice_append_left (by rw [rawCells_length]), hslice,
      collect_mark1]
  · have hslice := slice_append_right (rawCells (s.params.mark1.setWidth 32) 16) (rawCells s.params.mark2 32) 0 32
    rw [rawCells_length] at hslice
    have hall := slice_all (rawCells s.params.mark2 32)
    rw [rawCells_length] at hall
    rw [slice_append_left (by rw [markCells_length]), markCells, hslice, hall, collect_mark2]
  · have hslice := slice_append_right (markCells s.params) groups (32 * g) 32
    rw [markCells_length] at hslice
    rw [hslice, hgroups.word g hg]

end Sys2Proof.Machine
end

section
/-! PROOFS about the DECODE of an ENCODE's cells, from 41_sync_detector.md and 42_demodulator.md: the marks are found at the first
cell, and every group is demodulated. -/

namespace Sys2Proof.Machine

/-! ### Reading many cells -/

/-- The block `b` reads `cells`, in a reading phase before each of them, and is then `b'`. -/
def ReadsTo (p : Params) : Block → List Bool → Block → Prop
  | b, [], b' => b' = b
  | b, c :: cells, b' => b.phase.reading ∧ ReadsTo p (b.cellStep p c) cells b'

theorem ReadsTo.append {p : Params} {b b' b'' : Block} {cells new : List Bool} (h : ReadsTo p b cells b')
    (h' : ReadsTo p b' new b'') : ReadsTo p b (cells ++ new) b'' := by
  induction cells generalizing b with
  | nil =>
    cases h
    exact h'
  | cons c cells ih =>
    obtain ⟨hp, hrest⟩ := h
    exact ⟨hp, ih hrest⟩

/-- One step for each cell that a source always has ready. -/
theorem ReadsTo.runs {s : State} {b' : Block} {cells : List Bool} {rest : List SourceAnswer} (hq : s.quiet)
    (h : ReadsTo s.params s.block cells b') (hl : s.stream = cells.map .cell ++ rest) :
    Runs cells.length s { s with stream := rest, block := b' } := by
  induction cells generalizing s with
  | nil =>
    cases h
    rw [List.map_nil, List.nil_append] at hl
    rw [← hl]
    exact .zero s
  | cons c cells ih =>
    obtain ⟨hp, hrest⟩ := h
    have hstep := (step_quiet hq).trans (blockStep_cell hp hl)
    exact runs_succ_iff.mpr ⟨_, hstep, ih (s := { s with stream := _, block := s.block.cellStep s.params c }) hq hrest rfl⟩

/-! ### What cells do to `POS`, `W` and `FILL` -/

/-- The cells are taken, and nothing else happens. -/
def Block.takeCells (b : Block) (cells : List Bool) : Block := cells.foldl Block.takeCell b

theorem Block.takeCells_cons (b : Block) (c : Bool) (cells : List Bool) :
    b.takeCells (c :: cells) = (b.takeCell c).takeCells cells := rfl

theorem Block.takeCells_concat (b : Block) (cells : List Bool) (c : Bool) :
    b.takeCells (cells ++ [c]) = (b.takeCells cells).takeCell c := by
  rw [takeCells, takeCells, List.foldl_append]
  rfl

theorem Block.takeCells_frame (b : Block) (cells : List Bool) :
    ∃ pos w fill, b.takeCells cells = { b with pos := pos, w := w, fill := fill } := by
  induction cells generalizing b with
  | nil => exact ⟨b.pos, b.w, b.fill, rfl⟩
  | cons c cells ih =>
    obtain ⟨pos, w, fill, h⟩ := ih (b.takeCell c)
    exact ⟨pos, w, fill, h⟩

@[simp] theorem Block.takeCells_phase (b : Block) (cells : List Bool) : (b.takeCells cells).phase = b.phase := by
  obtain ⟨_, _, _, h⟩ := b.takeCells_frame cells
  rw [h]

@[simp] theorem Block.takeCells_wb (b : Block) (cells : List Bool) : (b.takeCells cells).wb = b.wb := by
  obtain ⟨_, _, _, h⟩ := b.takeCells_frame cells
  rw [h]

@[simp] theorem Block.takeCells_wi (b : Block) (cells : List Bool) : (b.takeCells cells).wi = b.wi := by
  obtain ⟨_, _, _, h⟩ := b.takeCells_frame cells
  rw [h]

theorem Block.takeCells_pos (b : Block) (cells : List Bool) :
    (b.takeCells cells).pos = b.pos + BitVec.ofNat 32 cells.length := by
  induction cells generalizing b with
  | nil => exact (BitVec.add_zero _).symm
  | cons c cells ih =>
    rw [takeCells_cons, ih, takeCell_pos, List.length_cons, BitVec.ofNat_add]
    bv_omega

theorem Block.takeCells_w (b : Block) (cells : List Bool) : (b.takeCells cells).w = cells.foldl shiftIn b.w := by
  induction cells generalizing b with
  | nil => rfl
  | cons c cells ih => exact ih (b.takeCell c)

theorem Block.takeCells_fill {b : Block} {cells : List Bool} (h : b.fill + cells.length ≤ 16) :
    (b.takeCells cells).fill = b.fill + cells.length := by
  induction cells generalizing b with
  | nil => rfl
  | cons c cells ih =>
    rw [List.length_cons] at h ⊢
    have hfill : (b.takeCell c).fill = b.fill + 1 := Nat.min_eq_left (by omega)
    rw [takeCells_cons, ih (by omega), hfill]
    omega

/-- Taking cells does not look at `CNT`. -/
theorem Block.takeCells_cnt (b : Block) (n : Nat) (cells : List Bool) :
    Block.takeCells { b with cnt := n } cells = { b.takeCells cells with cnt := n } := by
  induction cells generalizing b with
  | nil => rfl
  | cons c cells ih => exact ih (b.takeCell c)

/-- The cells shifted in last push out what stood in `W` before. -/
theorem foldl_shiftIn_getLsbD (w w' : Word32) {cells : List Bool} {i : Nat} (hi : i < cells.length) :
    (cells.foldl shiftIn w).getLsbD i = (cells.foldl shiftIn w').getLsbD i := by
  induction cells using List.reverseRecOn generalizing i with
  | nil => exact absurd hi (Nat.not_lt_zero i)
  | append_singleton cells c ih =>
    simp only [List.foldl_append, List.foldl_cons, List.foldl_nil, shiftIn, BitVec.getLsbD_concat, BitVec.getLsbD_setWidth]
    cases i with
    | zero => rfl
    | succ i =>
      rw [List.length_append, List.length_singleton] at hi
      rw [if_neg (Nat.succ_ne_zero i), if_neg (Nat.succ_ne_zero i), Nat.add_sub_cancel, ih (by omega)]

/-- So after 32 cells `W` is those cells (10_state.md R28). -/
theorem foldl_shiftIn_eq_collect (w : Word32) {cells : List Bool} (h : cells.length = 32) :
    cells.foldl shiftIn w = collect cells :=
  BitVec.eq_of_getLsbD_eq fun i hi => foldl_shiftIn_getLsbD w 0 (by omega)

/-! ### The marks (41_sync_detector.md R94 to R96) -/

theorem exists_concat_of_length {cells : List Bool} {n : Nat} (h : cells.length = n + 1) :
    ∃ init c, cells = init ++ [c] ∧ init.length = n := by
  obtain rfl | ⟨init, c, rfl⟩ := List.eq_nil_or_concat' cells
  · cases h
  · exact ⟨init, c, rfl, by simpa using h⟩

/-- Before `FILL` is 16 no mark is found. -/
theorem readsTo_scan {p : Params} {b : Block} {cells : List Bool} (hp : b.phase = .dScan)
    (h : b.fill + cells.length < 16) : ReadsTo p b cells (b.takeCells cells) := by
  induction cells generalizing b with
  | nil => rfl
  | cons c cells ih =>
    rw [List.length_cons] at h
    have hfill : (b.takeCell c).fill = b.fill + 1 := Nat.min_eq_left (by omega)
    refine ⟨.inl hp, ?_⟩
    rw [Block.cellStep_scan hp, Block.scanCell_eq, if_neg (by omega)]
    exact ih hp (by omega)

/-- Sixteen cells that hold `MARK1`, read from an empty `FILL`: the candidate offset is the position of the first. -/
theorem readsTo_mark1 {p : Params} {b : Block} {cells : List Bool} (hp : b.phase = .dScan) (hfill : b.fill = 0)
    (hlen : cells.length = 16) (hmark : lastHalf (cells.foldl shiftIn b.w) = p.mark1) :
    ReadsTo p b cells { b.takeCells cells with candOff := b.pos, cnt := 0, phase := .dConfirm } := by
  obtain ⟨init, c, rfl, hinit⟩ := exists_concat_of_length hlen
  have hpos : (b.takeCells init).pos - 15 = b.pos := by
    rw [Block.takeCells_pos, hinit]
    bv_omega
  have hfill' : (b.takeCells (init ++ [c])).fill = 16 := by
    rw [Block.takeCells_fill (by omega), hfill, hlen]
  have hphase : (b.takeCells init).phase = .dScan := (b.takeCells_phase init).trans hp
  refine (readsTo_scan hp (by omega)).append ⟨.inl hphase, ?_⟩
  rw [← Block.takeCells_w, lastHalf_eq_extractLsb'] at hmark
  rw [Block.cellStep_scan hphase, Block.scanCell_eq, ← Block.takeCells_concat, if_pos ⟨hfill', hmark⟩, hpos]
  rfl

/-- A cell that does not complete a word of 32 is only counted, in D_CONFIRM as in D_DEMOD. -/
theorem cellStep_counted {b : Block} (hp : b.phase = .dConfirm ∨ b.phase = .dDemod) (h : b.cnt + 1 < 32) (p : Params)
    (c : Bool) : b.cellStep p c = { b.takeCell c with cnt := b.cnt + 1 } := by
  obtain hp | hp := hp
  · rw [Block.cellStep_confirm hp, Block.confirmCell_eq, if_neg (by omega)]
  · rw [Block.cellStep_demod hp, Block.demodCell_of_cnt_ne (by omega)]

theorem readsTo_counted {p : Params} {b : Block} {cells : List Bool} (hp : b.phase = .dConfirm ∨ b.phase = .dDemod)
    (h : b.cnt + cells.length < 32) : ReadsTo p b cells { b.takeCells cells with cnt := b.cnt + cells.length } := by
  induction cells generalizing b with
  | nil => rfl
  | cons c cells ih =>
    rw [List.length_cons] at h
    have hrest := ih (b := { b.takeCell c with cnt := b.cnt + 1 }) hp (by dsimp only; omega)
    rw [Block.takeCells_cnt] at hrest
    refine ⟨.inr hp, ?_⟩
    rw [cellStep_counted hp (by omega), Block.takeCells_cons, List.length_cons, Nat.add_comm cells.length, ← Nat.add_assoc]
    exact hrest

/-- The 32 cells of a word in D_CONFIRM or D_DEMOD: 31 are counted, and the last does what `last` says. -/
theorem readsTo_word {p : Params} {b b' : Block} {cells : List Bool} (hp : b.phase = .dConfirm ∨ b.phase = .dDemod)
    (hcnt : b.cnt = 0) (hlen : cells.length = 32)
    (last : ∀ init c, cells = init ++ [c] → Block.cellStep { b.takeCells init with cnt := 31 } p c = b') :
    ReadsTo p b cells b' := by
  obtain ⟨init, c, rfl, hinit⟩ := exists_concat_of_length hlen
  have hcounted := readsTo_counted (p := p) (cells := init) hp (by omega)
  rw [hcnt, hinit, Nat.zero_add] at hcounted
  have hphase := b.takeCells_phase init
  refine hcounted.append ⟨.inr ?_, (last init c rfl).symm⟩
  exact hp.imp hphase.trans hphase.trans

/-- Thirty-two cells that hold `MARK2`. -/
theorem readsTo_mark2 {p : Params} {b : Block} {cells : List Bool} (hp : b.phase = .dConfirm) (hcnt : b.cnt = 0)
    (hlen : cells.length = 32) (hmark : collect cells = p.mark2) :
    ReadsTo p b cells { b.takeCells cells with cnt := 0, wi := 0, new := 0, phase := .dDemod } := by
  refine readsTo_word (.inl hp) hcnt hlen fun init c hcells => ?_
  have hphase : (b.takeCells init).phase = .dConfirm := (b.takeCells_phase init).trans hp
  have hw : ((b.takeCells init).takeCell c).w = p.mark2 := by
    rw [← Block.takeCells_concat, ← hcells, Block.takeCells_w, foldl_shiftIn_eq_collect _ hlen, hmark]
  rw [Block.cellStep_confirm (b := { b.takeCells init with cnt := 31 }) hphase, Block.confirmCell_eq, if_pos rfl, hcells,
    Block.takeCells_concat]
  exact if_pos hw

/-! ### The groups (42_demodulator.md R103, R105) -/

/-- A group stores the word its cells carry. -/
theorem readsTo_group {p : Params} {b : Block} {cells : List Bool} (hp : b.phase = .dDemod) (hcnt : b.cnt = 0)
    (hlen : cells.length = 32) :
    ReadsTo p b cells { b.takeCells cells with
      wb := sparseWrite b.wb b.wi (demod (collect cells))
      wi := b.wi + 1
      cnt := 0
      phase := if b.wi + 1 = 3078 then .dValidate else .dDemod } := by
  refine readsTo_word (.inr hp) hcnt hlen fun init c hcells => ?_
  have hw : ((b.takeCells init).takeCell c).w = collect cells := by
    rw [← Block.takeCells_concat, ← hcells, Block.takeCells_w, foldl_shiftIn_eq_collect _ hlen]
  have htake : b.takeCells cells = (b.takeCells init).takeCell c := by rw [hcells, Block.takeCells_concat]
  have hphase : (b.takeCells init).phase = .dDemod := (b.takeCells_phase init).trans hp
  rw [Block.cellStep_demod (b := { b.takeCells init with cnt := 31 }) hphase,
    Block.demodCell_of_cnt_eq (b := { b.takeCells init with cnt := 31 }) hphase rfl, htake, ← hw, ← b.takeCells_wb init,
    ← b.takeCells_wi init]
  rfl

/-- The last group of some, and those before it. -/
theorem GroupCells.split {m : Memory} {mask : BitVec 6} {n : Nat} {cells : List Bool} (h : GroupCells m mask (n + 1) cells) :
    ∃ init new, cells = init ++ new ∧ GroupCells m mask n init ∧ new.length = 32 ∧
      groupWord m mask n = some (demod (collect new)) := by
  have hlen := h.length
  have hcells : cells = cells.take (32 * n) ++ cells.drop (32 * n) := (List.take_append_drop _ _).symm
  have hinit : (cells.take (32 * n)).length = 32 * n := by rw [List.length_take]; omega
  have hnew : (cells.drop (32 * n)).length = 32 := by rw [List.length_drop]; omega
  refine ⟨_, _, hcells, ⟨hinit, fun g hg => ?_⟩, hnew, ?_⟩
  · have hword := h.word g (by omega)
    rwa [hcells, slice_append_left (by omega)] at hword
  · have hword := h.word n (Nat.lt_succ_self n)
    rwa [slice, List.take_of_length_le hnew.le] at hword

/-- The groups of the sequence's first `n` words leave those words in `WB`. -/
theorem readsTo_groups {p : Params} {b : Block} {m : Memory} {mask : BitVec 6} {n : Nat} {cells : List Bool}
    (hp : b.phase = .dDemod) (hcnt : b.cnt = 0) (hwi : b.wi = 0) (hn : n ≤ 3078) (h : GroupCells m mask n cells) :
    ∃ pos w fill wb, (∀ g < n, sparseRead wb g = groupWord m mask g) ∧
      ReadsTo p b cells { b with
        pos := pos, w := w, fill := fill, wb := wb, wi := n, phase := if n = 3078 then .dValidate else .dDemod } := by
  induction n generalizing cells with
  | zero =>
    obtain rfl : cells = [] := List.eq_nil_of_length_eq_zero h.length
    refine ⟨b.pos, b.w, b.fill, b.wb, nofun, ?_⟩
    rw [if_neg (by decide), ← hp, ← hwi]
    rfl
  | succ n ih =>
    obtain ⟨init, new, rfl, hinit, hlen, hword⟩ := h.split
    obtain ⟨pos, w, fill, wb, hwords, hreads⟩ := ih (by omega) hinit
    rw [if_neg (by omega)] at hreads
    have hgroup := readsTo_group (p := p) (b := { b with pos := pos, w := w, fill := fill, wb := wb, wi := n, phase := .dDemod })
      rfl hcnt hlen
    obtain ⟨pos', w', fill', hframe⟩ :=
      Block.takeCells_frame { b with pos := pos, w := w, fill := fill, wb := wb, wi := n, phase := .dDemod } new
    rw [hframe] at hgroup
    refine ⟨pos', w', fill', sparseWrite wb n (demod (collect new)), fun g hg => ?_, ?_⟩
    · rw [sparseRead_sparseWrite]
      by_cases hlast : g = n
      · rw [if_pos hlast, hlast, hword]
      · rw [if_neg hlast, hwords g (by omega)]
    · have hall := hreads.append hgroup
      simp only [← hcnt] at hall
      exact hall

/-! ### The whole image -/

/-- From a DECODE's start the image of an ENCODE is read up to its last cell: the candidate offset is `START_POS`, and `WB`
holds the words of the sequence. -/
theorem readsTo_image {p : Params} {b : Block} {m : Memory} {mask : BitVec 6} {groups : List Bool} (hp : b.phase = .dScan)
    (hfill : b.fill = 0) (hw : b.w = 0) (h : GroupCells m mask 3078 groups) :
    ∃ pos w fill wb, (∀ g < 3078, sparseRead wb g = groupWord m mask g) ∧
      ReadsTo p b (markCells p ++ groups) { b with
        pos := pos, w := w, fill := fill, wb := wb, candOff := b.pos, cnt := 0, wi := 3078, new := 0
        phase := .dValidate } := by
  have hlast : lastHalf ((rawCells (p.mark1.setWidth 32) 16).foldl shiftIn b.w) = p.mark1 := by
    rw [hw]
    change lastHalf (collect _) = _
    rw [collect_mark1, lastHalf, BitVec.setWidth_setWidth_of_le _ (by decide), BitVec.setWidth_eq]
  have hmark1 := readsTo_mark1 (p := p) hp hfill (rawCells_length _ 16) hlast
  obtain ⟨pos₁, w₁, fill₁, hframe₁⟩ := b.takeCells_frame (rawCells (p.mark1.setWidth 32) 16)
  rw [hframe₁] at hmark1
  have hmark2 := readsTo_mark2 (p := p)
    (b := { b with pos := pos₁, w := w₁, fill := fill₁, candOff := b.pos, cnt := 0, phase := .dConfirm }) rfl rfl
    (rawCells_length _ 32) (collect_mark2 p)
  obtain ⟨pos₂, w₂, fill₂, hframe₂⟩ := Block.takeCells_frame
    { b with pos := pos₁, w := w₁, fill := fill₁, candOff := b.pos, cnt := 0, phase := .dConfirm } (rawCells p.mark2 32)
  rw [hframe₂] at hmark2
  obtain ⟨pos, w, fill, wb, hwords, hgroups⟩ := readsTo_groups (p := p)
    (b := { b with
      pos := pos₂, w := w₂, fill := fill₂, candOff := b.pos, cnt := 0, wi := 0, new := 0, phase := .dDemod })
    rfl rfl rfl (Nat.le_refl 3078) h
  rw [if_pos rfl] at hgroups
  exact ⟨pos, w, fill, wb, hwords, (hmark1.append hmark2).append hgroups⟩

end Sys2Proof.Machine
end

section
/-! PROOFS of the clean re-read round trip, from 45_flux_encoder.md and 90_conflicts.md C1: the DECODE of exactly the cells an
ENCODE emitted finds the sectors of its mask, and no other. -/

namespace Sys2Proof.Machine

/-! ### The sectors of an attempt that holds the sequence's words (43_checksum_validator.md R111, R113) -/

/-- The words of `WB` are those of the sequence of a fully written buffer. -/
structure HoldsImage (wb : WordBuffer) (m : Memory) (mask : BitVec 6) : Prop where
  written : allWritten m = true
  words : ∀ g < 3078, sparseRead wb g = groupWord m mask g

theorem HoldsImage.wordsWritten {wb : WordBuffer} {m : Memory} {mask : BitVec 6} (h : HoldsImage wb m mask) :
    wordsWritten wb Config.tw := by
  intro g hg
  obtain ⟨v, hv⟩ := groupWord_isSome mask h.written hg
  rw [h.words g hg, hv]
  rfl

/-- Data word `k` of sector `s` follows the sector's checksum word. -/
theorem HoldsImage.secWord {wb : WordBuffer} {m : Memory} {mask : BitVec 6} (h : HoldsImage wb m mask) {s k : Nat}
    (hs : s < 6) (hk : k < 512) : secWord m s k = some (wbWord wb (513 * s + 1 + k)) := by
  have hword := h.words (513 * s + (1 + k)) (by omega)
  rw [groupWord_data m mask (by omega) (by omega), Nat.add_sub_cancel_left, ← Nat.add_assoc] at hword
  obtain ⟨v, hv⟩ := secWord_isSome h.written (show s < Config.nsec from hs) (show k < Config.wps from hk)
  rw [hv] at hword ⊢
  rw [wbWord_of_sparseRead hword]

/-- The body of a sector is its data words. -/
theorem HoldsImage.wbBody {wb : WordBuffer} {m : Memory} {mask : BitVec 6} (h : HoldsImage wb m mask) {s : Nat} (hs : s < 6)
    {ws : List Word16} (hws : secWords m s = some ws) : wbBody wb s = ws := by
  obtain ⟨hlen, hword⟩ := secWord_of_secWords hws
  refine List.ext_getElem (by rw [wbBody_length, hlen]) fun k hk hk' => ?_
  rw [wbBody_length] at hk
  have hget := (h.secWord hs hk).symm.trans (hword k hk)
  rw [List.getElem?_eq_getElem hk', Option.some.injEq] at hget
  rw [wbBody_getElem, hget]

/-- A sector's checksum word is its sum exactly when its mask bit is 1; otherwise it is the sum's complement. -/
theorem HoldsImage.sum_eq_iff {wb : WordBuffer} {m : Memory} {mask : BitVec 6} (h : HoldsImage wb m mask) {s : Nat}
    (hs : s < 6) : wbSum wb s = wbWord wb (513 * s) ↔ mask.getLsbD s = true := by
  obtain ⟨ws, hws⟩ := secWords_isSome h.written (show s < Config.nsec from hs)
  have hsum : wbSum wb s = ws.sum := congrArg List.sum (h.wbBody hs hws)
  have hword := h.words (513 * s) (by omega)
  rw [groupWord_first, encCsum_of_secWords mask hws] at hword
  rw [hsum, wbWord_of_sparseRead hword]
  cases mask.getLsbD s with
  | true => simp
  | false => simp

/-- So exactly the sectors of the mask become valid. -/
theorem HoldsImage.newlyValid {b : Block} {m : Memory} {mask : BitVec 6} (h : HoldsImage b.wb m mask)
    (hnone : b.validMask = 0) {s : Nat} (hs : s < 6) : newlyValid b s = mask.getLsbD s := by
  have hinvalid : validBit b.validMask s = false := by
    rw [hnone]
    exact BitVec.getLsbD_zero
  rw [Bool.eq_iff_iff, newlyValid_eq_true, h.sum_eq_iff hs]
  exact and_iff_right hinvalid

/-- And their slots hold the bytes of the buffer that was encoded (43_checksum_validator.md R114). -/
theorem HoldsImage.attemptByte {wb : WordBuffer} {m : Memory} {mask : BitVec 6} (h : HoldsImage wb m mask) {a : Nat}
    (ha : a < 6144) : memByte m a = some (attemptByte wb a) := by
  have hbyte {i : Nat} (hi : i < 6144) := Option.isSome_iff_exists.mp (allWritten_iff.mp h.written i hi)
  have hindex : Config.secBytes * (a / 1024) + 2 * (a % 1024 / 2) = 2 * (a / 2) := by
    simp only [Config.secBytes]
    omega
  obtain ⟨hi, hhi⟩ := hbyte (i := 2 * (a / 2)) (by omega)
  obtain ⟨lo, hlo⟩ := hbyte (i := 2 * (a / 2) + 1) (by omega)
  have hword := secWord_of_memByte (by rwa [hindex]) (by rwa [hindex]) |>.symm.trans
    (h.secWord (s := a / 1024) (k := a % 1024 / 2) (by omega) (by omega))
  rw [Option.some.injEq] at hword
  rw [Machine.attemptByte, ← hword]
  obtain hparity | hparity := Nat.mod_two_eq_zero_or_one a
  · rw [if_pos hparity, BitVec.extractLsb'_append_eq_left, ← hhi]
    congr 1
    omega
  · rw [if_neg (by omega), BitVec.extractLsb'_append_eq_right, ← hlo]
    congr 1
    omega

/-! ### VALIDATE over the image -/

/-- The block when a DECODE of an image reaches D_FINISH: the mask, the buffer and the offset that FINISH reports. -/
structure DecodedImage (t : Sentinel) (m : Memory) (mask : BitVec 6) (off : Word32) (b : Block) : Prop where
  phase : b.phase = .dFinish
  validMask : b.validMask = mask
  dataBitoff : b.dataBitoff = if mask = 0 then 0 else off
  bytes : ∀ i < 6144, memByte b.secbuf i =
    if mask.getLsbD (i / 1024) then memByte m i else some (sentinelByte t i)

/-- The mask after all six sectors is the image's. -/
theorem HoldsImage.mask_eq {b : Block} {m m' : Memory} {mask mask' : BitVec 6} (h : HoldsImage b.wb m mask)
    (hnone : b.validMask = 0) (hjudged : JudgedBelow b 6 mask' m') : mask' = mask := by
  refine BitVec.eq_of_getLsbD_eq fun i hi => ?_
  have hbit := hjudged.valid i
  rw [hnone, decide_eq_true hi, Bool.true_and, h.newlyValid hnone hi] at hbit
  simpa [validBit] using hbit

/-- Some sector is newly valid exactly when the mask is not 0. -/
theorem HoldsImage.count_pos_iff {b : Block} {m m' : Memory} {mask : BitVec 6} (h : HoldsImage b.wb m mask)
    (hnone : b.validMask = 0) (hjudged : JudgedBelow b 6 mask m') : 0 < newlyValidCount b 6 ↔ mask ≠ 0 := by
  constructor
  · rintro hpos rfl
    exact absurd (judged_mask_eq_zero hjudged).2 (by omega)
  · intro hmask
    rw [newlyValidCount, List.length_pos_iff_exists_mem]
    by_contra hnil
    push Not at hnil
    refine hmask (BitVec.eq_of_getLsbD_eq fun i hi => ?_)
    have hi' := hnil i
    rw [List.mem_filter, List.mem_range, h.newlyValid hnone hi] at hi'
    simpa [hi] using hi'

/-- The step of D_VALIDATE with the image in `WB`, and `EOS` after it if VALIDATE goes back to the scan. -/
theorem runs_validate_image {s : State} {m : Memory} {mask : BitVec 6} (hq : s.quiet) (hp : s.block.phase = .dValidate)
    (heos : s.stream = []) (himage : HoldsImage s.block.wb m mask) (hnone : s.block.validMask = 0)
    (hnew : s.block.new = 0) (hoff : s.block.dataBitoff = 0) (hsec : s.block.secbuf = sentinelFill s.params.sentinel) :
    ∃ k b, Runs k s { s with block := b } ∧ DecodedImage s.params.sentinel m mask s.block.candOff b := by
  obtain ⟨mask', m', hstep, hjudged⟩ := validateStep_judged himage.wordsWritten
  obtain rfl := himage.mask_eq hnone hjudged
  have hvalidate := Runs.step ((step_validate hq hp).trans hstep)
  have hdecoded : DecodedImage s.params.sentinel m mask' s.block.candOff
      { (s.block.judged 6 mask' m').endAttempt with phase := .dFinish } := by
    refine ⟨rfl, rfl, ?_, fun i hi => ?_⟩
    · have hpos := himage.count_pos_iff hnone hjudged
      change (if s.block.new + newlyValidCount s.block 6 > 0 then s.block.candOff else s.block.dataBitoff) = _
      rw [hnew, Nat.zero_add, hoff]
      by_cases hmask : mask' = 0
      · rw [if_pos hmask, if_neg (by rw [gt_iff_lt, hpos]; exact not_not.mpr hmask)]
      · rw [if_neg hmask, if_pos (hpos.mpr hmask)]
    · have hbyte := hjudged.bytes i
      rw [himage.newlyValid hnone (by omega), hsec, memByte_sentinelFill, if_pos hi, ← himage.attemptByte hi] at hbyte
      refine hbyte.trans ?_
      simp [hi]
  by_cases hfull : mask' = 0x3F
  · refine ⟨1, _, hvalidate, ?_⟩
    have hphase : (s.block.judged 6 mask' m').endAttempt.phase = .dFinish := if_pos hfull
    rwa [← hphase] at hdecoded
  · have hphase : (s.block.judged 6 mask' m').endAttempt.phase = .dScan := if_neg hfull
    have hq' : State.quiet { s with block := (s.block.judged 6 mask' m').endAttempt } := hq
    have hend := blockStep_eos (s := { s with block := (s.block.judged 6 mask' m').endAttempt }) (.inl hphase) heos
    exact ⟨1 + 1, _, hvalidate.trans (.step ((step_quiet hq').trans hend)), hdecoded⟩

/-! ### The DECODE of an image -/

/-- The host has issued the command. -/
theorem step_decode {s : State} {rest : List HostOp} (hflux : s.fluxIn = []) (hscript : s.script = scriptDecode :: rest)
    (hidle : s.block.phase = .idle) :
    step s = .next { s with
      script := rest, block := s.block.startDecode s.params.sentinel, stream := s.nextStream, nextStream := [] } := by
  rw [commandWriteRunsDecodedCommand s rest _ .decode hflux hscript rfl, exec_decode]
  exact execDecode_idle (s := { s with script := rest }) hidle

/-- The script of the re-read: the source's sequence, `START_POS`, and the command (30_encoding.md R82). -/
theorem runs_decode_script {u : State} (hq : u.quiet) (hidle : u.block.phase = .idle) (cells : List Bool) (off : Word32) :
    Runs 3 { u with script := [scriptStream cells, .write 0x0010 4 off, scriptDecode] } { u with
      nextStream := []
      stream := cells.map .cell
      block := Block.startDecode { u.block with startPos := off } u.params.sentinel } := by
  obtain ⟨hflux, hscript⟩ := hq
  have hstream := streamSetsNextSequence
    { u with script := [scriptStream cells, .write 0x0010 4 off, scriptDecode] } _ (cells.map .cell) hflux rfl
  have hstart := step_register_write (r := .startPos)
    (s := { u with script := [.write 0x0010 4 off, scriptDecode], nextStream := cells.map .cell })
    hflux rfl rfl (by decide) hidle
  have hdecode := step_decode
    (s := { u with script := [scriptDecode], nextStream := cells.map .cell, block := { u.block with startPos := off } })
    hflux rfl hidle
  rw [hscript]
  exact ((Runs.step hstream).trans (.step hstart)).trans (.step hdecode)

/-- A DECODE of the image of a fully written buffer `m` with the mask `mask`, issued at position `off`, ends after FINISH of a
block that has them. -/
theorem runs_decode_image {u : State} {m : Memory} {mask : BitVec 6} {groups cells : List Bool} (hq : u.quiet)
    (hidle : u.block.phase = .idle) (hw : allWritten m = true) (h : GroupCells m mask 3078 groups)
    (hcells : cells = markCells u.params ++ groups) (off : Word32) :
    ∃ k b, Runs k { u with script := [scriptStream cells, .write 0x0010 4 off, scriptDecode] }
        { u with nextStream := [], stream := [], block := b.finish } ∧
      DecodedImage u.params.sentinel m mask off b := by
  subst hcells
  have hscript := runs_decode_script hq hidle (markCells u.params ++ groups) off
  obtain ⟨pos, w, fill, wb, hwords, hreads⟩ := readsTo_image (p := u.params)
    (b := Block.startDecode { u.block with startPos := off } u.params.sentinel) rfl rfl rfl h
  have hread := ReadsTo.runs (s := { u with
    nextStream := []
    stream := (markCells u.params ++ groups).map .cell
    block := Block.startDecode { u.block with startPos := off } u.params.sentinel }) hq hreads (List.append_nil _).symm
  obtain ⟨k, b, hvalidate, hdecoded⟩ := runs_validate_image
    (s := { u with
      nextStream := []
      stream := []
      block := { Block.startDecode { u.block with startPos := off } u.params.sentinel with
        pos := pos, w := w, fill := fill, wb := wb, candOff := off, cnt := 0, wi := 3078, new := 0
        phase := .dValidate } })
    hq rfl rfl ⟨hw, hwords⟩ rfl rfl rfl rfl
  have hfinish := Runs.step (step_finish (s := { u with nextStream := [], stream := [], block := b }) hq hdecoded.phase)
  exact ⟨_, b, ((hscript.trans hread).trans hvalidate).trans hfinish, hdecoded⟩

/-! ### The obligations -/

/-- The ENCODE and the DECODE of its cells, for any mask. -/
theorem runs_round_trip {s : State} (hq : s.quiet) (hsink : s.sinkAnswers = []) (hcells : s.sinkCells = [])
    (hidle : s.block.phase = .idle) (hbytes : ∀ i < 6144, (memByte s.block.secbuf i).isSome = true) :
    ∃ k m u t b, Runs k { s with script := [scriptEncode] } u ∧ u.quiet ∧ u.block.phase = .idle ∧
      Runs m { u with script := [scriptStream u.emittedCells, .write 0x0010 4 s.block.dataBitoff, scriptDecode] } t ∧
      t.quiet ∧ t.faults = s.faults ∧ t.block = b.finish ∧
      DecodedImage s.params.sentinel s.block.secbuf s.block.validMask s.block.dataBitoff b := by
  have hw := allWritten_iff.mpr hbytes
  obtain ⟨txns, groups, -, hgroups, hencode⟩ := runs_encoded hq hsink hidle hw
  have hu : (s.encoded txns (markCells s.params ++ groups)).quiet := hq
  obtain ⟨m, b, hdecode, hdecoded⟩ :=
    runs_decode_image hu rfl hw hgroups (encoded_emittedCells hcells txns _) s.block.dataBitoff
  exact ⟨_, m, _, _, b, hencode, hu, rfl, hdecode, hu, rfl, rfl, hdecoded⟩

/-- Settles O51: FINISH of a mask other than 0 reports OK. -/
theorem encodeDecodeRoundTrip : Obligations.EncodeDecodeRoundTrip := by
  intro s hq hsink hcells hidle hbytes hmask
  obtain ⟨k, m, u, t, b, hencode, hu, huidle, hdecode, ht, hfaults, hblock, hdecoded⟩ :=
    runs_round_trip hq hsink hcells hidle hbytes
  have hvalid : b.validMask ≠ 0 := by rwa [hdecoded.validMask]
  have hoff := hdecoded.dataBitoff
  rw [if_neg hmask] at hoff
  rw [Block.finish_of_validMask_ne hvalid] at hblock
  refine ⟨k, m, u, t, hencode, hu, huidle, hdecode, ht, ?_⟩
  rw [hblock]
  exact ⟨rfl, rfl, hdecoded.validMask, hoff, rfl, rfl, rfl, hfaults, hdecoded.bytes⟩

/-- Settles O52: FINISH of the mask 0 reports NODATA, and no slot has been written. -/
theorem encodeDecodeOfInvalidIsNoData : Obligations.EncodeDecodeOfInvalidIsNoData := by
  intro s hq hsink hcells hidle hbytes hmask
  obtain ⟨k, m, u, t, b, hencode, hu, huidle, hdecode, ht, -, hblock, hdecoded⟩ :=
    runs_round_trip hq hsink hcells hidle hbytes
  have hinvalid := hdecoded.validMask.trans hmask
  have hoff := hdecoded.dataBitoff
  rw [if_pos hmask] at hoff
  rw [Block.finish_of_validMask_eq hinvalid] at hblock
  refine ⟨k, m, u, t, hencode, hu, huidle, hdecode, ht, ?_⟩
  rw [hblock]
  refine ⟨rfl, rfl, hinvalid, hoff, fun i hi => ?_⟩
  have hbyte := hdecoded.bytes i hi
  have hbit : s.block.validMask.getLsbD (i / 1024) = false := by
    rw [hmask]
    exact BitVec.getLsbD_zero
  rwa [hbit, if_neg Bool.false_ne_true] at hbyte

end Sys2Proof.Machine
end
